-- ==== Sys2Proof/Word.lean ====
section
/-! DEFINITION. The words of the machine: bytes, 64-bit words and frame numbers (00_scope.md R8, 10_state.md R20). -/

namespace Sys2Proof

/-- One byte of memory. -/
abbrev Byte := BitVec 8

/-- A 64-bit register, address or memory field (10_state.md R20, 20_memory.md R60). -/
abbrev Word := BitVec 64

/-- The number of a 4096-byte frame or page: an address without its low twelve bits (20_memory.md R66). -/
abbrev FrameNo := BitVec 52

end Sys2Proof
end

