-- ==== Sys2Proof/Syntax.lean ====
section
/-! DEFINITION. The instructions: the four leaves of `ENCLS` (00_scope.md R2, 30_encoding.md R93). -/

namespace Sys2Proof

/-- One constructor per row of spec/opcode_table.json. None has a field: every operand is implicit, in
EAX, RBX, RCX and RDX (30_encoding.md R91, R95). -/
inductive Instr where
  /-- `ENCLS[ELDB]`, EAX = 07H (40_eld_leaves.md R111). -/
  | eldb
  /-- `ENCLS[ELDU]`, EAX = 08H (40_eld_leaves.md R112). -/
  | eldu
  /-- `ENCLS[ELDBC]`, EAX = 12H (40_eld_leaves.md R113). -/
  | eldbc
  /-- `ENCLS[ELDUC]`, EAX = 13H (40_eld_leaves.md R114). -/
  | elduc
  deriving DecidableEq, Repr

end Sys2Proof
end

