-- ==== Sys2Proof/Machine/Data.lean ====
section
/-! DEFINITION. The plain data the machine's state is made of, one type per thing the spec names (10_state.md R26 to R41, 60_exceptions.md R171, R172, R177, R187). -/

namespace Sys2Proof.Machine

/-- The operating mode. 10_state.md R30 tells 64-bit mode from the rest (`Mode64`), and protected mode
covers compatibility mode (92 D7). The other two are the modes a launch is refused in (93 U10). -/
inductive Mode where
  | realAddress
  | virtual8086
  | protectedMode
  | mode64
  deriving DecidableEq, Repr, Inhabited

/-- What the model keeps of segment register DS (10_state.md R28, 20_memory.md R64): base, limit and
whether the segment is usable. `expandDown` is there because a launch with it is refused (92 D7). -/
structure DsSegment where
  base       : BitVec 32
  limit      : BitVec 32
  usable     : Bool
  expandDown : Bool
  deriving DecidableEq, Repr, Inhabited

/-- RFLAGS as six named bits (10_state.md R26, R27), and `other`: every other bit of the register,
which the leaves keep. No bit position is assumed (91 N27). -/
structure Rflags where
  zf : Bool
  cf : Bool
  pf : Bool
  af : Bool
  of : Bool
  sf : Bool
  other : Word
  deriving DecidableEq, Repr, Inhabited

/-- A sub-field of a 64-bit register: its lowest bit and how many bits it has. -/
structure BitField where
  pos   : Nat
  width : Nat
  deriving DecidableEq, Repr, Inhabited

/-- The VMCS fields a VM exit writes (10_state.md R32), and the guest instruction pointer it records
(60_exceptions.md R177). `code` and `error` are sub-fields of the one exit qualification (91 N14), packed
in it as the parameters say. -/
structure Vmcs where
  exitReason        : Word
  exitQualification : Word
  guestPhysical     : Word
  guestLinear       : Word
  guestRip          : Word
  deriving DecidableEq, Repr, Inhabited

/-- One EPCM entry: the eight fields of 10_state.md R33. -/
structure EpcmEntry where
  valid          : Bool
  pt             : BitVec 8
  rwx            : BitVec 3
  pending        : Bool
  modified       : Bool
  pr             : Bool
  enclaveAddress : Word
  blocked        : Bool
  deriving DecidableEq, Repr, Inhabited

/-- The entry of an EPC page that nothing lists: not valid, every field zero. DESIGN CHOICE (log 7). -/
def EpcmEntry.free : EpcmEntry :=
  { valid := false, pt := 0, rwx := 0, pending := false, modified := false, pr := false,
    enclaveAddress := 0, blocked := false }

/-- The locks other logical processors hold on one EPC page (10_state.md R41, 20_memory.md R80). -/
structure PageLock where
  exclusive : Bool
  shared    : Nat
  deriving DecidableEq, Repr, Inhabited

/-- The lock record of a page nobody holds. -/
def PageLock.unheld : PageLock := { exclusive := false, shared := 0 }

/-- An access kind of the translation (20_memory.md R66). -/
inductive Access where
  | read
  | write
  deriving DecidableEq, Repr, Inhabited

/-- One page of the translation `phys` (20_memory.md R66): a linear page and, for each access kind, the
physical frame paging gives it; none is a page fault. -/
structure PageEntry where
  page       : FrameNo
  readFrame  : Option FrameNo
  writeFrame : Option FrameNo
  deriving DecidableEq, Repr, Inhabited

/-- The physical addresses of an EPC operand, for reading and for writing (20_memory.md R71). -/
structure EpcAddress where
  read  : Word
  write : Word
  deriving DecidableEq, Repr, Inhabited

/-- A recorded terminal outcome of a step (60_exceptions.md R177, R185): `#GP(0)`, `#PF` with the
faulting linear address and the error code, or the VM exit whose fields stand in the VMCS. -/
inductive Event where
  | gp
  | pf (address : Word) (errorCode : Word)
  | vmExit
  deriving DecidableEq, Repr, Inhabited

/-- A byte another agent writes to regular memory during a step; it lands just before the access of
row `row` of 20_memory.md R62 (R79, R84). -/
structure OtherWrite where
  row  : Nat
  addr : Word
  byte : Byte
  deriving DecidableEq, Repr, Inhabited

/-- What other agents do between two steps (60_exceptions.md R187): write regular memory, and, as other
logical processors executing SGX instructions, change EPC contents, EPCM entries and lock records. -/
inductive AgentAction where
  | writeRegular (addr : Word) (byte : Byte)
  | writeEpc (addr : Word) (byte : Byte)
  | setEpcm (frame : FrameNo) (entry : EpcmEntry)
  | setLock (frame : FrameNo) (lock : PageLock)
  deriving DecidableEq, Repr, Inhabited

/-- The input of one execution of a leaf: the three conflict draws (20_memory.md R83), the error code a
`#PF` reports (60_exceptions.md R172), the writes of other agents during the step (20_memory.md R84) and
their actions between this step and the next (60_exceptions.md R187). -/
structure StepInput where
  conflictEpc  : Bool
  conflictVa   : Bool
  conflictSecs : Bool
  pfErrorCode  : Word
  during       : List OtherWrite
  after        : List AgentAction
  deriving DecidableEq, Repr, Inhabited

end Sys2Proof.Machine
end

