-- ==== Sys2Proof/Config.lean ====
section
/-! DEFINITION. The parameters of 00_scope.md R7. Those that are plain data form `Config`, which State holds, so that a statement about every state holds for every value of them; the free values are opaque constants without a body. -/

namespace Sys2Proof

open Machine

/-- The two readings of the version check before commit (40_eld_leaves.md R138, 90 C6). -/
inductive VaCommit where
  | literal
  | freeSlot
  deriving DecidableEq, Repr, Inhabited

/-- The layouts of the memory structures, as byte offsets and, for FLAGS, bit positions (20_memory.md
R72 to R76). The bound of each `Fin` keeps the field inside its structure. -/
structure Layout where
  /-- PAGEINFO_OFF, 32 bytes: four 8-byte fields (R72). -/
  pageinfoLinaddr : Fin 25
  pageinfoSrcpge  : Fin 25
  pageinfoSecinfo : Fin 25
  pageinfoSecs    : Fin 25
  /-- PCMD_OFF, 128 bytes: SECINFO of 64, RSVD of 40, MAC of 16 bytes (R73). -/
  pcmdSecinfo : Fin 65
  pcmdRsvd    : Fin 89
  pcmdMac     : Fin 113
  /-- SECINFO_FLAGS_BITS: the byte offset of FLAGS in the SECINFO and its bits (R74). -/
  secinfoFlags : Fin 57
  flagR        : Fin 64
  flagW        : Fin 64
  flagX        : Fin 64
  flagPending  : Fin 64
  flagModified : Fin 64
  flagPr       : Fin 64
  flagPt       : Fin 57
  /-- SECS_OFF, 4096 bytes: two 8-byte fields (R75). -/
  secsEid            : Fin 4089
  secsEnclaveContext : Fin 4089
  /-- MACHEADER_LAYOUT, 128 bytes (R76). -/
  headerEid     : Fin 121
  headerSecinfo : Fin 65
  headerRsvd    : Fin 89
  headerLinaddr : Fin 121
  deriving DecidableEq, Repr

/-- The parameters of 00_scope.md R7 that are plain data. -/
structure Config where
  hasSgx1       : Bool
  hasEldbcElduc : Bool
  enclsEnabled  : Bool
  macCompareFail  : Word
  epcPageConflict : Word
  ptSecs : BitVec 8
  ptTcs  : BitVec 8
  ptReg  : BitVec 8
  ptVa   : BitVec 8
  ptTrim : BitVec 8
  sgxConflict       : Word
  conflictException : Word
  conflictError     : Word
  /-- The packing of the VMCS exit qualification: where `code` and `error` stand in it (92 D29). -/
  qualCode  : BitField
  qualError : BitField
  layout     : Layout
  enclsBytes : List Byte
  vaCommit   : VaCommit
  unknownLeafGp        : Bool
  checkSecsEpcm        : Bool
  checkSecinfoReserved : Bool
  deriving DecidableEq, Repr

/-- The layouts the spec suggests: PAGEINFO, PCMD and FLAGS of 20_memory.md R72 to R74, PRESUMED (the
spec marks them general knowledge, K4 to K6); SECS_OFF and MACHEADER_LAYOUT, for which it suggests none,
at the test convention of 95 (D31, D32), DESIGN CHOICE. Log 12. -/
def Layout.suggested : Layout :=
  { pageinfoLinaddr := 0, pageinfoSrcpge := 8, pageinfoSecinfo := 16, pageinfoSecs := 24
    pcmdSecinfo := 0, pcmdRsvd := 72, pcmdMac := 112
    secinfoFlags := 0, flagR := 0, flagW := 1, flagX := 2, flagPending := 3, flagModified := 4
    flagPr := 5, flagPt := 8
    secsEid := 4080, secsEnclaveContext := 4088
    headerEid := 0, headerSecinfo := 8, headerRsvd := 72, headerLinaddr := 112 }

/-- The values 00_scope.md R7 decides or suggests. The numbers are PRESUMED (general knowledge, K1 to
K3, K8); the two qualification codes and the packing of the exit qualification, for which it suggests
none, are placeholders, DESIGN CHOICE. Log 12. -/
def Config.suggested : Config :=
  { hasSgx1 := true, hasEldbcElduc := true, enclsEnabled := true
    macCompareFail := 9, epcPageConflict := 7
    ptSecs := 0, ptTcs := 1, ptReg := 2, ptVa := 3, ptTrim := 4
    sgxConflict := 71, conflictException := 0, conflictError := 1
    qualCode := { pos := 0, width := 32 }, qualError := { pos := 32, width := 32 }
    layout := Layout.suggested
    enclsBytes := [0x0F, 0x01, 0xCF]
    vaCommit := .literal
    unknownLeafGp := false, checkSecsEpcm := false, checkSecinfoReserved := false }

/-- The type of AES_GCM_DEC: key, counter, additional authenticated data and its length in bytes, data
and its length in bytes, to plain text and MAC (40_eld_leaves.md R136). -/
abbrev AesGcmDec :=
  BitVec 128 → BitVec 128 → Vector Byte 128 → Nat → Vector Byte 4096 → Nat →
    Vector Byte 4096 × BitVec 128

/-- AES_GCM_DEC, uninterpreted: nothing is assumed of it but that its outputs depend on its six
arguments (40_eld_leaves.md R136, 00_scope.md R7). A free value, log 15. -/
opaque Config.aesGcmDec : AesGcmDec

/-- The input of an execution for which no input is listed: free, one per value of the counter
(20_memory.md R83, R84, 60_exceptions.md R172). A free value, log 13. -/
opaque Config.freeInput : Nat → StepInput

end Sys2Proof
end

