-- ==== Sys2Proof/WellFormed.lean ====
section
/-! DEFINITION. Well-formedness: of an instruction (nothing to check: it has no operand field) and of the parameters (the constraints 93 U13 lists). -/

namespace Sys2Proof

/-- An instruction has no operand field, so every one is well formed (30_encoding.md R91, R95). -/
def Instr.wellFormed : Instr → Bool
  | .eldb => true
  | .eldu => true
  | .eldbc => true
  | .elduc => true

/-- Two byte ranges, each an offset and a length, have no byte in common. -/
def disjointRanges (o n o' n' : Nat) : Bool := o + n ≤ o' || o' + n' ≤ o

/-- The two error codes are non-zero and distinct (00_scope.md R7, 92 D27). -/
def Config.codesOk (c : Config) : Bool :=
  c.macCompareFail != 0 && c.epcPageConflict != 0 && c.macCompareFail != c.epcPageConflict

/-- The five page types are pairwise distinct (00_scope.md R7, 92 D28). -/
def Config.pageTypesOk (c : Config) : Bool :=
  decide [c.ptSecs, c.ptTcs, c.ptReg, c.ptVa, c.ptTrim].Nodup

/-- The two exit-qualification codes are distinct (00_scope.md R7, 92 D29). -/
def Config.qualificationsOk (c : Config) : Bool :=
  c.conflictException != c.conflictError

/-- A value fits in a sub-field of a 64-bit register. -/
def fieldHolds (f : Machine.BitField) (v : Word) : Bool :=
  decide (f.pos + f.width ≤ 64) && decide (v.toNat < 2 ^ f.width)

/-- The packing of the exit qualification loses nothing: `code` and `error` lie apart in its 64 bits, and
the values a VM exit writes to them fit (60_exceptions.md R177, 92 D29, 93 U13). -/
def Config.packingOk (c : Config) : Bool :=
  disjointRanges c.qualCode.pos c.qualCode.width c.qualError.pos c.qualError.width &&
  fieldHolds c.qualCode c.conflictException && fieldHolds c.qualCode c.conflictError &&
  fieldHolds c.qualError c.epcPageConflict

/-- SECINFO and RSVD lie apart from MAC in the PCMD (20_memory.md R73). -/
def Layout.pcmdOk (l : Layout) : Bool :=
  disjointRanges l.pcmdSecinfo 64 l.pcmdMac 16 && disjointRanges l.pcmdRsvd 40 l.pcmdMac 16

/-- The four fields of the MACHEADER lie apart, so that the 128 bytes are an injective function of them
(20_memory.md R76, 93 U13). -/
def Layout.headerOk (l : Layout) : Bool :=
  disjointRanges l.headerEid 8 l.headerSecinfo 64 && disjointRanges l.headerEid 8 l.headerRsvd 40 &&
  disjointRanges l.headerEid 8 l.headerLinaddr 8 &&
  disjointRanges l.headerSecinfo 64 l.headerRsvd 40 &&
  disjointRanges l.headerSecinfo 64 l.headerLinaddr 8 &&
  disjointRanges l.headerRsvd 40 l.headerLinaddr 8

/-- ENCLS_BYTES is not empty, so that RIP advances (00_scope.md R7, 30_encoding.md R90). -/
def Config.enclsOk (c : Config) : Bool := !c.enclsBytes.isEmpty

/-- Every constraint the rules need of the parameters (93 U13). -/
def Config.wellFormed (c : Config) : Bool :=
  c.codesOk && c.pageTypesOk && c.qualificationsOk && c.packingOk && c.layout.pcmdOk && c.layout.headerOk && c.enclsOk

end Sys2Proof
end

