-- ==== Sys2Proof/Decode.lean ====
section
/-! DEFINITION. Decoding: the bytes of `ENCLS` in instruction memory, then the leaf from EAX (30_encoding.md R90 to R93, R99); and the encoder. -/

namespace Sys2Proof

/-- Why bytes and an EAX decode to no instruction. -/
inductive DecodeError where
  /-- The bytes do not begin with ENCLS_BYTES: another instruction, or a prefixed form (30_encoding.md R99). -/
  | notEncls
  /-- EAX names none of the four leaves (30_encoding.md R96). -/
  | unknownLeaf (eax : BitVec 32)
  deriving DecidableEq, Repr

/-- The leaf table of 30_encoding.md R93: the comparison is on all 32 bits of EAX (R92). -/
def leafOf (eax : BitVec 32) : Option Instr :=
  if eax = 0x07 then some .eldb
  else if eax = 0x08 then some .eldu
  else if eax = 0x12 then some .eldbc
  else if eax = 0x13 then some .elduc
  else none

/-- The decoder. `enclsBytes` is the parameter ENCLS_BYTES, `bytes` the instruction memory from RIP on,
`eax` the register at that moment; the answer is the leaf and the bytes after the instruction. -/
def decode (enclsBytes bytes : List Byte) (eax : BitVec 32) : Except DecodeError (Instr × List Byte) :=
  if enclsBytes.isPrefixOf bytes then
    match leafOf eax with
    | some i => .ok (i, bytes.drop enclsBytes.length)
    | none => .error (.unknownLeaf eax)
  else .error .notEncls

/-- The encoder: the value of EAX that selects the leaf, written from the opcode table (30_encoding.md
R93). The instruction's bytes are ENCLS_BYTES for every leaf (R90). -/
def encode : Instr → BitVec 32
  | .eldb => 0x07
  | .eldu => 0x08
  | .eldbc => 0x12
  | .elduc => 0x13

/-- IsBase (30_encoding.md R94): a lock conflict is `#GP(0)`. -/
def Instr.isBase : Instr → Bool
  | .eldb => true
  | .eldu => true
  | .eldbc => false
  | .elduc => false

/-- IsBlocking (30_encoding.md R94): the loaded page is marked blocked. -/
def Instr.isBlocking : Instr → Bool
  | .eldb => true
  | .eldu => false
  | .eldbc => true
  | .elduc => false

/-- The selector the opcode table's bits stand for: its match and mask apply to EAX (30_encoding.md
R92), and EAX has 32 bits. -/
def tableSelector (nbits w : Nat) : BitVec 32 := BitVec.ofNat 32 (w % 2 ^ nbits)

/-- The instruction the decoder reads from a row's bits: ENCLS_BYTES in instruction memory, the bits in
EAX. -/
def decodeTableWord (nbits w : Nat) : Option Instr :=
  match decode Config.suggested.enclsBytes Config.suggested.enclsBytes (tableSelector nbits w) with
  | .ok (i, _) => some i
  | .error _ => none

end Sys2Proof
end

