-- ==== Sys2Proof/Machine/Bits.lean ====
section
/-! DEFINITION. Byte order, alignment, the canonical test and slices of byte strings (00_scope.md R8, 20_memory.md R61, R64, R69), and sub-fields of a register. -/

namespace Sys2Proof.Machine

/-- `le_N(bytes)`: the unsigned value of a byte string, least significant byte first (20_memory.md R61, 92 D1). -/
def leNat : List Byte → Nat
  | [] => 0
  | b :: bs => b.toNat + 256 * leNat bs

/-- `n` bytes of a value, least significant byte first. -/
def leBytes : Nat → Nat → List Byte
  | 0, _ => []
  | n + 1, v => BitVec.ofNat 8 v :: leBytes n (v / 256)

/-- `le_64` of a byte string. -/
def leWord (bs : List Byte) : Word := BitVec.ofNat 64 (leNat bs)

/-- `le_128` of a byte string. -/
def leMac (bs : List Byte) : BitVec 128 := BitVec.ofNat 128 (leNat bs)

/-- The eight bytes of a 64-bit value. -/
def wordBytes (w : Word) : List Byte := leBytes 8 w.toNat

/-- The low `k` bits of an address are 0 (20_memory.md R69). -/
def alignedTo (k : Nat) (a : Word) : Bool := a.toNat % 2 ^ k == 0

/-- The canonical test: bits 63 to 47 are all zeros or all ones (20_memory.md R64, K12). -/
def canonical (a : Word) : Bool :=
  a.extractLsb' 47 17 == 0 || a.extractLsb' 47 17 == BitVec.allOnes 17

/-- The page number of an address. -/
def pageNo (a : Word) : FrameNo := a.extractLsb' 12 52

/-- `page(L)`, the 4096-byte-aligned base of the page holding an address (00_scope.md R9). -/
def pageBase (a : Word) : Word := a &&& ~~~(0xFFF : Word)

/-- The bits of a sub-field, in place. -/
def BitField.mask (f : BitField) : Word := (BitVec.allOnes f.width).setWidth 64 <<< f.pos

/-- What a sub-field holds. -/
def BitField.get (f : BitField) (w : Word) : Word := (w &&& f.mask) >>> f.pos

/-- An assignment to a sub-field: the register's other bits stay. -/
def BitField.put (f : BitField) (w v : Word) : Word := (w &&& ~~~f.mask) ||| (v <<< f.pos &&& f.mask)

/-- `n` bytes of a byte string from offset `o`. -/
def slice (bs : List Byte) (o n : Nat) : List Byte := (bs.drop o).take n

end Sys2Proof.Machine
end

