-- ==== Sys2Proof/Machine/Header.lean ====
section
/-! DEFINITION. The MACHEADER, SECINFO.FLAGS and the page types (20_memory.md R73, R74, R76, 40_eld_leaves.md R127, R140). -/

namespace Sys2Proof.Machine

/-- TMP_HEADER (20_memory.md R76): the record whose 128 bytes are authenticated. -/
structure MacHeader where
  secinfo : List Byte
  rsvd    : List Byte
  linaddr : Word
  eid     : Word
  deriving DecidableEq, Repr

/-- The byte at offset `i` of a field that stands at offset `o` with bytes `bs`, if it covers `i`. -/
def fieldByte (o : Nat) (bs : List Byte) (i : Nat) : Option Byte :=
  if o ≤ i then bs[i - o]? else none

/-- The byte of the MACHEADER at an offset: of one of its four fields, else 0 (20_memory.md R76). -/
def MacHeader.byteAt (h : MacHeader) (l : Layout) (i : Nat) : Byte :=
  ((fieldByte l.headerEid (wordBytes h.eid) i).or
    ((fieldByte l.headerSecinfo h.secinfo i).or
      ((fieldByte l.headerRsvd h.rsvd i).or
        (fieldByte l.headerLinaddr (wordBytes h.linaddr) i)))).getD 0

/-- The 128 bytes of the MACHEADER under MACHEADER_LAYOUT. -/
def MacHeader.bytes (h : MacHeader) (l : Layout) : Vector Byte 128 :=
  ⟨⟨(List.range 128).map (h.byteAt l)⟩, by simp⟩

/-- SECINFO.FLAGS, a 64-bit little-endian value (20_memory.md R74). -/
def MacHeader.flags (h : MacHeader) (l : Layout) : Word := leWord (slice h.secinfo l.secinfoFlags 8)

/-- FLAGS.PT, the page type (20_memory.md R74, 40_eld_leaves.md R127). -/
def flagsPt (l : Layout) (f : Word) : BitVec 8 := f.extractLsb' l.flagPt 8

/-- FLAGS.RWX: X bit 2, W bit 1, R bit 0 (20_memory.md R74). -/
def flagsRwx (l : Layout) (f : Word) : BitVec 3 :=
  BitVec.ofBool (f.getLsbD l.flagX) ++ BitVec.ofBool (f.getLsbD l.flagW) ++
    BitVec.ofBool (f.getLsbD l.flagR)

/-- The FLAGS bits no field covers (20_memory.md R74). -/
def flagsReserved (l : Layout) (f : Word) : Word :=
  f &&& ~~~(BitVec.ofNat 64 (2 ^ l.flagR.val) ||| BitVec.ofNat 64 (2 ^ l.flagW.val) |||
    BitVec.ofNat 64 (2 ^ l.flagX.val) ||| BitVec.ofNat 64 (2 ^ l.flagPending.val) |||
    BitVec.ofNat 64 (2 ^ l.flagModified.val) ||| BitVec.ofNat 64 (2 ^ l.flagPr.val) |||
    BitVec.ofNat 64 (255 * 2 ^ l.flagPt.val))

/-- The page has a parent SECS: PT_REG, PT_TCS or PT_TRIM (40_eld_leaves.md R127). -/
def hasParent (c : Config) (pt : BitVec 8) : Bool := pt == c.ptReg || pt == c.ptTcs || pt == c.ptTrim

/-- The page type is one of the five names (40_eld_leaves.md R127). -/
def namedType (c : Config) (pt : BitVec 8) : Bool := hasParent c pt || pt == c.ptSecs || pt == c.ptVa

/-- The BLOCKED rule: set by a blocking leaf, unless the page is a SECS or a version array
(40_eld_leaves.md R140). -/
def blockedBit (c : Config) (i : Instr) (pt : BitVec 8) : Bool :=
  i.isBlocking && pt != c.ptSecs && pt != c.ptVa

/-- The EPCM entry a successful load commits (40_eld_leaves.md R139, R140, R142). -/
def MacHeader.entry (h : MacHeader) (c : Config) (i : Instr) : EpcmEntry :=
  let f := h.flags c.layout
  { valid := true
    pt := flagsPt c.layout f
    rwx := flagsRwx c.layout f
    pending := f.getLsbD c.layout.flagPending
    modified := f.getLsbD c.layout.flagModified
    pr := f.getLsbD c.layout.flagPr
    enclaveAddress := h.linaddr
    blocked := blockedBit c i (flagsPt c.layout f) }

/-- The page type of a header. -/
def MacHeader.pt (h : MacHeader) (l : Layout) : BitVec 8 := flagsPt l (h.flags l)

/-- The contents the switch CHECK_SECINFO_RESERVED tests (93 U3): no reserved FLAGS bit, no other
SECINFO byte and no RSVD byte set, a named page type, and LINADDR 4-KByte aligned. DEDUCED (log 18). -/
def MacHeader.reservedClear (h : MacHeader) (c : Config) : Bool :=
  let f := h.flags c.layout
  let others := h.secinfo.take c.layout.secinfoFlags ++ h.secinfo.drop (c.layout.secinfoFlags + 8)
  flagsReserved c.layout f == 0 && others.all (· == 0) && h.rsvd.all (· == 0) &&
    namedType c (flagsPt c.layout f) && alignedTo 12 h.linaddr

end Sys2Proof.Machine
end

