-- ==== Sys2Proof/Machine/Flags.lean ====
section
/-! DEFINITION. The flag computations: ZF reports failure, the five others are cleared (10_state.md R26, R27). -/

namespace Sys2Proof.Machine

/-- The flags of a completed execution: ZF as given, CF, PF, AF, OF and SF cleared (40_eld_leaves.md
R143), every other bit kept (10_state.md R26). -/
def Rflags.completed (f : Rflags) (zf : Bool) : Rflags :=
  { zf := zf, cf := false, pf := false, af := false, of := false, sf := false, other := f.other }

/-- The flag `b` as a register image with that one bit at position `k`. -/
def flagAt (b : Bool) (k : Nat) : Word := if b then BitVec.ofNat 64 (2 ^ k) else 0

/-- The RFLAGS image at the bit positions of K9: CF 0, PF 2, AF 4, ZF 6, SF 7, OF 11. PRESUMED (log 3);
no meaning uses it. -/
def Rflags.image (f : Rflags) : Word :=
  f.other ||| flagAt f.cf 0 ||| flagAt f.pf 2 ||| flagAt f.af 4 ||| flagAt f.zf 6 ||| flagAt f.sf 7 |||
    flagAt f.of 11

end Sys2Proof.Machine
end

