-- ==== Sys2Proof/Machine/Memory.lean ====
section
/-! DEFINITION. Sparse maps in one canonical form: pairs of a key and a value, keys strictly rising, no value equal to what an unlisted key reads as. Memory is one of bytes by physical address; the EPCM and the lock record are others. -/

namespace Sys2Proof.Machine

/-- The value at a key. -/
def Sparse.get {β : Type} (dflt : β) (k : Nat) : List (Nat × β) → β
  | [] => dflt
  | c :: m => if c.1 = k then c.2 else if k < c.1 then dflt else Sparse.get dflt k m

/-- The pairs that list consecutive values from a key on, less those the default stands for. -/
def Sparse.cells {β : Type} [DecidableEq β] (dflt : β) : Nat → List β → List (Nat × β)
  | _, [] => []
  | k, v :: vs => if v = dflt then Sparse.cells dflt (k + 1) vs else (k, v) :: Sparse.cells dflt (k + 1) vs

/-- Writes consecutive values from a key on. -/
def Sparse.put {β : Type} [DecidableEq β] (dflt : β) (k : Nat) (vs : List β) (m : List (Nat × β)) :
    List (Nat × β) :=
  m.takeWhile (fun c => decide (c.1 < k)) ++
    (Sparse.cells dflt k vs ++ m.dropWhile (fun c => decide (c.1 < k + vs.length)))

/-- The values at `n` consecutive keys, in one pass over the list. -/
def Sparse.run {β : Type} (dflt : β) : Nat → Nat → List (Nat × β) → List β
  | 0, _, _ => []
  | n + 1, k, m =>
    let rest := m.dropWhile (fun c => decide (c.1 < k))
    Sparse.get dflt k rest :: Sparse.run dflt n (k + 1) rest

/-- The canonical form from a least key on. -/
def Sparse.wfFrom {β : Type} [DecidableEq β] (dflt : β) : Nat → List (Nat × β) → Bool
  | _, [] => true
  | lo, c :: m => decide (lo ≤ c.1) && decide (c.2 ≠ dflt) && Sparse.wfFrom dflt (c.1 + 1) m

/-- What an address of memory that nothing lists reads as. DESIGN CHOICE, unsafe (log 9). -/
def Memory.unlisted : Byte := 0

/-- The canonical form of a memory. -/
def Memory.wf (m : List Host.Cell) : Bool := Sparse.wfFrom Memory.unlisted 0 m

/-- The byte at a physical address. -/
def Memory.byte (m : List Host.Cell) (a : Nat) : Byte := Sparse.get Memory.unlisted a m

/-- The `n` bytes from a physical address on, as a byte string (20_memory.md R61). -/
def Memory.read (m : List Host.Cell) (a n : Nat) : List Byte := Sparse.run Memory.unlisted n a m

/-- Writes a byte string from a physical address on. -/
def Memory.write (m : List Host.Cell) (a : Nat) (bs : List Byte) : List Host.Cell :=
  Sparse.put Memory.unlisted a bs m

end Sys2Proof.Machine
end

