-- ==== Sys2Proof/Machine/State.lean ====
section
/-! DEFINITION. The state of the machine, plain data, the state a run is launched in, and the reasons a step can stop (10_state.md R20 to R43, 70_reset_and_hazards.md R210). -/

namespace Sys2Proof.Machine

/-- Why the machine stops with a fault. -/
inductive Fault where
  /-- Raised by `step` at a state that records a terminal outcome: `#GP(0)`, `#PF` or a VM exit ends the
  run, the record is never cleared, and no handler or monitor step exists (60_exceptions.md R177, R185,
  93 U14). Safe: the hardware goes on in a handler or monitor the spec does not describe. -/
  | terminated (e : Event)
  deriving DecidableEq, Repr

/-- Why the model gives a step no meaning. -/
inductive Refusal where
  /-- Raised by `exec` for an instruction with no meaning yet. Safe. -/
  | notModelled (mnemonic : String)
  /-- Raised by `exec` and `step`: a launch in real-address or virtual-8086 mode is refused (93 U10, 92
  D7). Safe. -/
  | unsupportedMode
  /-- Raised by `exec` and `step`: a launch with an expand-down DS outside 64-bit mode is refused (93
  U10, 92 D7). Safe. -/
  | expandDownDs
  /-- Raised by `exec` and `step`: a launch with EnclsEnabled false is refused (30_encoding.md R98). Safe. -/
  | enclsNotEnabled
  /-- Raised by `exec`: a leaf whose feature parameter is false is refused, with UNKNOWN_LEAF_GP false
  (30_encoding.md R97). Safe. -/
  | featureAbsent
  /-- Raised by `step`: an EAX that names none of the four leaves is refused, with UNKNOWN_LEAF_GP false
  (30_encoding.md R96). Safe. -/
  | unknownLeaf (eax : BitVec 32)
  /-- Raised by `step`: the bytes at RIP are not ENCLS_BYTES (30_encoding.md R99). Safe. -/
  | notEncls
  /-- Raised by `step`: the instruction cannot be fetched, since paging gives an address of it no
  readable translation or one inside the EPC; the faults of the fetch are out of scope (20_memory.md
  R70). Safe. -/
  | fetch (address : Word)
  /-- Raised by `exec`: PAGEINFO, the PCMD or the source page translates into the EPC (40_eld_leaves.md
  R148, 92 D19). Safe. -/
  | regularOperandInEpc (address : Word)
  deriving DecidableEq, Repr

/-- The machine. INVENTORY.md, under State, names the rule of each field. -/
structure State where
  rax : Word
  rbx : Word
  rcx : Word
  rdx : Word
  rip : Word
  rflags : Rflags
  ds : DsSegment
  cpl : BitVec 2
  mode : Mode
  vmxNonRoot : Bool
  epcVirtExt : Bool
  vmcs : Vmcs
  /-- The EPCM: an entry by frame number (10_state.md R33); a sparse map over `EpcmEntry.free`. -/
  epcm : List (Nat × EpcmEntry)
  crBasePk : BitVec 128
  /-- The bytes of the physical address space, regular memory and EPC pages alike (20_memory.md R60). -/
  mem : List Host.Cell
  /-- The locks other logical processors hold, by frame number (10_state.md R41); a sparse map over
  `PageLock.unheld`. -/
  locks : List (Nat × PageLock)
  /-- The parameter `EPC`: the frames of the EPC (20_memory.md R67, R88). -/
  epcFrames : List FrameNo
  /-- The parameter `phys`: the first entry of a page counts (20_memory.md R66). -/
  pageMap : List PageEntry
  /-- The recorded terminal outcome, if any (60_exceptions.md R185). -/
  event : Option Event
  /-- The parameters of 00_scope.md R7, constant in a run. -/
  cfg : Config
  /-- The model's own: the inputs of the coming executions, the next one first. -/
  inputs : List StepInput
  /-- The model's own: how many executions have taken an input. -/
  drawIndex : Nat
  /-- The model's own: what other agents do before the next step begins. -/
  pending : List AgentAction
  deriving DecidableEq, Repr

/-- The launch state a run starts from: the spec gives no reset value and starts a run from a launch
state (10_state.md R43, 70_reset_and_hazards.md R210). Its values are the model's (log 1 to 13). -/
def State.reset : State :=
  { rax := 0, rbx := 0, rcx := 0, rdx := 0, rip := 0
    rflags := { zf := false, cf := false, pf := false, af := false, of := false, sf := false, other := 2 }
    ds := { base := 0, limit := 0xFFFFFFFF, usable := true, expandDown := false }
    cpl := 0
    mode := .mode64
    vmxNonRoot := false
    epcVirtExt := false
    vmcs := { exitReason := 0, exitQualification := 0, guestPhysical := 0, guestLinear := 0, guestRip := 0 }
    epcm := []
    crBasePk := 0
    mem := []
    locks := []
    epcFrames := []
    pageMap := []
    event := none
    cfg := Config.suggested
    inputs := []
    drawIndex := 0
    pending := [] }

end Sys2Proof.Machine
end

