-- ==== Sys2Proof/Machine/Ops.lean ====
section
/-! DEFINITION. The shared operations: translation, the accesses to memory, the EPCM and the locks, inputs, the ways an execution ends, fetching. -/

namespace Sys2Proof.Machine

/-! ### How an execution stops -/

/-- Why an execution stops before its success path ends. -/
inductive Stop where
  /-- `#GP(0)` (60_exceptions.md R171). -/
  | gp
  /-- `#PF` with its faulting linear address and error code (60_exceptions.md R172). -/
  | pf (address : Word) (errorCode : Word)
  /-- The VM exit with the fields it writes (60_exceptions.md R177). -/
  | vmExit (fields : Vmcs)
  /-- An error code in RAX with ZF = 1 (40_eld_leaves.md R110). -/
  | code (c : Word)
  /-- The model gives the step no meaning. -/
  | refuse (r : Refusal)
  deriving DecidableEq, Repr

/-- A test of the flow: goes on when it holds, else stops. -/
def require (c : Bool) (k : Stop) : Except Stop Unit := if c then .ok () else .error k

/-- An answer that may be absent: goes on with it, else stops. -/
def orStop {α : Type} (x : Option α) (k : Stop) : Except Stop α :=
  match x with
  | some a => .ok a
  | none => .error k

/-! ### Registers and inputs -/

/-- EAX is RAX[31:0] (10_state.md R20). -/
def State.eax (s : State) : BitVec 32 := s.rax.extractLsb' 0 32

/-- The input of the coming execution: the first one listed, or a free one (log 13). -/
def State.input (s : State) : StepInput :=
  match s.inputs with
  | d :: _ => d
  | [] => Config.freeInput s.drawIndex

/-- The stop `#PF` for a linear address: the error code is a draw (60_exceptions.md R172). -/
def State.pageFault (s : State) (a : Word) : Stop := .pf a s.input.pfErrorCode

/-! ### Physical memory and the EPC -/

/-- The physical address lies in a frame of the EPC (20_memory.md R67). -/
def State.inEpc (s : State) (p : Word) : Bool := s.epcFrames.contains (pageNo p)

/-- The frame paging gives a page for an access kind (20_memory.md R66). -/
def PageEntry.frame (e : PageEntry) : Access → Option FrameNo
  | .read => e.readFrame
  | .write => e.writeFrame

/-- The translation `phys` (20_memory.md R66): a function of the linear address and the access kind, by
whole pages; none is a page fault. -/
def State.translate (s : State) (a : Word) (k : Access) : Option Word :=
  match s.pageMap.find? (fun e => e.page == pageNo a) with
  | none => none
  | some e => (e.frame k).map (fun f => f ++ a.extractLsb' 0 12)

/-- The residence test of an EPC operand: paging answers for reading and for writing, and each physical
address lies in the EPC (20_memory.md R67, R71). -/
def State.resolveEpc (s : State) (a : Word) : Option EpcAddress :=
  match s.translate a .read, s.translate a .write with
  | some r, some w => if s.inEpc r && s.inEpc w then some { read := r, write := w } else none
  | _, _ => none

/-- Memory with a list of other agents' writes to regular memory applied; a write into the EPC has no
effect (20_memory.md R84, 60_exceptions.md R187). -/
def State.withOthers (s : State) (ws : List OtherWrite) : List Host.Cell :=
  ws.foldl (fun m w => if s.inEpc w.addr then m else Memory.write m w.addr.toNat [w.byte]) s.mem

/-- The writes that land before the access of row `row`, in the order they land. -/
def writesUpTo (ws : List OtherWrite) : Nat → List OtherWrite
  | 0 => ws.filter (fun w => w.row == 0)
  | r + 1 => writesUpTo ws r ++ ws.filter (fun w => w.row == r + 1)

/-- Memory as the access of row `row` of 20_memory.md R62 sees it. -/
def State.seenAt (s : State) (row : Nat) : List Host.Cell :=
  s.withOthers (writesUpTo s.input.during row)

/-- Memory with every write other agents make during this execution: R62 has fourteen rows, and what
is tagged with a later row lands after them. -/
def State.landed (s : State) : List Host.Cell :=
  s.withOthers (writesUpTo s.input.during 14 ++ s.input.during.filter (fun w => decide (14 < w.row)))

/-- A read of regular memory: row `row` of 20_memory.md R62, `n` bytes from a linear address. A page
fault names the lowest address of the access (60_exceptions.md R172); an address inside the EPC is
refused (40_eld_leaves.md R148). -/
def State.readRegular (s : State) (row : Nat) (a : Word) (n : Nat) : Except Stop (List Byte) :=
  match s.translate a .read with
  | none => .error (s.pageFault a)
  | some p =>
    if s.inEpc p then .error (.refuse (.regularOperandInEpc a))
    else .ok (Memory.read (s.seenAt row) p.toNat n)

/-- A 64-bit read of regular memory, little-endian (20_memory.md R61). -/
def State.readRegularWord (s : State) (row : Nat) (a : Word) : Except Stop Word :=
  match s.readRegular row a 8 with
  | .error k => .error k
  | .ok bs => .ok (leWord bs)

/-! ### The EPCM and the locks -/

/-- The number of the frame a physical address lies in. -/
def frameOf (p : Word) : Nat := (pageNo p).toNat

/-- The EPCM entry of the page a physical address lies in (10_state.md R33). -/
def State.epcmAt (s : State) (p : Word) : EpcmEntry := Sparse.get EpcmEntry.free (frameOf p) s.epcm

/-- The locks others hold on the page a physical address lies in (10_state.md R41). -/
def State.lockAt (s : State) (p : Word) : PageLock := Sparse.get PageLock.unheld (frameOf p) s.locks

/-- An Exclusive acquisition conflicts with any other holder (20_memory.md R80). -/
def PageLock.blocksExclusive (l : PageLock) : Bool := l.exclusive || decide (0 < l.shared)

/-- A Shared acquisition conflicts with an Exclusive holder only (20_memory.md R80). -/
def PageLock.blocksShared (l : PageLock) : Bool := l.exclusive

/-- Conflict_EPC: the target page cannot be had Exclusive (20_memory.md R81, R83). -/
def State.targetConflict (s : State) (p : Word) : Bool :=
  s.input.conflictEpc || (s.lockAt p).blocksExclusive

/-- Conflict_VA: the VA page cannot be had Shared (20_memory.md R81, R83). -/
def State.vaConflict (s : State) (p : Word) : Bool :=
  s.input.conflictVa || (s.lockAt p).blocksShared

/-- Conflict_SECS: the SECS page cannot be had Shared (20_memory.md R81, R83). -/
def State.secsConflict (s : State) (p : Word) : Bool :=
  s.input.conflictSecs || (s.lockAt p).blocksShared

/-! ### The ways an execution ends -/

/-- The state an execution leaves apart from its own effect: the input is used up, the writes of other
agents have landed, and what they do before the next step is pending. -/
def State.afterInput (s : State) : State :=
  { s with mem := s.landed, inputs := s.inputs.tail, drawIndex := s.drawIndex + 1,
           pending := s.input.after }

/-- The state with other contents of physical memory. -/
def State.withMem (s : State) (m : List Host.Cell) : State := { s with mem := m }

/-- Taking an exception: a recorded terminal outcome; RIP and everything else stay (60_exceptions.md
R173, R185). -/
def State.raise (s : State) (e : Event) : State := { s with event := some e }

/-- "Deliver VMEXIT": the VMCS fields, out of VMX non-root operation, and the recorded terminal outcome
(60_exceptions.md R177). -/
def State.exitVm (s : State) (fields : Vmcs) : State :=
  { s with vmcs := fields, vmxNonRoot := false, event := some .vmExit }

/-- Completion: RAX, the flags and RIP (40_eld_leaves.md R142 to R144). -/
def State.complete (s : State) (code : Word) (zf : Bool) : State :=
  { s with rax := code, rflags := s.rflags.completed zf,
           rip := s.rip + BitVec.ofNat 64 s.cfg.enclsBytes.length }

/-- The outcome of a stop, from the state it leaves. -/
def State.finish (s : State) : Stop → Host.Outcome State Fault Refusal
  | .gp => .next (s.raise .gp)
  | .pf a e => .next (s.raise (.pf a e))
  | .vmExit fields => .next (s.exitVm fields)
  | .code c => .next (s.complete c true)
  | .refuse r => .refused r

/-! ### The launch, and an `ENCLS` that names no leaf -/

/-- The launches the spec refuses (30_encoding.md R98, 93 U10). -/
def State.admitted (s : State) : Except Stop Unit :=
  if !s.cfg.enclsEnabled then .error (.refuse .enclsNotEnabled)
  else match s.mode with
    | .realAddress => .error (.refuse .unsupportedMode)
    | .virtual8086 => .error (.refuse .unsupportedMode)
    | .protectedMode => require (!s.ds.expandDown) (.refuse .expandDownDs)
    | .mode64 => .ok ()

/-- Entry: an admitted launch, then the privilege test, which comes before every other (60_exceptions.md
R182, 40_eld_leaves.md R116). -/
def State.enter (s : State) : Except Stop Unit :=
  match s.admitted with
  | .error k => .error k
  | .ok () => require (s.cpl == 0) .gp

/-- `ENCLS` with an EAX that names no leaf (30_encoding.md R96): refused, or `#GP(0)` with the switch
UNKNOWN_LEAF_GP. -/
def State.unlistedLeaf (s : State) (eax : BitVec 32) : Host.Outcome State Fault Refusal :=
  match s.enter with
  | .error k => s.afterInput.finish k
  | .ok () =>
    if s.cfg.unknownLeafGp then s.afterInput.finish .gp else .refused (.unknownLeaf eax)

/-- What `step` does where the decoder gives no instruction. -/
def State.undecoded (s : State) : DecodeError → Host.Outcome State Fault Refusal
  | .notEncls => .refused .notEncls
  | .unknownLeaf eax => s.unlistedLeaf eax

/-! ### Fetching, and placing an instruction where it is fetched -/

/-- The physical address an instruction byte is fetched from: readable, and in regular memory. The
spec gives the fetch no rule (20_memory.md R70); DESIGN CHOICE (log 14). -/
def State.fetchAddr (s : State) (a : Word) : Except Refusal Nat :=
  match s.translate a .read with
  | none => .error (.fetch a)
  | some p => if s.inEpc p then .error (.fetch a) else .ok p.toNat

/-- `n` instruction bytes from a linear address on. -/
def State.fetchFrom (s : State) : Nat → Word → Except Refusal (List Byte)
  | 0, _ => .ok []
  | n + 1, a =>
    match s.fetchAddr a with
    | .error r => .error r
    | .ok p =>
      match s.fetchFrom n (a + 1) with
      | .error r => .error r
      | .ok bs => .ok (Memory.byte s.mem p :: bs)

/-- The instruction bytes at RIP: as many as ENCLS_BYTES has (30_encoding.md R99). -/
def State.fetch (s : State) : Except Refusal (List Byte) := s.fetchFrom s.cfg.enclsBytes.length s.rip

/-- The least frame number that is not in the EPC. -/
def State.regularFrame (s : State) : FrameNo :=
  match (List.range (s.epcFrames.length + 1)).find? (fun k => !s.epcFrames.contains (BitVec.ofNat 52 k)) with
  | some k => BitVec.ofNat 52 k
  | none => 0

/-- One instruction byte stored where it is fetched from; a page that cannot be fetched from is first
mapped to a frame of regular memory. -/
def State.placeByte (s : State) (a : Word) (b : Byte) : State :=
  match s.fetchAddr a with
  | .ok p => { s with mem := Memory.write s.mem p [b] }
  | .error _ =>
    let e : PageEntry := { page := pageNo a, readFrame := s.regularFrame, writeFrame := s.regularFrame }
    { s with pageMap := e :: s.pageMap,
             mem := Memory.write s.mem (s.regularFrame ++ a.extractLsb' 0 12 : Word).toNat [b] }

/-- Instruction bytes stored from a linear address on. -/
def State.placeBytes (s : State) : Word → List Byte → State
  | _, [] => s
  | a, b :: bs => (s.placeByte a b).placeBytes (a + 1) bs

/-- `ENCLS` with a selector, placed so that the next step runs it: its bytes at RIP, the selector in
EAX, no terminal outcome recorded and no action of another agent before the fetch. -/
def State.placeLeaf (s : State) (selector : BitVec 32) : State :=
  { s.placeBytes s.rip s.cfg.enclsBytes with
      rax := s.rax.extractLsb' 32 32 ++ selector, event := none, pending := [] }

/-! ### What other agents do between two steps -/

/-- One action of another agent (60_exceptions.md R187). -/
def State.agentAct (s : State) : AgentAction → State
  | .writeRegular a b => if s.inEpc a then s else { s with mem := Memory.write s.mem a.toNat [b] }
  | .writeEpc a b => if s.inEpc a then { s with mem := Memory.write s.mem a.toNat [b] } else s
  | .setEpcm f e =>
    if s.epcFrames.contains f then { s with epcm := Sparse.put EpcmEntry.free f.toNat [e] s.epcm } else s
  | .setLock f l =>
    if s.epcFrames.contains f then { s with locks := Sparse.put PageLock.unheld f.toNat [l] s.locks } else s

/-- The state a step begins from: the pending actions of other agents are done, in order. -/
def State.acted (s : State) : State := { s.pending.foldl State.agentAct s with pending := [] }

end Sys2Proof.Machine
end

