-- ==== Sys2Proof/Machine/Operands.lean ====
section
/-! DEFINITION. The one operand form: an effective address in segment DS, from a register or from PAGEINFO (20_memory.md R64, R65, R69, R72). -/

namespace Sys2Proof.Machine

/-- `lin(DS, A)` for an operand of `size` bytes (20_memory.md R64, 92 D7): the canonical test in 64-bit
mode, the DS limit test over the whole structure otherwise. -/
def State.lin (s : State) (a : Word) (size : Nat) : Except Stop Word :=
  if s.mode = .mode64 then
    match require (canonical a) .gp with
    | .error k => .error k
    | .ok () => .ok a
  else
    let a32 : BitVec 32 := a.extractLsb' 0 32
    match require (s.ds.usable && decide (a32.toNat + size - 1 ≤ s.ds.limit.toNat)) .gp with
    | .error k => .error k
    | .ok () => .ok ((s.ds.base + a32).zeroExtend 64)

/-- The address of a field: a structure's linear address plus the field's offset (40_eld_leaves.md R145). -/
def fieldAddr (a : Word) (off : Nat) : Word := a + BitVec.ofNat 64 off

/-- The register operands: PAGEINFO, the target page and the VA slot. `pc` and `pd` are the physical
addresses of the two in the EPC for writing, `rc` and `rd` those for reading. The page an operand names,
whose lock and EPCM entry count, is the one that is written: DESIGN CHOICE (log 11). -/
structure RegOperands where
  lb : Word
  lc : Word
  pc : Word
  ld : Word
  pd : Word
  rc : Word
  rd : Word
  deriving DecidableEq, Repr

/-- S1 to S4 (40_eld_leaves.md R117 to R120). -/
def State.regOperands (s : State) : Except Stop RegOperands := do
  let lb ← s.lin s.rbx 32
  let lc ← s.lin s.rcx 4096
  require (alignedTo 5 lb && alignedTo 12 lc) .gp
  let c ← orStop (s.resolveEpc lc) (s.pageFault lc)
  let ld ← s.lin s.rdx 8
  require (alignedTo 3 ld) .gp
  let d ← orStop (s.resolveEpc ld) (s.pageFault ld)
  .ok { lb := lb, lc := lc, pc := c.write, ld := ld, pd := d.write, rc := c.read, rd := d.read }

/-- The operands PAGEINFO links to: the PCMD and the source page, and the SECS pointer, which is not
checked here. -/
structure LinkedOperands where
  lp : Word
  ls : Word
  secs : Word
  deriving DecidableEq, Repr

/-- S5 and S6 (40_eld_leaves.md R121, R122): three reads of PAGEINFO in the order of 20_memory.md R62,
then the checks of the PCMD and the source page. -/
def State.linkedOperands (s : State) (lb : Word) : Except Stop LinkedOperands := do
  let srcpge ← s.readRegularWord 1 (fieldAddr lb s.cfg.layout.pageinfoSrcpge)
  let secs ← s.readRegularWord 2 (fieldAddr lb s.cfg.layout.pageinfoSecs)
  let pcmd ← s.readRegularWord 3 (fieldAddr lb s.cfg.layout.pageinfoSecinfo)
  let lp ← s.lin pcmd 128
  let ls ← s.lin srcpge 4096
  require (alignedTo 7 lp && alignedTo 12 ls) .gp
  .ok { lp := lp, ls := ls, secs := secs }

end Sys2Proof.Machine
end

