-- ==== Sys2Proof/Machine/Eld.lean ====
section
/-! DEFINITION. The flow the four leaves share (40_eld_leaves.md R115) and the meaning of each (R111 to R114). -/

namespace Sys2Proof.Machine

/-! ### S0: entry -/

/-- The leaf's feature parameter (30_encoding.md R93). -/
def hasLeaf (c : Config) (i : Instr) : Bool := if i.isBase then c.hasSgx1 else c.hasEldbcElduc

/-- S0 (40_eld_leaves.md R116, 30_encoding.md R97). -/
def State.enterLeaf (s : State) (i : Instr) : Except Stop Unit :=
  match s.enter with
  | .error k => .error k
  | .ok () =>
    require (hasLeaf s.cfg i) (if s.cfg.unknownLeafGp then .gp else .refuse .featureAbsent)

/-! ### S7 to S9: locks and EPCM -/

/-- How a leaf reports a lock conflict to its software: `#GP(0)`, or the error code (20_memory.md R81). -/
def State.conflictStop (s : State) (i : Instr) : Stop :=
  if i.isBase then .gp else .code s.cfg.epcPageConflict

/-- VMCS.Exit_qualification.code, where the parameters put it (10_state.md R32, 92 D29). -/
def Vmcs.code (v : Vmcs) (c : Config) : Word := c.qualCode.get v.exitQualification

/-- VMCS.Exit_qualification.error, where the parameters put it (10_state.md R32, 92 D29). -/
def Vmcs.error (v : Vmcs) (c : Config) : Word := c.qualError.get v.exitQualification

/-- The exit qualification after its two assignments (60_exceptions.md R177); its bits in neither sub-field
stay (log 29). -/
def State.exitQualification (s : State) (i : Instr) : Word :=
  s.cfg.qualError.put
    (s.cfg.qualCode.put s.vmcs.exitQualification
      (if i.isBase then s.cfg.conflictException else s.cfg.conflictError))
    (if i.isBase then 0 else s.cfg.epcPageConflict)

/-- The fields a VM exit writes (60_exceptions.md R177), for the target's linear address and its
translation. -/
def State.exitFields (s : State) (i : Instr) (lc pc : Word) : Vmcs :=
  { exitReason := s.cfg.sgxConflict
    exitQualification := s.exitQualification i
    guestPhysical := pc
    guestLinear := lc
    guestRip := s.rip }

/-- How a leaf reports a conflict on the target page (40_eld_leaves.md R123): to the monitor in VMX
non-root operation with the extensions enabled, otherwise to its software. -/
def State.targetConflictStop (s : State) (i : Instr) (lc pc : Word) : Stop :=
  if s.vmxNonRoot && s.epcVirtExt then .vmExit (s.exitFields i lc pc) else s.conflictStop i

/-- S7 to S9 (40_eld_leaves.md R123 to R125). -/
def State.acquire (s : State) (i : Instr) (o : RegOperands) : Except Stop Unit := do
  require (!s.targetConflict o.pc) (s.targetConflictStop i o.lc o.pc)
  require (!s.vaConflict o.pd) (s.conflictStop i)
  require (!(s.epcmAt o.pc).valid) (s.pageFault o.lc)
  require ((s.epcmAt o.pd).valid && (s.epcmAt o.pd).pt == s.cfg.ptVa) (s.pageFault o.ld)

/-! ### S10 to S13: the header -/

/-- S10 and S11 (40_eld_leaves.md R128, R129), with EID 0, and the switch CHECK_SECINFO_RESERVED (93 U3). -/
def State.readHeader (s : State) (lb lp : Word) : Except Stop MacHeader := do
  let scratch ← s.readRegular 4 lp 128
  let linaddr ← s.readRegularWord 5 (fieldAddr lb s.cfg.layout.pageinfoLinaddr)
  let h : MacHeader :=
    { secinfo := slice scratch s.cfg.layout.pcmdSecinfo 64
      rsvd := slice scratch s.cfg.layout.pcmdRsvd 40
      linaddr := linaddr
      eid := 0 }
  require (!s.cfg.checkSecinfoReserved || h.reservedClear s.cfg) .gp
  .ok h

/-- S12 and S13 for a page with a parent (40_eld_leaves.md R130 to R132): the SECS operand is checked,
locked and its EID read, with the switch CHECK_SECS_EPCM (93 U4). The page the operand names is the one
that is read, since it is read only: DESIGN CHOICE (log 11). EPC bytes are read as they are: no other
agent writes them during the step. -/
def State.parentEid (s : State) (i : Instr) (secs : Word) : Except Stop Word := do
  let le ← s.lin secs 4096
  require (alignedTo 12 le) .gp
  let pe ← orStop (s.resolveEpc le) (s.pageFault le)
  require (!s.cfg.checkSecsEpcm || ((s.epcmAt pe.read).valid && (s.epcmAt pe.read).pt == s.cfg.ptSecs))
    (s.pageFault le)
  require (!s.secsConflict pe.read) (s.conflictStop i)
  .ok (leWord (Memory.read s.mem (pe.read.toNat + s.cfg.layout.secsEid) 8))

/-- S12 and S13: EID is the parent's, or 0 for a page without one. -/
def State.bindEid (s : State) (i : Instr) (h : MacHeader) (secs : Word) : Except Stop MacHeader :=
  if hasParent s.cfg (h.pt s.cfg.layout) then
    match s.parentEid i secs with
    | .error k => .error k
    | .ok eid => .ok { h with eid := eid }
  else .ok { h with eid := 0 }

/-! ### S0 to S14: everything before the first write -/

/-- What the checks hand to the load: the physical addresses of the target page and of the VA slot, for
writing (`pc`, `pd`) and for reading (`rc`, `rd`), the linear address of the PCMD, the header and the
bytes of the source page. -/
structure Load where
  lc : Word
  pc : Word
  pd : Word
  rc : Word
  rd : Word
  lp : Word
  header : MacHeader
  source : List Byte
  deriving DecidableEq, Repr

/-- S0 to S13 and the read of S14, in the order of 40_eld_leaves.md R149: nothing is written, so this
only reads the state. -/
def State.check (s : State) (i : Instr) : Except Stop Load := do
  s.enterLeaf i
  let o ← s.regOperands
  let p ← s.linkedOperands o.lb
  s.acquire i o
  let h ← s.readHeader o.lb p.lp
  let header ← s.bindEid i h p.secs
  let source ← s.readRegular 7 p.ls 4096
  .ok { lc := o.lc, pc := o.pc, pd := o.pd, rc := o.rc, rd := o.rd, lp := p.lp, header := header,
        source := source }

/-! ### S14 to S23: the load -/

/-- The counter argument (40_eld_leaves.md R135, 92 D18): the version shifted left by 32 in 128 bits. -/
def counterOf (ver : Word) : BitVec 128 := ver.zeroExtend 128 <<< 32

/-- A byte string as 4096 bytes. -/
def pageBytes (bs : List Byte) : Vector Byte 4096 := ⟨⟨(bs ++ List.replicate 4096 0).take 4096⟩, by
    rw [List.size_toArray, List.length_take, List.length_append, List.length_replicate]; omega⟩

/-- S14: memory with the source page copied into the target (40_eld_leaves.md R133). -/
def Load.copied (l : Load) (m : List Host.Cell) : List Host.Cell := Memory.write m l.pc.toNat l.source

/-- S15: the version, read after the copy (40_eld_leaves.md R134). -/
def Load.version (l : Load) (m : List Host.Cell) : Word := leWord (Memory.read (l.copied m) l.rd.toNat 8)

/-- S16: the two outputs of the decryption (40_eld_leaves.md R136). -/
def Load.decrypted (l : Load) (dec : AesGcmDec) (s : State) (m : List Host.Cell) :
    Vector Byte 4096 × BitVec 128 :=
  dec s.crBasePk (counterOf (l.version m)) (l.header.bytes s.cfg.layout) 128
    (pageBytes (Memory.read (l.copied m) l.rc.toNat 4096)) 4096

/-- S16: memory with the plain text written over the target page. -/
def Load.overwritten (l : Load) (dec : AesGcmDec) (s : State) (m : List Host.Cell) : List Host.Cell :=
  Memory.write (l.copied m) l.pc.toNat (l.decrypted dec s m).1.toList

/-- S18 (40_eld_leaves.md R138): the version check and the write of the slot, under VA_COMMIT. `m` is the
memory S16 leaves; none is the `#GP(0)`. -/
def Load.slotCommit (l : Load) (c : Config) (ver : Word) (m : List Host.Cell) : Option (List Host.Cell) :=
  match c.vaCommit with
  | .literal =>
    if leWord (Memory.read m l.rd.toNat 8) = 0 then some (Memory.write m l.pd.toNat (wordBytes ver)) else none
  | .freeSlot => some (Memory.write m l.pd.toNat (wordBytes 0))

/-- S20 (40_eld_leaves.md R141): ENCLAVECONTEXT of a loaded SECS receives the translation of the page,
the one a VM exit reports: that for writing, DESIGN CHOICE (log 11). -/
def Load.context (l : Load) (c : Config) (m : List Host.Cell) : List Host.Cell :=
  if l.header.pt c.layout = c.ptSecs then
    Memory.write m (l.pc.toNat + c.layout.secsEnclaveContext) (wordBytes l.pc)
  else m

/-- S19 to S23 (40_eld_leaves.md R139 to R144): the EPCM entry of the target, ENCLAVECONTEXT, RAX = 0,
the flags and RIP. `m` is the memory S18 leaves. -/
def State.commit (s : State) (i : Instr) (l : Load) (m : List Host.Cell) : State :=
  { s with mem := l.context s.cfg m,
           epcm := Sparse.put EpcmEntry.free (frameOf l.pc) [l.header.entry s.cfg i] s.epcm }.complete 0 false

/-- S14 to S23. `t` is the state the execution leaves apart from its own effect; `s`, the state before,
answers the second read of the MAC (row 11 of 20_memory.md R62). -/
def State.load (s : State) (dec : AesGcmDec) (i : Instr) (l : Load) : Host.Outcome State Fault Refusal :=
  let t := s.afterInput
  let m := l.overwritten dec s t.mem
  match s.readRegular 11 (fieldAddr l.lp s.cfg.layout.pcmdMac) 16 with
  | .error k => (t.withMem m).finish k
  | .ok mac =>
    if (l.decrypted dec s t.mem).2 = leMac mac then
      match l.slotCommit s.cfg (l.version t.mem) m with
      | none => (t.withMem m).finish .gp
      | some m' => .next (t.commit i l m')
    else (t.withMem m).finish (.code s.cfg.macCompareFail)

/-- `ELD(leaf)` (40_eld_leaves.md R115), for a decryption function `dec`. -/
def State.eld (s : State) (dec : AesGcmDec) (i : Instr) : Host.Outcome State Fault Refusal :=
  match s.check i with
  | .error k => s.afterInput.finish k
  | .ok l => s.load dec i l

/-! ### The four leaves -/

/-- `ENCLS[ELDB]` (40_eld_leaves.md R111). -/
def execEldb (s : State) : Host.Outcome State Fault Refusal := s.eld Config.aesGcmDec .eldb

/-- `ENCLS[ELDU]` (40_eld_leaves.md R112). -/
def execEldu (s : State) : Host.Outcome State Fault Refusal := s.eld Config.aesGcmDec .eldu

/-- `ENCLS[ELDBC]` (40_eld_leaves.md R113). -/
def execEldbc (s : State) : Host.Outcome State Fault Refusal := s.eld Config.aesGcmDec .eldbc

/-- `ENCLS[ELDUC]` (40_eld_leaves.md R114). -/
def execElduc (s : State) : Host.Outcome State Fault Refusal := s.eld Config.aesGcmDec .elduc

end Sys2Proof.Machine
end

