-- ==== Sys2Proof/Machine/Dispatch.lean ====
section
/-! DEFINITION. One arm per instruction. -/

namespace Sys2Proof.Machine

def exec (i : Instr) (s : State) : Host.Outcome State Fault Refusal :=
  match i with
  | .eldb => Sys2Proof.Machine.execEldb s
  | .eldu => Sys2Proof.Machine.execEldu s
  | .eldbc => Sys2Proof.Machine.execEldbc s
  | .elduc => Sys2Proof.Machine.execElduc s

end Sys2Proof.Machine
end

