-- ==== Sys2Proof/Machine/Step.lean ====
section
/-! DEFINITION. One step: what other agents did since the last one, then fetch, decode, execute. -/

namespace Sys2Proof.Machine

/-- The step from a state whose pending actions are done: the bytes at RIP and EAX are decoded and the
leaf runs (30_encoding.md R92, R99). -/
def State.runEncls (s : State) : Host.Outcome State Fault Refusal :=
  match s.fetch with
  | .error r => .refused r
  | .ok bytes =>
    match decode s.cfg.enclsBytes bytes s.eax with
    | .error e => s.undecoded e
    | .ok (i, _) => exec i s

/-- One step. A recorded terminal outcome ends the run (60_exceptions.md R185); otherwise the actions of
other agents that fell between the steps are done (60_exceptions.md R187) and the next instruction runs. -/
def step (s : State) : Host.Outcome State Fault Refusal :=
  match s.event with
  | some e => .fault (.terminated e)
  | none => s.acted.runEncls

/-- The state with `ENCLS` and a selector placed where `step` fetches: the bytes at RIP and, since the
opcode table's bits are those of EAX (30_encoding.md R92), the selector in EAX. Log 14. -/
def State.withFetchWord (s : State) (nbits w : Nat) : State := s.placeLeaf (tableSelector nbits w)

end Sys2Proof.Machine
end

