-- ==== Sys2Proof/Safety.lean ====
section
/-! DEFINITION. The terms claims are stated in: a sound state, what the leaves never write, and when a load can run to its end (70_reset_and_hazards.md R211). -/

namespace Sys2Proof.Machine

/-- A physical byte address lies in the EPC (20_memory.md R67). -/
def State.epcByte (s : State) (x : Nat) : Bool := s.epcFrames.contains (BitVec.ofNat 52 (x / 4096))

/-- A sparse map by frame number lists frames of the EPC only. -/
def State.onlyEpcFrames {β : Type} (s : State) (m : List (Nat × β)) : Bool :=
  m.all (fun c => decide (c.1 < 2 ^ 52) && s.epcFrames.contains (BitVec.ofNat 52 c.1))

/-- A sound state: memory, the EPCM and the lock record are in canonical form; the EPCM and the lock
record have entries for EPC pages only (10_state.md R33, R41); the parameters meet the constraints of 93
U13; and after a VM exit the processor is out of VMX non-root operation (60_exceptions.md R177). -/
structure State.Sound (s : State) : Prop where
  mem : Memory.wf s.mem = true
  epcm : Sparse.wfFrom EpcmEntry.free 0 s.epcm = true
  locks : Sparse.wfFrom PageLock.unheld 0 s.locks = true
  epcmFrames : s.onlyEpcFrames s.epcm = true
  lockFrames : s.onlyEpcFrames s.locks = true
  cfg : s.cfg.wellFormed = true
  afterExit : s.event = some .vmExit → s.vmxNonRoot = false

/-- What no leaf writes, on any path: the operand registers (10_state.md R22 to R24), DS, CPL, the mode
(R28 to R30), the extension control (R31), the key (R38), the lock record (R41), the EPC, the translation
and the parameters (00_scope.md R7). -/
structure Keeps (s t : State) : Prop where
  rbx : t.rbx = s.rbx
  rcx : t.rcx = s.rcx
  rdx : t.rdx = s.rdx
  ds : t.ds = s.ds
  cpl : t.cpl = s.cpl
  mode : t.mode = s.mode
  epcVirtExt : t.epcVirtExt = s.epcVirtExt
  crBasePk : t.crBasePk = s.crBasePk
  locks : t.locks = s.locks
  epcFrames : t.epcFrames = s.epcFrames
  pageMap : t.pageMap = s.pageMap
  cfg : t.cfg = s.cfg

/-- The names a load gives to what it reads: the linear addresses of PAGEINFO, the target page, the VA
slot, the PCMD and the source page, the physical addresses of the two in the EPC for writing (`pc`, `pd`)
and for reading (`rc`, `rd`), the fields of PAGEINFO, the PCMD as first read, the EID bound and the source
page. -/
structure LoadView where
  lb : Word
  lc : Word
  pc : Word
  ld : Word
  pd : Word
  rc : Word
  rd : Word
  srcpge : Word
  secs : Word
  pcmd : Word
  lp : Word
  ls : Word
  scratch : List Byte
  linaddr : Word
  eid : Word
  source : List Byte

/-- TMP_HEADER of a load (40_eld_leaves.md R129, R132). -/
def LoadView.header (v : LoadView) (c : Config) : MacHeader :=
  { secinfo := slice v.scratch c.layout.pcmdSecinfo 64
    rsvd := slice v.scratch c.layout.pcmdRsvd 40
    linaddr := v.linaddr
    eid := v.eid }

/-- The SECS operand of a page with a parent is accepted and its EID is `eid` (70 R211 item 8,
40_eld_leaves.md R130 to R132). -/
structure ParentOk (s : State) (secs eid le : Word) (pe : EpcAddress) : Prop where
  lin : s.lin secs 4096 = .ok le
  aligned : alignedTo 12 le = true
  resident : s.resolveEpc le = some pe
  switched : s.cfg.checkSecsEpcm = true →
    (s.epcmAt pe.read).valid = true ∧ (s.epcmAt pe.read).pt = s.cfg.ptSecs
  unlocked : s.secsConflict pe.read = false
  eid : eid = leWord (Memory.read s.mem (pe.read.toNat + s.cfg.layout.secsEid) 8)

/-- The conditions of 70 R211 but the MAC and the version: the load reaches the decryption. -/
structure CanLoad (s : State) (i : Instr) (v : LoadView) : Prop where
  enabled : s.cfg.enclsEnabled = true
  mode : s.mode = .mode64 ∨ (s.mode = .protectedMode ∧ s.ds.expandDown = false)
  privilege : s.cpl = 0
  feature : (if i.isBase then s.cfg.hasSgx1 else s.cfg.hasEldbcElduc) = true
  pageinfo : s.lin s.rbx 32 = .ok v.lb
  pageinfoAligned : alignedTo 5 v.lb = true
  target : s.lin s.rcx 4096 = .ok v.lc
  targetAligned : alignedTo 12 v.lc = true
  targetResident : s.resolveEpc v.lc = some { read := v.rc, write := v.pc }
  slot : s.lin s.rdx 8 = .ok v.ld
  slotAligned : alignedTo 3 v.ld = true
  slotResident : s.resolveEpc v.ld = some { read := v.rd, write := v.pd }
  srcpge : s.readRegularWord 1 (fieldAddr v.lb s.cfg.layout.pageinfoSrcpge) = .ok v.srcpge
  secs : s.readRegularWord 2 (fieldAddr v.lb s.cfg.layout.pageinfoSecs) = .ok v.secs
  pcmd : s.readRegularWord 3 (fieldAddr v.lb s.cfg.layout.pageinfoSecinfo) = .ok v.pcmd
  pcmdLin : s.lin v.pcmd 128 = .ok v.lp
  pcmdAligned : alignedTo 7 v.lp = true
  sourceLin : s.lin v.srcpge 4096 = .ok v.ls
  sourceAligned : alignedTo 12 v.ls = true
  targetUnlocked : s.targetConflict v.pc = false
  slotUnlocked : s.vaConflict v.pd = false
  targetFree : (s.epcmAt v.pc).valid = false
  slotValid : (s.epcmAt v.pd).valid = true
  slotType : (s.epcmAt v.pd).pt = s.cfg.ptVa
  scratch : s.readRegular 4 v.lp 128 = .ok v.scratch
  linaddr : s.readRegularWord 5 (fieldAddr v.lb s.cfg.layout.pageinfoLinaddr) = .ok v.linaddr
  switched : s.cfg.checkSecinfoReserved = true →
    MacHeader.reservedClear { v.header s.cfg with eid := 0 } s.cfg = true
  parent : hasParent s.cfg ((v.header s.cfg).pt s.cfg.layout) = true →
    ∃ le pe, ParentOk s v.secs v.eid le pe
  noParent : hasParent s.cfg ((v.header s.cfg).pt s.cfg.layout) = false → v.eid = 0
  source : s.readRegular 7 v.ls 4096 = .ok v.source

/-- Memory after the copy of the source page into the target (40_eld_leaves.md R133). -/
def LoadView.copied (v : LoadView) (s : State) : List Host.Cell :=
  Memory.write s.landed v.pc.toNat v.source

/-- The version, read from the VA slot after the copy, as 64 bits (40_eld_leaves.md R134). -/
def LoadView.version (v : LoadView) (s : State) : Word :=
  leWord (Memory.read (v.copied s) v.rd.toNat 8)

/-- The plain text and the MAC of a load (40_eld_leaves.md R135, R136). -/
def LoadView.outputs (v : LoadView) (s : State) : Vector Byte 4096 × BitVec 128 :=
  Config.aesGcmDec s.crBasePk (counterOf (v.version s)) ((v.header s.cfg).bytes s.cfg.layout) 128
    (pageBytes (Memory.read (v.copied s) v.rc.toNat 4096)) 4096

/-- Memory after the decryption in place (40_eld_leaves.md R136). -/
def LoadView.filled (v : LoadView) (s : State) : List Host.Cell :=
  Memory.write (v.copied s) v.pc.toNat (v.outputs s).1.toList

/-- The VA slot as the version check reads it (40_eld_leaves.md R138). -/
def LoadView.slotAtCheck (v : LoadView) (s : State) : Word :=
  leWord (Memory.read (v.filled s) v.rd.toNat 8)

/-- What the version check writes to the slot when it goes on (40_eld_leaves.md R138). -/
def LoadView.slotWritten (v : LoadView) (s : State) : Word :=
  match s.cfg.vaCommit with
  | .literal => v.version s
  | .freeSlot => 0

/-- The MAC in the PCMD as the second read sees it (40_eld_leaves.md R137, row 11 of 20_memory.md R62). -/
def LoadView.storedMac (v : LoadView) (s : State) : Except Stop (List Byte) :=
  s.readRegular 11 (fieldAddr v.lp s.cfg.layout.pcmdMac) 16

/-- The conditions under which a load succeeds (70 R211): it reaches the decryption, the MAC read again
is the one computed, and under `VA_COMMIT = LITERAL` the version check reads 0 (40_eld_leaves.md R138). -/
structure Succeeds (s : State) (i : Instr) (v : LoadView) (mac : List Byte) : Prop where
  loads : CanLoad s i v
  read : v.storedMac s = .ok mac
  verified : (v.outputs s).2 = leMac mac
  slotFree : s.cfg.vaCommit = .literal → v.slotAtCheck s = 0

/-- The contents the switch CHECK_SECINFO_RESERVED asks for, in the words of 93 U3 (log 18). -/
structure SecinfoClear (c : Config) (h : MacHeader) : Prop where
  flags : ∀ k, k < 64 → k ≠ c.layout.flagR.val → k ≠ c.layout.flagW.val → k ≠ c.layout.flagX.val →
    k ≠ c.layout.flagPending.val → k ≠ c.layout.flagModified.val → k ≠ c.layout.flagPr.val →
    (k < c.layout.flagPt.val ∨ c.layout.flagPt.val + 8 ≤ k) → (h.flags c.layout).getLsbD k = false
  secinfo : ∀ k b, h.secinfo[k]? = some b →
    (k < c.layout.secinfoFlags.val ∨ c.layout.secinfoFlags.val + 8 ≤ k) → b = 0
  rsvd : ∀ b ∈ h.rsvd, b = 0
  pageType : h.pt c.layout ∈ [c.ptSecs, c.ptTcs, c.ptReg, c.ptVa, c.ptTrim]
  linaddr : h.linaddr.toNat % 4096 = 0

/-- A physical byte address lies in the 4096 bytes of the page at `p`. -/
def inPage (p : Word) (x : Nat) : Prop := p.toNat ≤ x ∧ x < p.toNat + 4096

/-- A physical byte address lies in the 8 bytes at `p`. -/
def inSlot (p : Word) (x : Nat) : Prop := p.toNat ≤ x ∧ x < p.toNat + 8

/-- The bytes of the EPC are the same in two states. -/
def SameEpcBytes (s t : State) : Prop :=
  ∀ x, s.epcByte x = true → Memory.byte t.mem x = Memory.byte s.mem x

/-- How a lock conflict is reported to the leaf's own software (20_memory.md R81): ELDB and ELDU take
`#GP(0)`; ELDBC and ELDUC complete with the conflict code, ZF set and the five other flags cleared. No VM
exit, and neither the EPCM nor a byte of the EPC changes. -/
structure ConflictReported (s t : State) (i : Instr) : Prop where
  base : i.isBase = true →
    t.event = some .gp ∧ t.rax = s.rax ∧ t.rflags = s.rflags ∧ t.rip = s.rip
  coded : i.isBase = false → t.event = s.event ∧ t.rax = s.cfg.epcPageConflict ∧
    t.rflags = { s.rflags with zf := true, cf := false, pf := false, af := false, of := false, sf := false } ∧
    t.rip = s.rip + BitVec.ofNat 64 s.cfg.enclsBytes.length
  vmcs : t.vmcs = s.vmcs ∧ t.vmxNonRoot = s.vmxNonRoot
  epcm : t.epcm = s.epcm
  bytes : SameEpcBytes s t

end Sys2Proof.Machine
end

