-- ==== Sys2Proof/Certificates/Slice0/Obligations.lean ====
section
/-! DEFINITION. The statements about the machine, each naming the rules of spec/ it rests on. -/

open Sys2Proof Sys2Proof.Machine

/-! ### Encoding and leaf selection -/

/-- 30_encoding.md R90, R92, R93: the bytes are ENCLS_BYTES and then the rest, and EAX, all 32 bits of it, is
the leaf's number. That in no other case the decoder answers an instruction, for a prefixed `ENCLS` (R99),
other bytes or another EAX (R96), is the spec's decision D2 and the model's choice (log 32, DESIGN CHOICE). -/
def Obligations.DecodesExactlyTheEncodedLeaf : Prop :=
  ∀ (enclsBytes bytes rest : List Byte) (eax : BitVec 32) (i : Instr),
    decode enclsBytes bytes eax = .ok (i, rest) ↔ eax = encode i ∧ bytes = enclsBytes ++ rest

/-- 30_encoding.md R93, the leaf table: the four words decode to their leaves; a leaf is entered when its
feature parameter is true, in 64-bit mode and in 32-bit mode alike, where `ENCLS` is enabled and CPL is 0 (R98
with the spec's decision D4, R116). That 107H and 03H decode to none is R92 and R96 with its decision D2; that
a leaf is entered only when its feature is true is R97 with its decision D3; that DS must not be expand-down
outside 64-bit mode is its decision D7. That nothing but the four leaves decodes is the spec's decision
D2 (log 32, DESIGN CHOICE). -/
def Obligations.OpcodeTableWordsDecode : Prop :=
  decodeTableWord 32 0x00000007 = some .eldb ∧ decodeTableWord 32 0x00000008 = some .eldu ∧
  decodeTableWord 32 0x00000012 = some .eldbc ∧ decodeTableWord 32 0x00000013 = some .elduc ∧
  decodeTableWord 32 0x00000107 = none ∧ decodeTableWord 32 0x00000003 = none ∧
  ∀ (s : State) (i : Instr), s.cfg.enclsEnabled = true → s.cpl = 0 →
    (s.mode = .mode64 ∨ (s.mode = .protectedMode ∧ s.ds.expandDown = false)) →
    (s.enterLeaf i = .ok () ↔
      (if i = .eldb ∨ i = .eldu then s.cfg.hasSgx1 else s.cfg.hasEldbcElduc) = true)

/-- 30_encoding.md R94: the two predicates on EAX, with their complements. Every difference between the
leaves is a function of them: two leaves of one IsBase make the same checks, with the same stops, and hand
the same to the load; two of one IsBlocking load alike; and a leaf is its checks and then its load. -/
def Obligations.LeavesDifferByTwoPredicates : Prop :=
  ∀ i : Instr, (i.isBase = true ↔ encode i = 0x07 ∨ encode i = 0x08) ∧
    (i.isBase = false ↔ encode i = 0x12 ∨ encode i = 0x13) ∧
    (i.isBlocking = true ↔ encode i = 0x07 ∨ encode i = 0x12) ∧
    (i.isBlocking = false ↔ encode i = 0x08 ∨ encode i = 0x13) ∧
    ∀ s : State, (∀ j : Instr, i.isBase = j.isBase → s.check i = s.check j) ∧
      (∀ (j : Instr) (l : Load), i.isBlocking = j.isBlocking →
        s.load Config.aesGcmDec i l = s.load Config.aesGcmDec j l) ∧
      (∀ k, s.check i = .error k → exec i s = s.afterInput.finish k) ∧
      (∀ l, s.check i = .ok l → exec i s = s.load Config.aesGcmDec i l)

/-! ### The step -/

/-- When the bytes at RIP decode to a leaf, the step is that leaf executed; what the step adds is that the
actions of other agents since the last step come first (60_exceptions.md R187, log 13). That the bytes at RIP
are decoded with EAX, and nothing but ENCLS_BYTES is an instruction, is log 32 (DESIGN CHOICE). -/
def Obligations.StepRunsTheDecodedLeaf : Prop :=
  ∀ (s : State) (bytes rest : List Byte) (i : Instr), s.event = none → s.acted.fetch = .ok bytes →
    decode s.cfg.enclsBytes bytes s.eax = .ok (i, rest) →
    step s = exec i s.acted ∧ (s.pending = [] → step s = exec i s)

/-- The spec's decision D20 (60_exceptions.md R185), D21: a recorded outcome is terminal (log 19). -/
def Obligations.StepAfterARecordedOutcomeStops : Prop :=
  ∀ (s : State) (e : Event), s.event = some e → step s = .fault (.terminated e)

/-- The spec's decisions D2 (30_encoding.md R96, 93 U1) and D22 (log 16): `ENCLS` with an EAX that names no
leaf is refused, or takes `#GP(0)` with the switch UNKNOWN_LEAF_GP, or at another privilege level. That the
event leaves RIP as it was is the spec's decision D5 (log 24, PRESUMED). That no other agent changes anything
but regular memory during the execution is log 31 (DEDUCED). That nothing but the four leaves decodes is
the spec's decision D2 (log 32, DESIGN CHOICE). -/
def Obligations.UnlistedLeafIsRefusedOrTakesGp : Prop :=
  ∀ (s : State) (bytes : List Byte), s.event = none → s.pending = [] → s.fetch = .ok bytes →
    decode s.cfg.enclsBytes bytes s.eax = .error (.unknownLeaf s.eax) → s.admitted = .ok () →
    (s.cpl = 0 → s.cfg.unknownLeafGp = false → step s = .refused (.unknownLeaf s.eax)) ∧
    (s.cpl = 0 → s.cfg.unknownLeafGp = true → step s = .next (s.afterInput.raise .gp)) ∧
    (s.cpl ≠ 0 → step s = .next (s.afterInput.raise .gp))

/-- Log 14: a leaf placed in the launch state is the first instruction that runs, with its bytes fetched at
RIP and its number in EAX. That the bytes at RIP are decoded with EAX, and nothing but ENCLS_BYTES is an
instruction, is log 32 (DESIGN CHOICE). -/
def Obligations.LaunchRunsAPlacedLeafFirst : Prop :=
  ∀ i : Instr, step (State.reset.withFetchWord 32 (encode i).toNat) =
      exec i (State.reset.withFetchWord 32 (encode i).toNat) ∧
    (State.reset.withFetchWord 32 (encode i).toNat).eax = encode i ∧
    (State.reset.withFetchWord 32 (encode i).toNat).fetch = .ok Config.suggested.enclsBytes

/-- 30_encoding.md R92: the leaf is selected by the value of EAX, all 32 bits of it, in the state in which
`ENCLS` executes, and `RAX[63:32]` takes no part: RAX = FFFFFFFF00000007H selects ELDB, and EAX = 107H does
not. What is selected is what runs, wherever its bytes are fetched from. -/
def Obligations.EaxAloneSelectsTheLeaf : Prop :=
  ∀ (s : State) (hi eax : BitVec 32) (i : Instr) (rest : List Byte), s.rax = hi ++ eax →
    (decode s.cfg.enclsBytes (s.cfg.enclsBytes ++ rest) s.eax = .ok (i, rest) ↔
      (i = .eldb ∧ eax = 0x07) ∨ (i = .eldu ∧ eax = 0x08) ∨
      (i = .eldbc ∧ eax = 0x12) ∨ (i = .elduc ∧ eax = 0x13)) ∧
    (s.fetch = .ok (s.cfg.enclsBytes ++ rest) →
      decode s.cfg.enclsBytes (s.cfg.enclsBytes ++ rest) s.eax = .ok (i, rest) → s.runEncls = exec i s)

/-- 30_encoding.md R92, 10_state.md R21: `RAX[63:32]` on entry selects nothing and changes nothing: two
states that differ in it step alike, and end alike but for a RAX that neither step wrote. That a completed
leaf ends with the same `RAX[63:32]` outside 64-bit mode too is the spec's decision D6, a DESIGN CHOICE
(log 22; 93 U7 says any value there). -/
def Obligations.UpperHalfOfRaxIsNoInput : Prop :=
  ∀ (s : State) (hi : BitVec 32),
    match step s, step { s with rax := hi ++ s.eax } with
    | .next t, .next t' =>
      t' = { t with rax := t'.rax } ∧ (t'.rax = t.rax ∨ (t.rax = s.rax ∧ t'.rax = hi ++ s.eax))
    | .fault f, .fault f' => f = f'
    | .refused r, .refused r' => r = r'
    | _, _ => False

/-! ### Entry -/

/-- The spec's decision D22 (60_exceptions.md R182), log 16: at CPL 1, 2 or 3 an admitted launch takes
`#GP(0)` before every other check. That the event leaves RIP as it was is the spec's decision D5 (log 24,
PRESUMED). That no other agent changes anything but regular memory during the execution is log 31 (DEDUCED).
-/
def Obligations.OtherPrivilegeLevelsTakeGp : Prop :=
  ∀ (s : State) (i : Instr), s.admitted = .ok () → s.cpl ≠ 0 → exec i s = .next (s.afterInput.raise .gp)

/-- The spec's decisions D4 and D7 (30_encoding.md R98, 93 U10): the launches that are refused, at every
CPL. That such a refusal comes before the privilege test of R116 and R182 is the model's order (log 16,
DEDUCED): the run of a refused launch never begins. -/
def Obligations.UnadmittedLaunchIsRefused : Prop :=
  ∀ (s : State) (i : Instr),
    (s.cfg.enclsEnabled = false → exec i s = .refused .enclsNotEnabled) ∧
    (s.cfg.enclsEnabled = true → (s.mode = .realAddress ∨ s.mode = .virtual8086) →
      exec i s = .refused .unsupportedMode) ∧
    (s.cfg.enclsEnabled = true → s.mode = .protectedMode → s.ds.expandDown = true →
      exec i s = .refused .expandDownDs)

/-- The spec's decision D3 (30_encoding.md R97, 93 U2), after the privilege test (log 16): a leaf whose
feature parameter is false is refused, or takes `#GP(0)` with the switch UNKNOWN_LEAF_GP. That the event
leaves RIP as it was is the spec's decision D5 (log 24, PRESUMED). That no other agent changes anything but
regular memory during the execution is log 31 (DEDUCED). -/
def Obligations.AbsentFeatureIsRefusedOrTakesGp : Prop :=
  ∀ (s : State) (i : Instr), s.admitted = .ok () → s.cpl = 0 →
    (if i.isBase then s.cfg.hasSgx1 else s.cfg.hasEldbcElduc) = false →
    (s.cfg.unknownLeafGp = false → exec i s = .refused .featureAbsent) ∧
    (s.cfg.unknownLeafGp = true → exec i s = .next (s.afterInput.raise .gp))

/-! ### Operand addresses -/

/-- The spec's decision D7 (20_memory.md R64, R65, K12, log 23). In 64-bit mode the address is used whole,
if bits 63 to 47 are all equal; otherwise `#GP(0)`. Outside it the low 32 bits count, the limit test is over
the whole structure, and DS.base is added modulo 2^32. -/
def Obligations.LinearAddressFollowsTheMode : Prop :=
  ∀ (s : State) (a : Word) (size : Nat),
    (s.mode = .mode64 →
      ((∀ k, 47 ≤ k → k < 64 → a.getLsbD k = a.getLsbD 47) → s.lin a size = .ok a) ∧
      (∀ k, 47 ≤ k → k < 64 → a.getLsbD k ≠ a.getLsbD 47 → s.lin a size = .error .gp)) ∧
    (s.mode ≠ .mode64 → 0 < size →
      (s.ds.usable = true → a.toNat % 2 ^ 32 + size ≤ s.ds.limit.toNat + 1 →
        ∃ l, s.lin a size = .ok l ∧ l.toNat = (s.ds.base.toNat + a.toNat) % 2 ^ 32) ∧
      (s.ds.usable = false ∨ s.ds.limit.toNat + 1 < a.toNat % 2 ^ 32 + size → s.lin a size = .error .gp))

/-- 20_memory.md R66, R67, R71 (the spec's decision D14). `phys` is any function of a page and an access
kind: a page may be given any frame, or none, for reading, and any other, or none, for writing; a
translation keeps bits 11 to 0, and the addresses of one page are translated to one frame. An EPC operand
is resident when it is translated for reading and for writing, each into a frame of the EPC. -/
def Obligations.EpcResidenceIsTranslationIntoTheEpc : Prop :=
  ∀ (s : State) (a r w : Word),
    (s.resolveEpc a = some { read := r, write := w } ↔
      s.translate a .read = some r ∧ s.translate a .write = some w ∧
        pageNo r ∈ s.epcFrames ∧ pageNo w ∈ s.epcFrames) ∧
    (∀ k p, s.translate a k = some p → p.extractLsb' 0 12 = a.extractLsb' 0 12 ∧
      ∀ b, pageNo b = pageNo a → s.translate b k = some (pageNo p ++ b.extractLsb' 0 12)) ∧
    (∀ (rf wf : Option FrameNo), ∃ m,
      State.translate { s with pageMap := m } a .read = rf.map (fun f => f ++ a.extractLsb' 0 12) ∧
      State.translate { s with pageMap := m } a .write = wf.map (fun f => f ++ a.extractLsb' 0 12) ∧
      ∀ b k, pageNo b ≠ pageNo a → State.translate { s with pageMap := m } b k = s.translate b k)

/-- 20_memory.md R69, 40_eld_leaves.md R145: an operand is aligned when its low bits are 0. -/
def Obligations.AlignmentIsLowBitsZero : Prop :=
  ∀ (k : Nat) (a : Word), k ≤ 64 → (alignedTo k a = true ↔ ∀ j < k, a.getLsbD j = false)

/-- 40_eld_leaves.md R117: PAGEINFO not 32-byte aligned, the target not 4-KByte aligned, or either address
refused by segmentation or the canonical test: `#GP(0)`, and nothing is written. That alignment is tested on
the linear address, and that a refused RBX or RCX reports here, before the residence test, is the spec's
decision D8 (log 23). That the event leaves RIP as it was is the spec's decision D5 (log 24, PRESUMED). That
no other agent changes anything but regular memory during the execution is log 31 (DEDUCED). -/
def Obligations.MisalignedPageinfoOrTargetTakesGp : Prop :=
  ∀ (s : State) (i : Instr), s.enterLeaf i = .ok () →
    (∀ lb lc, s.lin s.rbx 32 = .ok lb → s.lin s.rcx 4096 = .ok lc →
      alignedTo 5 lb = false ∨ alignedTo 12 lc = false) →
    exec i s = .next (s.afterInput.raise .gp)

/-- 40_eld_leaves.md R118: the target is not translated, not for reading and writing (that both are asked is
the spec's decision D14), or not to a frame of the EPC; whatever RDX holds, so that a refused RDX reports
later (the spec's decision D8, log 23). That the event leaves RIP as it was is the spec's decision D5 (log 24,
PRESUMED). That no other agent changes anything but regular memory during the execution is log 31 (DEDUCED).
The error code of the `#PF` is a free input (log 26, DESIGN CHOICE). -/
def Obligations.TargetOutsideTheEpcFaults : Prop :=
  ∀ (s : State) (i : Instr) (lb lc : Word), s.enterLeaf i = .ok () →
    s.lin s.rbx 32 = .ok lb → s.lin s.rcx 4096 = .ok lc → alignedTo 5 lb = true → alignedTo 12 lc = true →
    (s.translate lc .read = none ∨ s.translate lc .write = none ∨
      ∃ k p, s.translate lc k = some p ∧ s.inEpc p = false) →
    exec i s = .next (s.afterInput.raise (.pf lc s.input.pfErrorCode))

/-- 40_eld_leaves.md R119: the slot is not 8-byte aligned, or its address is refused by segmentation or the
canonical test: `#GP(0)`, after the residence test of the target, which reports first. For a refused RDX that
place is the spec's decision D8, and so is alignment on the linear address (log 23). That the event leaves RIP
as it was is the spec's decision D5 (log 24, PRESUMED). That no other agent changes anything but regular
memory during the execution is log 31 (DEDUCED). The error code of the `#PF` is a free input (log 26, DESIGN
CHOICE). -/
def Obligations.MisalignedSlotTakesGp : Prop :=
  ∀ (s : State) (i : Instr) (lb lc : Word), s.enterLeaf i = .ok () →
    s.lin s.rbx 32 = .ok lb → s.lin s.rcx 4096 = .ok lc → alignedTo 5 lb = true → alignedTo 12 lc = true →
    (∀ ld, s.lin s.rdx 8 = .ok ld → alignedTo 3 ld = false) →
    (∀ c, s.resolveEpc lc = some c → exec i s = .next (s.afterInput.raise .gp)) ∧
    (s.resolveEpc lc = none → exec i s = .next (s.afterInput.raise (.pf lc s.input.pfErrorCode)))

/-- 40_eld_leaves.md R120: the slot is not translated, not for reading and writing (that both are asked is the
spec's decision D14), or not to a frame of the EPC, after the checks of S1 to S3 (the spec's decision D8 gives
their place, log 23); the address reported is that of the slot, not of its page. That the event leaves RIP as
it was is the spec's decision D5 (log 24, PRESUMED). That no other agent changes anything but regular memory
during the execution is log 31 (DEDUCED). The error code of the `#PF` is a free input (log 26, DESIGN CHOICE).
-/
def Obligations.SlotOutsideTheEpcFaults : Prop :=
  ∀ (s : State) (i : Instr) (lb lc ld : Word) (c : EpcAddress), s.enterLeaf i = .ok () →
    s.lin s.rbx 32 = .ok lb → s.lin s.rcx 4096 = .ok lc → alignedTo 5 lb = true → alignedTo 12 lc = true →
    s.resolveEpc lc = some c → s.lin s.rdx 8 = .ok ld → alignedTo 3 ld = true →
    (s.translate ld .read = none ∨ s.translate ld .write = none ∨
      ∃ k p, s.translate ld k = some p ∧ s.inEpc p = false) →
    exec i s = .next (s.afterInput.raise (.pf ld s.input.pfErrorCode))

/-- 40_eld_leaves.md R121, 60_exceptions.md R172 cause 7 (with the spec's decision D17): an unmapped PAGEINFO,
PCMD or source page is a page fault at the first byte of the access. That the event leaves RIP as it was is
the spec's decision D5 (log 24, PRESUMED). That no other agent changes anything but regular memory during the
execution is log 31 (DEDUCED). The error code of the `#PF` is a free input (log 26, DESIGN CHOICE). A conflict
is what the draw or the lock record says (log 10, DEDUCED). The pages tested and locked are those of the
frames written, the SECS that of the frame read (log 11, DESIGN CHOICE). The address checks passed before are
those of log 23 (PRESUMED). -/
def Obligations.UnmappedRegularOperandFaults : Prop :=
  ∀ (s : State) (i : Instr) (o : RegOperands), s.enterLeaf i = .ok () → s.regOperands = .ok o →
    (s.translate (fieldAddr o.lb s.cfg.layout.pageinfoSrcpge) .read = none →
      exec i s = .next (s.afterInput.raise
        (.pf (fieldAddr o.lb s.cfg.layout.pageinfoSrcpge) s.input.pfErrorCode))) ∧
    (∀ p, s.linkedOperands o.lb = .ok p → s.acquire i o = .ok () →
      (s.translate p.lp .read = none →
        exec i s = .next (s.afterInput.raise (.pf p.lp s.input.pfErrorCode))) ∧
      (∀ h h', s.readHeader o.lb p.lp = .ok h → s.bindEid i h p.secs = .ok h' →
        s.translate p.ls .read = none →
        exec i s = .next (s.afterInput.raise (.pf p.ls s.input.pfErrorCode))))

/-- 40_eld_leaves.md R122: the PCMD not 128-byte aligned, the source page not 4-KByte aligned, or either
address refused by segmentation or the canonical test: `#GP(0)`. The SECS pointer is not checked here: with
the two aligned S6 goes on, whatever it holds. That a refused pointer reports at S6, before the locks and the
EPCM, and that alignment is tested on the linear address, is the spec's decision D8 (log 23). That the event
leaves RIP as it was is the spec's decision D5 (log 24, PRESUMED). That no other agent changes anything but
regular memory during the execution is log 31 (DEDUCED). -/
def Obligations.MisalignedLinkedOperandTakesGp : Prop :=
  ∀ (s : State) (i : Instr) (o : RegOperands) (srcpge secs pcmd : Word), s.enterLeaf i = .ok () →
    s.regOperands = .ok o →
    s.readRegularWord 1 (fieldAddr o.lb s.cfg.layout.pageinfoSrcpge) = .ok srcpge →
    s.readRegularWord 2 (fieldAddr o.lb s.cfg.layout.pageinfoSecs) = .ok secs →
    s.readRegularWord 3 (fieldAddr o.lb s.cfg.layout.pageinfoSecinfo) = .ok pcmd →
    ((∀ lp ls, s.lin pcmd 128 = .ok lp → s.lin srcpge 4096 = .ok ls →
        alignedTo 7 lp = false ∨ alignedTo 12 ls = false) →
      exec i s = .next (s.afterInput.raise .gp)) ∧
    (∀ lp ls, s.lin pcmd 128 = .ok lp → s.lin srcpge 4096 = .ok ls → alignedTo 7 lp = true →
      alignedTo 12 ls = true → s.linkedOperands o.lb = .ok { lp := lp, ls := ls, secs := secs })

/-- The spec's decision D19 (40_eld_leaves.md R148, 93 U9): PAGEINFO, the PCMD or the source page inside the
EPC is refused, where the flow first reads it (the place is the model's, log 20). A conflict is what the draw
or the lock record says (log 10, DEDUCED). The pages tested and locked are those of the frames written, the
SECS that of the frame read (log 11, DESIGN CHOICE). -/
def Obligations.RegularOperandInTheEpcIsRefused : Prop :=
  ∀ (s : State) (i : Instr) (o : RegOperands) (a : Word), s.enterLeaf i = .ok () → s.regOperands = .ok o →
    (s.translate (fieldAddr o.lb s.cfg.layout.pageinfoSrcpge) .read = some a → s.inEpc a = true →
      exec i s = .refused (.regularOperandInEpc (fieldAddr o.lb s.cfg.layout.pageinfoSrcpge))) ∧
    (∀ p, s.linkedOperands o.lb = .ok p → s.acquire i o = .ok () →
      (s.translate p.lp .read = some a → s.inEpc a = true →
        exec i s = .refused (.regularOperandInEpc p.lp)) ∧
      (∀ h h', s.readHeader o.lb p.lp = .ok h → s.bindEid i h p.secs = .ok h' →
        s.translate p.ls .read = some a → s.inEpc a = true →
        exec i s = .refused (.regularOperandInEpc p.ls)))

/-! ### Locks, the VM exit and the EPCM -/

/-- 40_eld_leaves.md R123, R177: the four rows of a conflict on the target page, with the spec's decision D5
for RIP (log 24), log 10 for what a conflict is (the draw or the lock record), and log 11 for which
translation of the target is reported (that for writing). `code` and `error` stand in the exit qualification
as the parameters pack them (D29), and are read back where the packing loses nothing (93 U13); that its other
bits stay is log 29. That no memory and no EPCM entry changes is R133, with log 31 for the other agents. That
all 64 bits of RAX are written outside 64-bit mode is the spec's decision D6 (log 22, DESIGN CHOICE). -/
def Obligations.TargetConflictIsReported : Prop :=
  ∀ (s : State) (i : Instr) (o : RegOperands) (p : LinkedOperands), s.enterLeaf i = .ok () →
    s.regOperands = .ok o → s.linkedOperands o.lb = .ok p → s.targetConflict o.pc = true →
    ∃ t, exec i s = .next t ∧
      (s.vmxNonRoot = true ∧ s.epcVirtExt = true →
        t.event = some .vmExit ∧ t.vmcs.exitReason = s.cfg.sgxConflict ∧
        (s.cfg.packingOk = true →
          t.vmcs.code s.cfg = (if i.isBase then s.cfg.conflictException else s.cfg.conflictError) ∧
          t.vmcs.error s.cfg = (if i.isBase then 0 else s.cfg.epcPageConflict)) ∧
        (∀ k, (k < s.cfg.qualCode.pos ∨ s.cfg.qualCode.pos + s.cfg.qualCode.width ≤ k) →
          (k < s.cfg.qualError.pos ∨ s.cfg.qualError.pos + s.cfg.qualError.width ≤ k) →
          t.vmcs.exitQualification.getLsbD k = s.vmcs.exitQualification.getLsbD k) ∧
        t.vmcs.guestPhysical = o.pc ∧ t.vmcs.guestLinear = o.lc ∧
        t.rax = s.rax ∧ t.rflags = s.rflags) ∧
      (¬(s.vmxNonRoot = true ∧ s.epcVirtExt = true) → ConflictReported s t i)

/-- 40_eld_leaves.md R124, R143, R133, with the spec's decision D5 for RIP (log 24) and log 10 for what a
conflict is: a conflict on the VA page, in any mode. That no other agent changes the EPCM or an EPC byte
during the execution is log 31; that the page whose lock is asked for is that of the frame written is log 11.
That all 64 bits of RAX are written outside 64-bit mode is the spec's decision D6 (log 22, DESIGN CHOICE). -/
def Obligations.SlotConflictIsReported : Prop :=
  ∀ (s : State) (i : Instr) (o : RegOperands) (p : LinkedOperands), s.enterLeaf i = .ok () →
    s.regOperands = .ok o → s.linkedOperands o.lb = .ok p → s.targetConflict o.pc = false →
    s.vaConflict o.pd = true → ∃ t, exec i s = .next t ∧ ConflictReported s t i

/-- 40_eld_leaves.md R131, R143, R133, with the spec's decision D5 for RIP (log 24) and log 10 for what a
conflict is: a conflict on the SECS page of a page with a parent, in any mode; a page without one takes no
SECS lock, whatever the conflict and the pointer (R127). Which page is the SECS is log 11; that no other agent
changes the EPCM or an EPC byte during the execution is log 31. That all 64 bits of RAX are written outside
64-bit mode is the spec's decision D6 (log 22, DESIGN CHOICE). -/
def Obligations.SecsConflictIsReported : Prop :=
  ∀ (s : State) (i : Instr) (o : RegOperands) (p : LinkedOperands) (h : MacHeader),
    s.enterLeaf i = .ok () → s.regOperands = .ok o → s.linkedOperands o.lb = .ok p →
    s.acquire i o = .ok () → s.readHeader o.lb p.lp = .ok h →
    (∀ le pe, hasParent s.cfg (h.pt s.cfg.layout) = true → s.lin p.secs 4096 = .ok le →
      alignedTo 12 le = true → s.resolveEpc le = some pe →
      (s.cfg.checkSecsEpcm = true →
        (s.epcmAt pe.read).valid = true ∧ (s.epcmAt pe.read).pt = s.cfg.ptSecs) →
      s.secsConflict pe.read = true → ∃ t, exec i s = .next t ∧ ConflictReported s t i) ∧
    (hasParent s.cfg (h.pt s.cfg.layout) = false → ∀ secs, s.bindEid i h secs = .ok { h with eid := 0 })

/-- 40_eld_leaves.md R130: the other checks of the SECS operand, for a page with a parent. That a refused
pointer reports here, and alignment on the linear address, is the spec's decision D8 (log 23); that the page
must be translated for reading and for writing is its decision D14. That the event leaves RIP as it was is the
spec's decision D5 (log 24, PRESUMED). That no other agent changes anything but regular memory during the
execution is log 31 (DEDUCED). The error code of the `#PF` is a free input (log 26, DESIGN CHOICE). A conflict
is what the draw or the lock record says (log 10, DEDUCED). The pages tested and locked are those of the
frames written, the SECS that of the frame read (log 11, DESIGN CHOICE). -/
def Obligations.BadSecsOperandFaults : Prop :=
  ∀ (s : State) (i : Instr) (o : RegOperands) (p : LinkedOperands) (h : MacHeader),
    s.enterLeaf i = .ok () → s.regOperands = .ok o → s.linkedOperands o.lb = .ok p →
    s.acquire i o = .ok () → s.readHeader o.lb p.lp = .ok h →
    hasParent s.cfg (h.pt s.cfg.layout) = true →
    ((∀ le, s.lin p.secs 4096 = .ok le → alignedTo 12 le = false) →
      exec i s = .next (s.afterInput.raise .gp)) ∧
    (∀ le, s.lin p.secs 4096 = .ok le → alignedTo 12 le = true → s.resolveEpc le = none →
      exec i s = .next (s.afterInput.raise (.pf le s.input.pfErrorCode)))

/-- 40_eld_leaves.md R125: the target must be free and the slot's page a valid version array, the target
tested first, and nothing is written; S7 to S9 test nothing else. Where `phys` gives an operand two frames,
the entry is that of the frame written (log 11). That the event leaves RIP as it was is the spec's decision D5
(log 24, PRESUMED). That no other agent changes anything but regular memory during the execution is log 31
(DEDUCED). The error code of the `#PF` is a free input (log 26, DESIGN CHOICE). A conflict is what the draw or
the lock record says (log 10, DEDUCED). -/
def Obligations.EpcmTestsFault : Prop :=
  ∀ (s : State) (i : Instr) (o : RegOperands) (p : LinkedOperands), s.enterLeaf i = .ok () →
    s.regOperands = .ok o → s.linkedOperands o.lb = .ok p → s.targetConflict o.pc = false →
    s.vaConflict o.pd = false →
    ((s.epcmAt o.pc).valid = true → exec i s = .next (s.afterInput.raise (.pf o.lc s.input.pfErrorCode))) ∧
    ((s.epcmAt o.pc).valid = false → ((s.epcmAt o.pd).valid = false ∨ (s.epcmAt o.pd).pt ≠ s.cfg.ptVa) →
      exec i s = .next (s.afterInput.raise (.pf o.ld s.input.pfErrorCode))) ∧
    ((s.epcmAt o.pc).valid = false → (s.epcmAt o.pd).valid = true → (s.epcmAt o.pd).pt = s.cfg.ptVa →
      s.acquire i o = .ok ())

/-- The spec's decision D10 (20_memory.md R80, R81, R83), log 10: the target is taken Exclusive, which
any other holder blocks; the VA and SECS pages Shared, which an Exclusive holder blocks; a draw may
report a conflict besides. -/
def Obligations.LockRecordDecidesConflicts : Prop :=
  ∀ (s : State) (p : Word),
    (s.targetConflict p = true ↔ s.input.conflictEpc = true ∨
      (s.lockAt p).exclusive = true ∨ 0 < (s.lockAt p).shared) ∧
    (s.vaConflict p = true ↔ s.input.conflictVa = true ∨ (s.lockAt p).exclusive = true) ∧
    (s.secsConflict p = true ↔ s.input.conflictSecs = true ∨ (s.lockAt p).exclusive = true)

/-- 60_exceptions.md R178, 40_eld_leaves.md R123 (log 10 says what a conflict is, log 11 that the lock is
that of the frame written): no event but a target conflict in VMX non-root operation with the extensions
enabled is a VM exit. -/
def Obligations.VmExitOnlyOnTargetConflict : Prop :=
  ∀ (s t : State) (i : Instr), s.event = none → exec i s = .next t → t.event = some .vmExit →
    ∃ o, s.regOperands = .ok o ∧ s.targetConflict o.pc = true ∧ s.vmxNonRoot = true ∧ s.epcVirtExt = true

/-- 60_exceptions.md R177, R179 (with the spec's decision D21): a VM exit leaves VMX non-root operation,
records the RIP of the `ENCLS`, and changes no register, flag, EPCM entry or EPC byte of the guest, nor does
another agent change an EPC byte during it (log 31). That the event leaves RIP as it was is the spec's
decision D5 (log 24, PRESUMED). What else a VM exit does is the spec's decision D21 (log 29, DESIGN CHOICE).
-/
def Obligations.VmExitLeavesTheGuestUntouched : Prop :=
  ∀ (s t : State) (i : Instr), s.event = none → exec i s = .next t → t.event = some .vmExit →
    Keeps s t ∧ t.rax = s.rax ∧ t.rflags = s.rflags ∧ t.rip = s.rip ∧ t.epcm = s.epcm ∧
    SameEpcBytes s t ∧ t.vmxNonRoot = false ∧ t.vmcs.guestRip = s.rip

/-! ### The header and the arguments of the decryption -/

/-- 40_eld_leaves.md R132: the EID bound is the parent's for PT_REG, PT_TCS and PT_TRIM, and 0 for every
other page type; the rest of the header is kept. The value is read little-endian (the spec's decision D1,
log 28), at the translation for reading (log 11). -/
def Obligations.EidIsTheParentsOrZero : Prop :=
  ∀ (s : State) (i : Instr) (h h' : MacHeader) (secs : Word), s.bindEid i h secs = .ok h' →
    h'.secinfo = h.secinfo ∧ h'.rsvd = h.rsvd ∧ h'.linaddr = h.linaddr ∧
    ((h.pt s.cfg.layout = s.cfg.ptReg ∨ h.pt s.cfg.layout = s.cfg.ptTcs ∨
        h.pt s.cfg.layout = s.cfg.ptTrim) →
      ∃ le pe, s.lin secs 4096 = .ok le ∧ s.resolveEpc le = some pe ∧
        h'.eid = leWord (Memory.read s.mem (pe.read.toNat + s.cfg.layout.secsEid) 8)) ∧
    (h.pt s.cfg.layout ≠ s.cfg.ptReg → h.pt s.cfg.layout ≠ s.cfg.ptTcs →
      h.pt s.cfg.layout ≠ s.cfg.ptTrim → h'.eid = 0)

/-- 20_memory.md R76, 40_eld_leaves.md R129: the 128 bytes hold the four fields at their offsets and are
zero elsewhere, for a layout whose fields lie apart (93 U13). That LINADDR and EID stand little-endian is
the spec's decision D1 (log 28, PRESUMED); that SECINFO has 64 bytes and RSVD 40 is log 27 (PRESUMED). -/
def Obligations.HeaderBytesAreTheFourFields : Prop :=
  ∀ (l : Layout) (h : MacHeader), l.headerOk = true → h.secinfo.length = 64 → h.rsvd.length = 40 →
    slice (h.bytes l).toList l.headerSecinfo 64 = h.secinfo ∧
    slice (h.bytes l).toList l.headerRsvd 40 = h.rsvd ∧
    leWord (slice (h.bytes l).toList l.headerLinaddr 8) = h.linaddr ∧
    leWord (slice (h.bytes l).toList l.headerEid 8) = h.eid ∧
    ∀ k < 128, (k < l.headerSecinfo.val ∨ l.headerSecinfo.val + 64 ≤ k) →
      (k < l.headerRsvd.val ∨ l.headerRsvd.val + 40 ≤ k) →
      (k < l.headerLinaddr.val ∨ l.headerLinaddr.val + 8 ≤ k) →
      (k < l.headerEid.val ∨ l.headerEid.val + 8 ≤ k) → (h.bytes l).toList[k]? = some 0

/-- The spec's decision D18 (40_eld_leaves.md R135, log 25): the counter holds all 64 bits of the version at
bits 95 to 32, and 0 elsewhere. -/
def Obligations.CounterHoldsTheWholeVersion : Prop :=
  ∀ v : Word, (counterOf v).extractLsb' 32 64 = v ∧ (counterOf v).extractLsb' 0 32 = 0 ∧
    (counterOf v).extractLsb' 96 32 = 0

/-- 93 U3 and U4 (00_scope.md R7), log 18: the two switches that add a check, each with its fault and its
place. With CHECK_SECINFO_RESERVED on, each of five contents 93 U3 lists takes `#GP(0)` at S11: a reserved
FLAGS bit, another SECINFO byte, an RSVD byte, a page type that is none of the five, a LINADDR that is not
4-KByte aligned; a PCMD clear of all passes S11, and with the switch off every PCMD does. The out-of-range
LINADDR of that list is not tested, since the spec gives no range (log 18). With CHECK_SECS_EPCM on, the entry
tested is that of the frame read (log 11). That the event leaves RIP as it was is the spec's decision D5 (log
24, PRESUMED). That no other agent changes anything but regular memory during the execution is log 31
(DEDUCED). The error code of the `#PF` is a free input (log 26, DESIGN CHOICE). A conflict is what the draw or
the lock record says (log 10, DEDUCED). -/
def Obligations.SwitchesAddTheirFaults : Prop :=
  ∀ (s : State) (i : Instr) (o : RegOperands) (p : LinkedOperands) (scratch : List Byte) (linaddr : Word),
    s.enterLeaf i = .ok () → s.regOperands = .ok o → s.linkedOperands o.lb = .ok p →
    s.acquire i o = .ok () → s.readRegular 4 p.lp 128 = .ok scratch →
    s.readRegularWord 5 (fieldAddr o.lb s.cfg.layout.pageinfoLinaddr) = .ok linaddr →
    (∀ h : MacHeader, h = { secinfo := slice scratch s.cfg.layout.pcmdSecinfo 64
                            rsvd := slice scratch s.cfg.layout.pcmdRsvd 40
                            linaddr := linaddr
                            eid := 0 } →
      (s.cfg.checkSecinfoReserved = true → ¬SecinfoClear s.cfg h →
        exec i s = .next (s.afterInput.raise .gp)) ∧
      (s.cfg.checkSecinfoReserved = true → SecinfoClear s.cfg h → s.readHeader o.lb p.lp = .ok h) ∧
      (s.cfg.checkSecinfoReserved = false → s.readHeader o.lb p.lp = .ok h)) ∧
    (∀ h le pe, s.readHeader o.lb p.lp = .ok h → hasParent s.cfg (h.pt s.cfg.layout) = true →
      s.lin p.secs 4096 = .ok le → alignedTo 12 le = true → s.resolveEpc le = some pe →
      s.cfg.checkSecsEpcm = true →
      ((s.epcmAt pe.read).valid = false ∨ (s.epcmAt pe.read).pt ≠ s.cfg.ptSecs) →
      exec i s = .next (s.afterInput.raise (.pf le s.input.pfErrorCode)))

/-! ### The load -/

/-- 40_eld_leaves.md R149 (with 90 C13): a load that passes every check before the copy ends in success, the
MAC error code or the `#GP(0)` of the version check; it takes no page fault after the copy. The entries and
locks its checks ask for are those of the frames written (log 11); that all of RAX is written outside 64-bit
mode is the spec's decision D6 (log 22). That no other agent changes anything but regular memory during the
execution is log 31 (DEDUCED). A conflict is what the draw or the lock record says (log 10, DEDUCED). The
address checks passed before are those of log 23 (PRESUMED). -/
def Obligations.CheckedLoadEndsWithoutPageFault : Prop :=
  ∀ (s : State) (i : Instr) (v : LoadView), s.event = none → CanLoad s i v →
    ∃ t, exec i s = .next t ∧
      ((t.event = none ∧ t.rax = 0 ∧ t.rflags.zf = false) ∨
       (t.event = none ∧ t.rax = s.cfg.macCompareFail ∧ t.rflags.zf = true) ∨
       (t.event = some .gp ∧ s.cfg.vaCommit = .literal ∧ v.slotAtCheck s ≠ 0))

/-- 40_eld_leaves.md R137, 20_memory.md R77, R79: a MAC that differs from the one read again (not from the
copy of the PCMD) returns SGX_MAC_COMPARE_FAIL, for all four leaves alike, with the slot and the EPCM as they
were. That the target page holds the decryption's output is the spec's decision D15, a DESIGN CHOICE (log 21;
93 U5 says any value); that no other agent changes an EPC byte meanwhile is log 31. The target page and the
slot are those of the frames written (log 11); RAX outside 64-bit mode is the spec's decision D6 (log 22). A
conflict is what the draw or the lock record says (log 10, DEDUCED). The address checks passed before are
those of log 23 (PRESUMED). -/
def Obligations.MacMismatchReturnsItsCode : Prop :=
  ∀ (s : State) (i : Instr) (v : LoadView) (mac : List Byte), CanLoad s i v →
    v.storedMac s = .ok mac → (v.outputs s).2 ≠ leMac mac →
    ∃ t, exec i s = .next t ∧ t.event = s.event ∧ t.rax = s.cfg.macCompareFail ∧
      t.rflags = { s.rflags with zf := true, cf := false, pf := false, af := false, of := false, sf := false } ∧
      t.epcm = s.epcm ∧ Memory.read t.mem v.pc.toNat 4096 = (v.outputs s).1.toList ∧
      Memory.read t.mem v.pd.toNat 8 = Memory.read s.mem v.pd.toNat 8 ∧
      (∀ x, s.epcByte x = true → ¬inPage v.pc x → Memory.byte t.mem x = Memory.byte s.mem x)

/-- 40_eld_leaves.md R138 under `VA_COMMIT = LITERAL` (the spec's decision D9, log 17): a used slot takes
`#GP(0)` after the target page was overwritten, with the EPCM and the slot as they were, the page holding the
plain text (the spec's decision D15, log 21); at a slot that reads 0 the version is written and the load
succeeds. A slot read in another frame than the target page, as every slot with one frame is (log 11), reads
at the check what it read before the step, the version (R134). RAX outside 64-bit mode is the spec's decision
D6 (log 22). That no other agent changes anything but regular memory during the execution is log 31 (DEDUCED).
A conflict is what the draw or the lock record says (log 10, DEDUCED). The address checks passed before are
those of log 23 (PRESUMED). -/
def Obligations.LiteralVersionCheck : Prop :=
  ∀ (s : State) (i : Instr) (v : LoadView) (mac : List Byte), CanLoad s i v →
    v.storedMac s = .ok mac → (v.outputs s).2 = leMac mac → s.cfg.vaCommit = .literal →
    (v.slotAtCheck s ≠ 0 → ∃ t, exec i s = .next t ∧ t.event = some .gp ∧ t.epcm = s.epcm ∧
      Memory.read t.mem v.pd.toNat 8 = Memory.read s.mem v.pd.toNat 8 ∧
      Memory.read t.mem v.pc.toNat 4096 = (v.outputs s).1.toList) ∧
    (v.slotAtCheck s = 0 → ∃ t, exec i s = .next t ∧ t.event = s.event ∧ t.rax = 0 ∧
      leWord (Memory.read t.mem v.pd.toNat 8) = v.version s) ∧
    (pageNo v.rd ≠ pageNo v.pc → v.version s = leWord (Memory.read s.mem v.rd.toNat 8) ∧
      v.slotAtCheck s = v.version s) ∧
    (v.rd = v.pd → pageNo v.rd ≠ pageNo v.pc)

/-- 40_eld_leaves.md R138 under `VA_COMMIT = FREE_SLOT` (general knowledge, K25): no zero test, and a
successful load empties the slot (log 17), that of the frame written (log 11). RAX outside 64-bit mode is the
spec's decision D6 (log 22). That no other agent changes anything but regular memory during the execution is
log 31 (DEDUCED). A conflict is what the draw or the lock record says (log 10, DEDUCED). The address checks
passed before are those of log 23 (PRESUMED). The slot is little-endian by the spec's decision D1 (log 28,
PRESUMED). -/
def Obligations.FreeSlotVersionCommit : Prop :=
  ∀ (s : State) (i : Instr) (v : LoadView) (mac : List Byte), CanLoad s i v →
    v.storedMac s = .ok mac → (v.outputs s).2 = leMac mac → s.cfg.vaCommit = .freeSlot →
    ∃ t, exec i s = .next t ∧ t.event = s.event ∧ t.rax = 0 ∧
      leWord (Memory.read t.mem v.pd.toNat 8) = 0

/-- 40_eld_leaves.md R139: six fields of the target's EPCM entry, that of the frame written (log 11), come
from the authenticated header. That no other agent changes anything but regular memory during the execution is
log 31 (DEDUCED). A conflict is what the draw or the lock record says (log 10, DEDUCED). The address checks
passed before are those of log 23 (PRESUMED). The widths of the fields of FLAGS are log 27 (PRESUMED). -/
def Obligations.SuccessCommitsTheHeader : Prop :=
  ∀ (s : State) (i : Instr) (v : LoadView) (mac : List Byte), Succeeds s i v mac →
    ∃ t, exec i s = .next t ∧ ∃ f, f = (v.header s.cfg).flags s.cfg.layout ∧
      (t.epcmAt v.pc).pt = f.extractLsb' s.cfg.layout.flagPt 8 ∧
      ((t.epcmAt v.pc).rwx.getLsbD 0 = f.getLsbD s.cfg.layout.flagR ∧
        (t.epcmAt v.pc).rwx.getLsbD 1 = f.getLsbD s.cfg.layout.flagW ∧
        (t.epcmAt v.pc).rwx.getLsbD 2 = f.getLsbD s.cfg.layout.flagX) ∧
      (t.epcmAt v.pc).pending = f.getLsbD s.cfg.layout.flagPending ∧
      (t.epcmAt v.pc).modified = f.getLsbD s.cfg.layout.flagModified ∧
      (t.epcmAt v.pc).pr = f.getLsbD s.cfg.layout.flagPr ∧
      (t.epcmAt v.pc).enclaveAddress = v.linaddr

/-- 40_eld_leaves.md R140: BLOCKED is set by ELDB and ELDBC for page types other than PT_SECS and PT_VA, and
cleared in every other case, in the entry of the frame written (log 11). That no other agent changes anything
but regular memory during the execution is log 31 (DEDUCED). A conflict is what the draw or the lock record
says (log 10, DEDUCED). The address checks passed before are those of log 23 (PRESUMED). The widths of the
fields of FLAGS are log 27 (PRESUMED). -/
def Obligations.BlockedFollowsLeafAndPageType : Prop :=
  ∀ (s : State) (i : Instr) (v : LoadView) (mac : List Byte), Succeeds s i v mac →
    ∃ t, exec i s = .next t ∧
      ((t.epcmAt v.pc).blocked = true ↔ (i = .eldb ∨ i = .eldbc) ∧
        (v.header s.cfg).pt s.cfg.layout ≠ s.cfg.ptSecs ∧ (v.header s.cfg).pt s.cfg.layout ≠ s.cfg.ptVa)

/-- 40_eld_leaves.md R142: the page is valid, all 64 bits of RAX are 0 and ZF is 0. That RAX[63:32] is 0
outside 64-bit mode too is the spec's decision D6, a DESIGN CHOICE (log 22; 93 U7 says any value there); the
EPCM entry is that of the frame written (log 11). That no other agent changes anything but regular memory
during the execution is log 31 (DEDUCED). A conflict is what the draw or the lock record says (log 10,
DEDUCED). The address checks passed before are those of log 23 (PRESUMED). -/
def Obligations.SuccessIsReported : Prop :=
  ∀ (s : State) (i : Instr) (v : LoadView) (mac : List Byte), Succeeds s i v mac →
    ∃ t, exec i s = .next t ∧ (t.epcmAt v.pc).valid = true ∧ t.rax = 0 ∧ t.rflags.zf = false

/-- 40_eld_leaves.md R141: ENCLAVECONTEXT of a loaded SECS holds the translation of the page, that for writing
(log 11), little-endian (the spec's decision D1, log 28). That no other agent changes anything but regular
memory during the execution is log 31 (DEDUCED). A conflict is what the draw or the lock record says (log 10,
DEDUCED). The address checks passed before are those of log 23 (PRESUMED). -/
def Obligations.SecsLoadStoresItsTranslation : Prop :=
  ∀ (s : State) (i : Instr) (v : LoadView) (mac : List Byte), Succeeds s i v mac →
    (v.header s.cfg).pt s.cfg.layout = s.cfg.ptSecs →
    ∃ t, exec i s = .next t ∧ s.translate v.lc .write = some v.pc ∧
      leWord (Memory.read t.mem (v.pc.toNat + s.cfg.layout.secsEnclaveContext) 8) = v.pc

/-- 20_memory.md R77, 40_eld_leaves.md R133, R136: the target page holds the plain text, apart from
ENCLAVECONTEXT of a loaded SECS; and where the page is read in the frame it is written in, as every page with
one frame is (log 11), what was decrypted is the source page. That no other agent changes anything but regular
memory during the execution is log 31 (DEDUCED). A conflict is what the draw or the lock record says (log 10,
DEDUCED). The address checks passed before are those of log 23 (PRESUMED). The form of the counter is the
spec's decision D18 (log 25, DESIGN CHOICE). -/
def Obligations.SuccessFillsTheTargetPage : Prop :=
  ∀ (s : State) (i : Instr) (v : LoadView) (mac : List Byte), Succeeds s i v mac →
    ∃ t, exec i s = .next t ∧ ∀ (k : Nat) (hk : k < 4096),
      ((v.header s.cfg).pt s.cfg.layout = s.cfg.ptSecs →
        k < s.cfg.layout.secsEnclaveContext.val ∨ s.cfg.layout.secsEnclaveContext.val + 8 ≤ k) →
      Memory.byte t.mem (v.pc.toNat + k) = (v.outputs s).1[k] ∧
      (v.rc = v.pc → v.outputs s = Config.aesGcmDec s.crBasePk (counterOf (v.version s))
        ((v.header s.cfg).bytes s.cfg.layout) 128 (pageBytes v.source) 4096)

/-- 10_state.md R25, R27, R21, 40_eld_leaves.md R144. RIP is advanced by ENCLS_LEN when the execution
completes and stays where it was when it does not (the spec's decision D5, log 24); ZF and all 64 bits of RAX
(outside 64-bit mode the spec's decision D6, log 22) are those of the outcome, and RAX and the flags stay when
it does not complete; the bits of RFLAGS that are no flag here always stay. That no other agent changes
anything but regular memory during the execution is log 31 (DEDUCED). -/
def Obligations.CompletionAloneWritesRipRaxAndFlags : Prop :=
  ∀ (s t : State) (i : Instr), s.event = none → exec i s = .next t →
    (t.event = none → t.rip = s.rip + BitVec.ofNat 64 s.cfg.enclsBytes.length ∧
      t.rflags.other = s.rflags.other ∧
      ((t.rflags.zf = false ∧ t.rax = 0) ∨ (t.rflags.zf = true ∧ t.rax = s.cfg.macCompareFail) ∨
       (t.rflags.zf = true ∧ i.isBase = false ∧ t.rax = s.cfg.epcPageConflict))) ∧
    (t.event ≠ none → t.rip = s.rip ∧ t.rflags = s.rflags ∧ t.rax = s.rax)

/-- 40_eld_leaves.md R143: CF, PF, AF, OF and SF are cleared on success and on every error-code return;
ERROR_EXIT leaves ZF as its path set it, restores no memory and no EPCM entry and records no lock outcome.
That an error-code return leaves the EPCM as it was is 10_state.md R35; that no other agent changes the
EPCM or a lock record during the execution is log 31. -/
def Obligations.ErrorExitClearsTheFiveFlags : Prop :=
  (∀ (s t : State) (i : Instr), s.event = none → exec i s = .next t → t.event = none →
    t.rflags.cf = false ∧ t.rflags.pf = false ∧ t.rflags.af = false ∧ t.rflags.of = false ∧
    t.rflags.sf = false ∧ t.locks = s.locks ∧ (t.rflags.zf = true → t.epcm = s.epcm)) ∧
  ∀ (u : State) (code : Word) (zf : Bool), (u.complete code zf).rflags.zf = zf ∧
    (u.complete code zf).mem = u.mem ∧ (u.complete code zf).epcm = u.epcm ∧
    (u.complete code zf).locks = u.locks

/-! ### What an execution leaves unchanged -/

/-- 10_state.md R22 to R24, R28 to R31, R38, 40_eld_leaves.md R150: no outcome of a leaf writes the
operand registers, DS, CPL, the mode, the extension control, the key, the lock record or a parameter; and
one that is no VM exit writes no VMCS field and does not leave VMX non-root operation. That no other agent
changes one of these during the execution is log 31. -/
def Obligations.LeavesKeepOperandsAndSystemState : Prop :=
  ∀ (s t : State) (i : Instr), exec i s = .next t → Keeps s t ∧
    (t.event ≠ some .vmExit → t.vmcs = s.vmcs ∧ t.vmxNonRoot = s.vmxNonRoot)

/-- 10_state.md R40, 40_eld_leaves.md R146: regular memory is only read; a byte of it changes only where
another agent wrote it during the execution (20_memory.md R84, log 13). -/
def Obligations.RegularMemoryIsOnlyRead : Prop :=
  ∀ (s t : State) (i : Instr), exec i s = .next t → ∀ x, s.epcByte x = false →
    Memory.byte t.mem x = Memory.byte s.landed x ∧
    ((∀ w ∈ s.input.during, w.addr.toNat ≠ x) → Memory.byte t.mem x = Memory.byte s.mem x)

/-- 40_eld_leaves.md R146, 20_memory.md R62: of the EPC only the target page and the VA slot are stored
to, at the addresses the operands resolve to for writing; an execution whose operands do not resolve stores
nothing (log 11). That no other agent stores to the EPC meanwhile is log 31. -/
def Obligations.StoresStayInTargetPageAndSlot : Prop :=
  ∀ (s t : State) (i : Instr), exec i s = .next t →
    (∀ o, s.regOperands = .ok o → ∀ x, s.epcByte x = true → ¬inPage o.pc x → ¬inSlot o.pd x →
      Memory.byte t.mem x = Memory.byte s.mem x) ∧
    (∀ k, s.regOperands = .error k → SameEpcBytes s t)

/-- 40_eld_leaves.md R133, 10_state.md R35: a fault, VM exit or conflict return before the copy leaves
the EPC bytes and every EPCM entry as they were (no other agent changes them meanwhile: log 31). -/
def Obligations.StopsBeforeTheCopyStoreNothing : Prop :=
  ∀ (s t : State) (i : Instr) (k : Stop), s.check i = .error k → exec i s = .next t →
    SameEpcBytes s t ∧ t.epcm = s.epcm

/-- 10_state.md R34, R35: only a success writes the EPCM, and only the entry of the target page, the frame
written (log 11). That no other agent changes the EPCM during the execution is log 31. -/
def Obligations.EpcmChangesOnlyOnSuccessAtTheTarget : Prop :=
  ∀ (s t : State) (i : Instr), s.event = none → exec i s = .next t →
    (t.event ≠ none ∨ t.rflags.zf = true → t.epcm = s.epcm) ∧
    (∀ o, s.regOperands = .ok o → ∀ f, f ≠ frameOf o.pc →
      Sparse.get EpcmEntry.free f t.epcm = Sparse.get EpcmEntry.free f s.epcm) ∧
    (∀ k, s.regOperands = .error k → t.epcm = s.epcm)

/-- 60_exceptions.md R173 (with the spec's decision D5): after a fault the registers, the flags, RIP, the
VMCS, the EPCM and every EPC byte outside the target page, the VA slot among them, are as before (no other
agent changes them meanwhile: log 31). The target page is that of the frame written (log 11). That the event
leaves RIP as it was is the spec's decision D5 (log 24, PRESUMED). -/
def Obligations.FaultsLeaveAllButTheTargetPage : Prop :=
  ∀ (s t : State) (i : Instr), s.event = none → exec i s = .next t →
    (t.event = some .gp ∨ ∃ a e, t.event = some (.pf a e)) →
    Keeps s t ∧ t.rax = s.rax ∧ t.rflags = s.rflags ∧ t.rip = s.rip ∧ t.vmcs = s.vmcs ∧
    t.vmxNonRoot = s.vmxNonRoot ∧ t.epcm = s.epcm ∧
    (∀ x, s.epcByte x = true → (∀ o, s.regOperands = .ok o → ¬inPage o.pc x) →
      Memory.byte t.mem x = Memory.byte s.mem x)

/-- 40_eld_leaves.md R113: a conflict return changes no EPC byte and no EPCM entry (nor does another agent
meanwhile: log 31), and only ELDBC and ELDUC give it, the two error codes being non-zero and distinct
(00_scope.md R7). That all 64 bits of RAX are written outside 64-bit mode is the spec's decision D6 (log 22,
DESIGN CHOICE). -/
def Obligations.ConflictReturnChangesNoPage : Prop :=
  ∀ (s t : State) (i : Instr), s.event = none → s.cfg.codesOk = true → exec i s = .next t →
    t.event = none → t.rax = s.cfg.epcPageConflict →
    i.isBase = false ∧ t.rflags.zf = true ∧ SameEpcBytes s t ∧ t.epcm = s.epcm

/-- 40_eld_leaves.md R125, 10_state.md R34: no execution changes the EPCM entry of a page that was valid (nor
does another agent during it: log 31). The pages tested and locked are those of the frames written, the SECS
that of the frame read (log 11, DESIGN CHOICE). -/
def Obligations.ValidPagesKeepTheirEntries : Prop :=
  ∀ (s t : State) (i : Instr), exec i s = .next t → ∀ f,
    (Sparse.get EpcmEntry.free f s.epcm).valid = true →
    Sparse.get EpcmEntry.free f t.epcm = Sparse.get EpcmEntry.free f s.epcm

/-- 40_eld_leaves.md R125, R138, R146: no execution changes a byte of a valid EPC page that is not a
version array, whatever the operands, the parameters and the translation are. That other agents write
regular memory only during an execution, so that no write of theirs changes such a byte, is log 31
(DEDUCED); that the entries tested are those of the frames written is log 11. -/
def Obligations.ValidPagesKeepTheirBytes : Prop :=
  ∀ (s t : State) (i : Instr), exec i s = .next t → ∀ x, s.epcByte x = true →
    (Sparse.get EpcmEntry.free (x / 4096) s.epcm).valid = true →
    (Sparse.get EpcmEntry.free (x / 4096) s.epcm).pt ≠ s.cfg.ptVa →
    Memory.byte t.mem x = Memory.byte s.mem x

/-! ### The leaves compared, and aliasing -/

/-- 40_eld_leaves.md R150: ELDB and ELDU, and ELDBC and ELDUC, end alike but for the BLOCKED bit of the
target's EPCM entry (that of the frame written, log 11). That two leaves end with the same RAX[63:32] outside
64-bit mode is the spec's decision D6 (log 22, DESIGN CHOICE). -/
def Obligations.SiblingsDifferOnlyInBlocked : Prop :=
  ∀ (s : State) (i j : Instr), i.isBase = j.isBase →
    match exec i s, exec j s with
    | .next t, .next u => u = { t with epcm := u.epcm } ∧
        (∀ f, Sparse.get EpcmEntry.free f u.epcm =
          { Sparse.get EpcmEntry.free f t.epcm with
            blocked := (Sparse.get EpcmEntry.free f u.epcm).blocked }) ∧
        ∀ f, (∀ o, s.regOperands = .ok o → f ≠ frameOf o.pc) →
          Sparse.get EpcmEntry.free f u.epcm = Sparse.get EpcmEntry.free f t.epcm
    | .fault f, .fault f' => f = f'
    | .refused r, .refused r' => r = r'
    | _, _ => False

/-- 40_eld_leaves.md R110, 30_encoding.md R94: with both features present and no lock conflict, by draw or by
lock record (log 10), ELDBC is ELDB and ELDUC is ELDU. That two leaves end with the same RAX[63:32] outside
64-bit mode is the spec's decision D6 (log 22, DESIGN CHOICE). -/
def Obligations.ConflictFreeVariantsAgree : Prop :=
  ∀ (s : State) (i j : Instr), i.isBlocking = j.isBlocking →
    s.cfg.hasSgx1 = true → s.cfg.hasEldbcElduc = true →
    (∀ p, s.targetConflict p = false ∧ s.vaConflict p = false ∧ s.secsConflict p = false) →
    exec i s = exec j s

/-- 40_eld_leaves.md R148, first row: a VA slot inside the target page (the frames written, log 11) is always
`#PF`, at the target if the page is valid, else at the slot. That the event leaves RIP as it was is the spec's
decision D5 (log 24, PRESUMED). That no other agent changes anything but regular memory during the execution
is log 31 (DEDUCED). The error code of the `#PF` is a free input (log 26, DESIGN CHOICE). A conflict is what
the draw or the lock record says (log 10, DEDUCED). -/
def Obligations.SlotInsideTheTargetPageFaults : Prop :=
  ∀ (s : State) (i : Instr) (o : RegOperands) (p : LinkedOperands), s.enterLeaf i = .ok () →
    s.regOperands = .ok o → s.linkedOperands o.lb = .ok p → s.targetConflict o.pc = false →
    s.vaConflict o.pd = false → pageNo o.pd = pageNo o.pc →
    exec i s = .next (s.afterInput.raise
      (.pf (if (s.epcmAt o.pc).valid then o.lc else o.ld) s.input.pfErrorCode))

/-! ### Invariants of the machine -/

/-- Soundness (10_state.md R33, R41, 93 U13, 60_exceptions.md R177) is kept by every step, other agents'
actions before it included; what those can be is log 31 and log 13. -/
def Obligations.EveryStepKeepsTheStateSound : Prop :=
  ∀ s t : State, s.Sound → step s = .next t → t.Sound

/-- The launch state is sound, and records no outcome (70_reset_and_hazards.md R210, NoFaultRecorded);
its values are the model's (log 1 to 13). -/
def Obligations.LaunchStateIsSound : Prop :=
  State.reset.Sound ∧ State.reset.event = none ∧ State.reset.cpl = 0

/-- 10_state.md R38, 20_memory.md R66, 00_scope.md R7: the key, the parameters, the EPC and the
translation are the same after every step, and so are CPL, the mode and DS (60_exceptions.md R183). A step
includes what other agents do before it; that none of them, the monitor of R187 among them, changes the
extension control, the translation or any other of these is log 31 (DEDUCED). -/
def Obligations.NoStepChangesParametersOrMode : Prop :=
  ∀ s t : State, step s = .next t →
    t.cfg = s.cfg ∧ t.crBasePk = s.crBasePk ∧ t.epcFrames = s.epcFrames ∧ t.pageMap = s.pageMap ∧
    t.cpl = s.cpl ∧ t.mode = s.mode ∧ t.ds = s.ds ∧ t.epcVirtExt = s.epcVirtExt ∧
    (t.vmxNonRoot = s.vmxNonRoot ∨ t.event = some .vmExit)
end

