-- ==== Sys2Proof/Laws/Bits.lean ====
section
/-! SUPPORT. The laws of byte order, slices, sub-fields and page arithmetic. -/

namespace Sys2Proof.Machine

@[simp] theorem length_leBytes (n v : Nat) : (leBytes n v).length = n := by
  induction n generalizing v with
  | zero => rfl
  | succ n ih => simp [leBytes, ih]

@[simp] theorem length_wordBytes (w : Word) : (wordBytes w).length = 8 := length_leBytes 8 _

theorem leNat_leBytes (n v : Nat) : leNat (leBytes n v) = v % 256 ^ n := by
  induction n generalizing v with
  | zero => simp [leBytes, leNat, Nat.mod_one]
  | succ n ih =>
    rw [leBytes, leNat, ih, BitVec.toNat_ofNat, show (256 : Nat) ^ (n + 1) = 256 * 256 ^ n from Nat.pow_succ',
      Nat.mod_mul]

/-- A 64-bit value read back from its bytes. -/
@[simp] theorem leWord_wordBytes (w : Word) : leWord (wordBytes w) = w := by
  apply BitVec.eq_of_toNat_eq
  rw [leWord, wordBytes, leNat_leBytes, BitVec.toNat_ofNat]
  have := w.isLt
  omega

/-- A 128-bit value read back from its bytes. -/
theorem leMac_leBytes (v : BitVec 128) : leMac (leBytes 16 v.toNat) = v := by
  apply BitVec.eq_of_toNat_eq
  rw [leMac, leNat_leBytes, BitVec.toNat_ofNat]
  have := v.isLt
  omega

/-! ### Sub-fields of a register -/

theorem BitField.getLsbD_mask (f : BitField) (k : Nat) :
    f.mask.getLsbD k = decide (k < 64 ∧ f.pos ≤ k ∧ k < f.pos + f.width) := by
  unfold BitField.mask
  rw [BitVec.getLsbD_shiftLeft, BitVec.getLsbD_setWidth, BitVec.getLsbD_allOnes, Bool.eq_iff_iff]
  simp only [Bool.and_eq_true, Bool.not_eq_true', decide_eq_true_eq, decide_eq_false_iff_not]
  omega

theorem BitField.getLsbD_get (f : BitField) (w : Word) (k : Nat) :
    (f.get w).getLsbD k = (decide (f.pos + k < 64 ∧ k < f.width) && w.getLsbD (f.pos + k)) := by
  unfold BitField.get
  rw [BitVec.getLsbD_ushiftRight, BitVec.getLsbD_and, f.getLsbD_mask, Bool.and_comm]
  congr 1
  rw [decide_eq_decide]
  omega

theorem BitField.getLsbD_put (f : BitField) (w v : Word) (k : Nat) : (f.put w v).getLsbD k =
    if k < 64 ∧ f.pos ≤ k ∧ k < f.pos + f.width then v.getLsbD (k - f.pos) else w.getLsbD k := by
  unfold BitField.put
  rw [BitVec.getLsbD_or, BitVec.getLsbD_and, BitVec.getLsbD_and, BitVec.getLsbD_not, f.getLsbD_mask,
    BitVec.getLsbD_shiftLeft]
  by_cases h : k < 64
  · by_cases hf : f.pos ≤ k ∧ k < f.pos + f.width
    · simp [h, hf]
    · simp [h, hf]
  · simp [h, BitVec.getLsbD_of_ge w k (by omega)]

/-- A bit outside a sub-field keeps its value. -/
theorem BitField.getLsbD_put_out (f : BitField) (w v : Word) {k : Nat}
    (h : k < f.pos ∨ f.pos + f.width ≤ k) : (f.put w v).getLsbD k = w.getLsbD k := by
  rw [f.getLsbD_put, if_neg (by omega)]

/-- A value that fits is read back. -/
theorem BitField.get_put (f : BitField) (w v : Word) (h : fieldHolds f v = true) : f.get (f.put w v) = v := by
  obtain ⟨hp, hv⟩ : f.pos + f.width ≤ 64 ∧ v.toNat < 2 ^ f.width := by simpa [fieldHolds] using h
  apply BitVec.eq_of_getLsbD_eq
  intro k hk
  rw [f.getLsbD_get, f.getLsbD_put]
  by_cases hw : k < f.width
  · rw [if_pos (by omega), Nat.add_sub_cancel_left, decide_eq_true (by omega), Bool.true_and]
  · rw [decide_eq_false (by omega), Bool.false_and]
    exact (Nat.testBit_lt_two_pow (hv.trans_le (Nat.pow_le_pow_right (by omega) (by omega)))).symm

/-- A write to one sub-field leaves another. -/
theorem BitField.get_put_apart (f g : BitField) (w v : Word)
    (h : disjointRanges f.pos f.width g.pos g.width = true) : f.get (g.put w v) = f.get w := by
  have h : f.pos + f.width ≤ g.pos ∨ g.pos + g.width ≤ f.pos := by simpa [disjointRanges] using h
  apply BitVec.eq_of_getLsbD_eq
  intro k hk
  rw [f.getLsbD_get, f.getLsbD_get]
  by_cases hw : k < f.width
  · rw [g.getLsbD_put_out _ _ (by omega)]
  · rw [decide_eq_false (by omega), Bool.false_and, Bool.false_and]

/-! ### Pages -/

theorem pageNo_toNat (a : Word) : (pageNo a).toNat = a.toNat / 4096 := by
  unfold pageNo
  rw [BitVec.extractLsb'_toNat]
  have := a.isLt
  rw [Nat.shiftRight_eq_div_pow, Nat.mod_eq_of_lt]
  · omega

/-- An address is its page number and its offset in the page. -/
theorem frameOf_eq (p : Word) : frameOf p = p.toNat / 4096 := pageNo_toNat p

theorem pageNo_append (f : FrameNo) (o : BitVec 12) : pageNo (f ++ o : Word) = f := by
  apply BitVec.eq_of_toNat_eq
  rw [pageNo_toNat, BitVec.toNat_append]
  have := o.isLt
  rw [← Nat.shiftLeft_add_eq_or_of_lt this, Nat.shiftLeft_eq]
  omega

theorem toNat_append_offset (f : FrameNo) (o : BitVec 12) : (f ++ o : Word).toNat = f.toNat * 4096 + o.toNat := by
  rw [BitVec.toNat_append]
  have := o.isLt
  rw [← Nat.shiftLeft_add_eq_or_of_lt this, Nat.shiftLeft_eq]

theorem toNat_offset (a : Word) : (a.extractLsb' 0 12 : BitVec 12).toNat = a.toNat % 4096 := by
  rw [BitVec.extractLsb'_toNat]
  simp

theorem alignedTo_iff (k : Nat) (a : Word) : alignedTo k a = true ↔ a.toNat % 2 ^ k = 0 := by
  simp [alignedTo]

/-- A field inside an aligned structure lies in the structure's page (40_eld_leaves.md R145). -/
theorem pageNo_fieldAddr (a : Word) (k off : Nat) (hk : k ≤ 12) (ha : alignedTo k a = true) (ho : off < 2 ^ k) :
    pageNo (a + BitVec.ofNat 64 off) = pageNo a := by
  apply BitVec.eq_of_toNat_eq
  rw [alignedTo_iff] at ha
  have hlt := a.isLt
  obtain ⟨q, hq⟩ : 2 ^ k ∣ a.toNat := Nat.dvd_of_mod_eq_zero ha
  obtain ⟨j, hj⟩ : ∃ j, k + j = 12 := ⟨12 - k, by omega⟩
  have hpow : 2 ^ k * 2 ^ j = 4096 := by rw [← Nat.pow_add, hj]
  have h64 : 4096 * 2 ^ 52 = (2 : Nat) ^ 64 := by norm_num
  have hkpos : 0 < 2 ^ k := Nat.two_pow_pos k
  have hjpos : 0 < 2 ^ j := Nat.two_pow_pos j
  have hq' : q < 2 ^ j * 2 ^ 52 := by
    by_contra hge
    have : 2 ^ k * (2 ^ j * 2 ^ 52) ≤ 2 ^ k * q := Nat.mul_le_mul_left _ (by omega)
    rw [← Nat.mul_assoc, hpow, h64] at this
    omega
  have hsum : a.toNat + off < 2 ^ 64 := by
    have : 2 ^ k * (q + 1) ≤ 2 ^ k * (2 ^ j * 2 ^ 52) := Nat.mul_le_mul_left _ (by omega)
    rw [← Nat.mul_assoc, hpow, h64, Nat.mul_add] at this
    omega
  have hoff : off < 2 ^ 64 := by omega
  rw [pageNo_toNat, pageNo_toNat, BitVec.toNat_add, BitVec.toNat_ofNat, Nat.mod_eq_of_lt hoff,
    Nat.mod_eq_of_lt hsum, ← hpow, ← Nat.div_div_eq_div_mul, ← Nat.div_div_eq_div_mul, hq]
  congr 1
  rw [Nat.mul_add_div hkpos, Nat.div_eq_of_lt ho, Nat.add_zero, Nat.mul_div_cancel_left _ hkpos]

@[simp] theorem length_slice (bs : List Byte) (o n : Nat) (h : o + n ≤ bs.length) : (slice bs o n).length = n := by
  simp [slice]; omega

end Sys2Proof.Machine
end

