-- ==== Sys2Proof/Laws/Sparse.lean ====
section
/-! SUPPORT. The laws of sparse maps and of memory: a read after a write, the canonical form, equality of equal memories. -/

namespace Sys2Proof.Machine

variable {β : Type}

@[simp] theorem Sparse.get_nil (d : β) (k : Nat) : Sparse.get d k [] = d := rfl

theorem Sparse.get_cons (d : β) (k : Nat) (c : Nat × β) (m : List (Nat × β)) :
    Sparse.get d k (c :: m) = if c.1 = k then c.2 else if k < c.1 then d else Sparse.get d k m := rfl

/-- Cells below a key do not matter to it. -/
theorem Sparse.get_append_of_lt (d : β) (k : Nat) (l m : List (Nat × β)) (h : ∀ c ∈ l, c.1 < k) :
    Sparse.get d k (l ++ m) = Sparse.get d k m := by
  induction l with
  | nil => rfl
  | cons c l ih =>
    have hc : c.1 < k := h c (by simp)
    rw [List.cons_append, Sparse.get_cons, if_neg (by omega), if_neg (by omega)]
    exact ih fun x hx => h x (by simp [hx])

/-- A list whose first cell lies above a key has the default there. -/
theorem Sparse.get_of_head_gt (d : β) (k : Nat) (m : List (Nat × β)) (h : ∀ c ∈ m.head?, k < c.1) :
    Sparse.get d k m = d := by
  cases m with
  | nil => rfl
  | cons c m =>
    have hc : k < c.1 := h c (by simp)
    rw [Sparse.get_cons, if_neg (by omega), if_pos hc]

theorem Sparse.mem_takeWhile_lt {n : Nat} {m : List (Nat × β)} {c : Nat × β}
    (h : c ∈ m.takeWhile (fun c => decide (c.1 < n))) : c.1 < n := by
  simpa using List.mem_takeWhile_imp h

theorem Sparse.head_dropWhile_ge {n : Nat} {m : List (Nat × β)} {c : Nat × β}
    (h : c ∈ (m.dropWhile (fun c => decide (c.1 < n))).head?) : n ≤ c.1 := by
  have := List.head?_dropWhile_not (fun c : Nat × β => decide (c.1 < n)) m
  rw [Option.mem_def.mp h] at this
  simpa using this

/-- Dropping cells below a bound keeps every key from the bound on. -/
theorem Sparse.get_dropWhile (d : β) (n k : Nat) (h : n ≤ k) (m : List (Nat × β)) :
    Sparse.get d k (m.dropWhile (fun c => decide (c.1 < n))) = Sparse.get d k m := by
  conv_rhs => rw [← List.takeWhile_append_dropWhile (p := fun c : Nat × β => decide (c.1 < n)) (l := m)]
  rw [Sparse.get_append_of_lt]
  intro c hc
  have := Sparse.mem_takeWhile_lt hc
  omega

/-- Below a bound, only the leading cells below it matter. -/
theorem Sparse.get_takeWhile (d : β) (n k : Nat) (h : k < n) (m r : List (Nat × β))
    (hr : ∀ c ∈ r.head?, n ≤ c.1) :
    Sparse.get d k (m.takeWhile (fun c => decide (c.1 < n)) ++ r) = Sparse.get d k m := by
  induction m with
  | nil =>
    rw [List.takeWhile_nil, List.nil_append, Sparse.get_nil]
    exact Sparse.get_of_head_gt d k r fun c hc => by have := hr c hc; omega
  | cons c m ih =>
    by_cases hc : c.1 < n
    · rw [List.takeWhile_cons_of_pos (by simpa using hc), List.cons_append, Sparse.get_cons,
        Sparse.get_cons, ih]
    · rw [List.takeWhile_cons_of_neg (by simpa using hc), List.nil_append, Sparse.get_cons,
        if_neg (by omega), if_pos (by omega)]
      exact Sparse.get_of_head_gt d k r fun c hc => by have := hr c hc; omega

variable [DecidableEq β]

theorem Sparse.cells_ge (d : β) (k : Nat) (vs : List β) : ∀ c ∈ Sparse.cells d k vs, k ≤ c.1 := by
  induction vs generalizing k with
  | nil => intro c hc; simp [Sparse.cells] at hc
  | cons v vs ih =>
    intro c hc
    unfold Sparse.cells at hc
    split at hc
    · have := ih (k + 1) c hc; omega
    · rcases List.mem_cons.mp hc with rfl | hc
      · exact le_refl _
      · have := ih (k + 1) c hc; omega

theorem Sparse.cells_lt (d : β) (k : Nat) (vs : List β) :
    ∀ c ∈ Sparse.cells d k vs, c.1 < k + vs.length := by
  induction vs generalizing k with
  | nil => intro c hc; simp [Sparse.cells] at hc
  | cons v vs ih =>
    intro c hc
    rw [List.length_cons]
    unfold Sparse.cells at hc
    split at hc
    · have := ih (k + 1) c hc; omega
    · rcases List.mem_cons.mp hc with rfl | hc
      · omega
      · have := ih (k + 1) c hc; omega

/-- The listed values are read back, the default where the default was listed. -/
theorem Sparse.get_cells (d : β) (k i : Nat) (vs : List β) (r : List (Nat × β)) (hi : i < vs.length)
    (hr : ∀ c ∈ r.head?, k + vs.length ≤ c.1) :
    Sparse.get d (k + i) (Sparse.cells d k vs ++ r) = vs[i] := by
  induction vs generalizing k i with
  | nil => simp at hi
  | cons v vs ih =>
    have hr' : ∀ c ∈ r.head?, k + 1 + vs.length ≤ c.1 := fun c hc => by
      have := hr c hc; rw [List.length_cons] at this; omega
    have hhead : ∀ c ∈ (Sparse.cells d (k + 1) vs ++ r).head?, k < c.1 := by
      intro c hc
      rw [List.head?_append] at hc
      rcases Option.mem_def.mp hc |> Option.or_eq_some_iff.mp with h | ⟨-, h⟩
      · have := Sparse.cells_ge d (k + 1) vs c (List.mem_of_mem_head? (by simpa using h)); omega
      · have := hr' c (by simpa using h); omega
    cases i with
    | zero =>
      rw [Nat.add_zero, List.getElem_cons_zero]
      unfold Sparse.cells
      split
      · rw [Sparse.get_of_head_gt d k _ hhead]; symm; assumption
      · rw [List.cons_append, Sparse.get_cons, if_pos rfl]
    | succ i =>
      have e : k + (i + 1) = k + 1 + i := by omega
      have step := ih (k + 1) i (by simpa using hi) hr'
      rw [List.getElem_cons_succ, ← step, e]
      conv_lhs => unfold Sparse.cells
      split
      · rfl
      · rw [List.cons_append, Sparse.get_cons, if_neg (by omega), if_neg (by omega)]

theorem Sparse.head_put_rest (d : β) (k : Nat) (vs : List β) (m : List (Nat × β)) (c : Nat × β)
    (h : c ∈ (Sparse.cells d k vs ++
      m.dropWhile (fun c => decide (c.1 < k + vs.length))).head?) : k ≤ c.1 := by
  rw [List.head?_append] at h
  rcases Option.or_eq_some_iff.mp (Option.mem_def.mp h) with h | ⟨-, h⟩
  · exact Sparse.cells_ge d k vs c (List.mem_of_mem_head? (by simpa using h))
  · have := Sparse.head_dropWhile_ge (Option.mem_def.mpr h); omega

/-- A read inside the written range gives the value written. -/
theorem Sparse.get_put_in (d : β) (k i : Nat) (vs : List β) (m : List (Nat × β)) (hi : i < vs.length) :
    Sparse.get d (k + i) (Sparse.put d k vs m) = vs[i] := by
  unfold Sparse.put
  rw [Sparse.get_append_of_lt d _ _ _ fun c hc => by have := Sparse.mem_takeWhile_lt hc; omega]
  exact Sparse.get_cells d k i vs _ hi fun c hc => Sparse.head_dropWhile_ge hc

/-- A read outside the written range gives what it gave before. -/
theorem Sparse.get_put_out (d : β) (k a : Nat) (vs : List β) (m : List (Nat × β))
    (h : a < k ∨ k + vs.length ≤ a) : Sparse.get d a (Sparse.put d k vs m) = Sparse.get d a m := by
  unfold Sparse.put
  rcases h with h | h
  · exact Sparse.get_takeWhile d k a h m _ fun c hc => Sparse.head_put_rest d k vs m c hc
  · rw [← List.append_assoc, Sparse.get_append_of_lt, Sparse.get_dropWhile d _ a h m]
    intro c hc
    rcases List.mem_append.mp hc with hc | hc
    · have := Sparse.mem_takeWhile_lt hc; omega
    · have := Sparse.cells_lt d k vs c hc; omega

/-- One value put at a key. -/
theorem Sparse.get_put_one (d : β) (k a : Nat) (v : β) (m : List (Nat × β)) :
    Sparse.get d a (Sparse.put d k [v] m) = if a = k then v else Sparse.get d a m := by
  split
  · next h => subst h; exact Sparse.get_put_in d a 0 [v] m (by simp)
  · exact Sparse.get_put_out d k a [v] m (by simp only [List.length_singleton]; omega)

omit [DecidableEq β] in
/-- One pass reads what single reads read. -/
theorem Sparse.run_eq (d : β) (n k : Nat) (m : List (Nat × β)) :
    Sparse.run d n k m = (List.range n).map (fun i => Sparse.get d (k + i) m) := by
  induction n generalizing k m with
  | zero => rfl
  | succ n ih =>
    rw [Sparse.run, ih, List.range_succ_eq_map, List.map_cons, List.map_map, Nat.add_zero,
      Sparse.get_dropWhile d k k le_rfl]
    congr 1
    apply List.map_congr_left
    intro i _
    rw [Sparse.get_dropWhile d k _ (by omega)]
    simp only [Function.comp_apply]
    congr 1
    omega

/-! ### The canonical form -/

theorem Sparse.wfFrom_mono (d : β) {lo hi : Nat} (h : lo ≤ hi) {m : List (Nat × β)}
    (hm : Sparse.wfFrom d hi m = true) : Sparse.wfFrom d lo m = true := by
  cases m with
  | nil => rfl
  | cons c m =>
    simp only [Sparse.wfFrom, Bool.and_eq_true, decide_eq_true_eq] at hm ⊢
    exact ⟨⟨by omega, hm.1.2⟩, hm.2⟩

theorem Sparse.wfFrom_cells (d : β) (k : Nat) (vs : List β) (r : List (Nat × β))
    (hr : Sparse.wfFrom d (k + vs.length) r = true) :
    Sparse.wfFrom d k (Sparse.cells d k vs ++ r) = true := by
  induction vs generalizing k with
  | nil => simpa [Sparse.cells] using hr
  | cons v vs ih =>
    have hr' : Sparse.wfFrom d (k + 1 + vs.length) r = true := by
      have e : k + 1 + vs.length = k + (vs.length + 1) := by omega
      rw [e]; exact hr
    unfold Sparse.cells
    split
    · exact Sparse.wfFrom_mono d (by omega) (ih (k + 1) hr')
    · next h => simp [Sparse.wfFrom, h, ih (k + 1) hr']

theorem Sparse.wfFrom_dropWhile (d : β) (lo n : Nat) (m : List (Nat × β))
    (hm : Sparse.wfFrom d lo m = true) :
    Sparse.wfFrom d n (m.dropWhile (fun c => decide (c.1 < n))) = true := by
  induction m generalizing lo with
  | nil => rfl
  | cons c m ih =>
    simp only [Sparse.wfFrom, Bool.and_eq_true, decide_eq_true_eq] at hm
    by_cases hc : c.1 < n
    · rw [List.dropWhile_cons_of_pos (by simpa using hc)]; exact ih _ hm.2
    · rw [List.dropWhile_cons_of_neg (by simpa using hc)]
      simp only [Sparse.wfFrom, Bool.and_eq_true, decide_eq_true_eq]
      exact ⟨⟨by omega, hm.1.2⟩, hm.2⟩

theorem Sparse.wfFrom_takeWhile (d : β) (lo n : Nat) (m r : List (Nat × β)) (hlo : lo ≤ n)
    (hm : Sparse.wfFrom d lo m = true) (hr : Sparse.wfFrom d n r = true) :
    Sparse.wfFrom d lo (m.takeWhile (fun c => decide (c.1 < n)) ++ r) = true := by
  induction m generalizing lo with
  | nil => simpa using Sparse.wfFrom_mono d hlo hr
  | cons c m ih =>
    simp only [Sparse.wfFrom, Bool.and_eq_true, decide_eq_true_eq] at hm
    by_cases hc : c.1 < n
    · rw [List.takeWhile_cons_of_pos (by simpa using hc), List.cons_append]
      simp only [Sparse.wfFrom, Bool.and_eq_true, decide_eq_true_eq]
      exact ⟨hm.1, ih _ (by omega) hm.2⟩
    · rw [List.takeWhile_cons_of_neg (by simpa using hc), List.nil_append]
      exact Sparse.wfFrom_mono d hlo hr

/-- A write keeps the canonical form. -/
theorem Sparse.wf_put (d : β) (k : Nat) (vs : List β) (m : List (Nat × β))
    (hm : Sparse.wfFrom d 0 m = true) : Sparse.wfFrom d 0 (Sparse.put d k vs m) = true :=
  Sparse.wfFrom_takeWhile d 0 k m _ (by omega) hm
    (Sparse.wfFrom_cells d k vs _ (Sparse.wfFrom_dropWhile d 0 _ m hm))

/-- Below the least key everything reads as the default. -/
theorem Sparse.get_below (d : β) (lo k : Nat) (m : List (Nat × β))
    (hm : Sparse.wfFrom d lo m = true) (hk : k < lo) : Sparse.get d k m = d := by
  apply Sparse.get_of_head_gt
  intro c hc
  cases m with
  | nil => simp at hc
  | cons c' m =>
    simp only [Sparse.wfFrom, Bool.and_eq_true, decide_eq_true_eq] at hm
    simp only [List.head?_cons, Option.mem_some_iff] at hc
    subst hc; omega

/-- Two maps in canonical form that read the same everywhere are the same list. -/
theorem Sparse.ext (d : β) (lo : Nat) (m m' : List (Nat × β)) (hm : Sparse.wfFrom d lo m = true)
    (hm' : Sparse.wfFrom d lo m' = true) (h : ∀ k, Sparse.get d k m = Sparse.get d k m') : m = m' := by
  induction m generalizing lo m' with
  | nil =>
    cases m' with
    | nil => rfl
    | cons c m' =>
      exfalso
      simp only [Sparse.wfFrom, Bool.and_eq_true, decide_eq_true_eq] at hm'
      have := h c.1
      rw [Sparse.get_nil, Sparse.get_cons, if_pos rfl] at this
      exact hm'.1.2 this.symm
  | cons c m ih =>
    cases m' with
    | nil =>
      exfalso
      simp only [Sparse.wfFrom, Bool.and_eq_true, decide_eq_true_eq] at hm
      have := h c.1
      rw [Sparse.get_nil, Sparse.get_cons, if_pos rfl] at this
      exact hm.1.2 this
    | cons c' m' =>
      simp only [Sparse.wfFrom, Bool.and_eq_true, decide_eq_true_eq] at hm hm'
      have hk : c.1 = c'.1 := by
        by_contra hne
        rcases Nat.lt_or_gt_of_ne hne with hlt | hlt
        · have := h c.1
          rw [Sparse.get_cons, if_pos rfl, Sparse.get_cons, if_neg (by omega), if_pos hlt] at this
          exact hm.1.2 this
        · have := h c'.1
          rw [Sparse.get_cons, if_neg (by omega), if_pos hlt, Sparse.get_cons, if_pos rfl] at this
          exact hm'.1.2 this.symm
      have hv : c.2 = c'.2 := by
        have := h c.1
        rwa [Sparse.get_cons, if_pos rfl, Sparse.get_cons, if_pos hk.symm] at this
      have hc : c = c' := Prod.ext hk hv
      subst hc
      congr 1
      refine ih (c.1 + 1) m' hm.2 hm'.2 fun k => ?_
      by_cases hlt : k < c.1 + 1
      · rw [Sparse.get_below d _ k m hm.2 hlt, Sparse.get_below d _ k m' hm'.2 hlt]
      · have := h k
        rwa [Sparse.get_cons, if_neg (by omega), if_neg (by omega), Sparse.get_cons, if_neg (by omega),
          if_neg (by omega)] at this

/-! ### Memory -/

theorem Memory.byte_write_in (m : List Host.Cell) (a i : Nat) (bs : List Byte) (h : i < bs.length) :
    Memory.byte (Memory.write m a bs) (a + i) = bs[i] := Sparse.get_put_in _ a i bs m h

theorem Memory.byte_write_out (m : List Host.Cell) (a x : Nat) (bs : List Byte)
    (h : x < a ∨ a + bs.length ≤ x) : Memory.byte (Memory.write m a bs) x = Memory.byte m x :=
  Sparse.get_put_out _ a x bs m h

theorem Memory.read_eq (m : List Host.Cell) (a n : Nat) :
    Memory.read m a n = (List.range n).map (fun i => Memory.byte m (a + i)) := Sparse.run_eq _ n a m

@[simp] theorem Memory.length_read (m : List Host.Cell) (a n : Nat) : (Memory.read m a n).length = n := by
  simp [Memory.read_eq]

/-- A read of exactly the bytes written gives them back. -/
theorem Memory.read_write (m : List Host.Cell) (a : Nat) (bs : List Byte) :
    Memory.read (Memory.write m a bs) a bs.length = bs := by
  apply List.ext_getElem (by simp)
  intro i h _
  simp only [Memory.read_eq, List.getElem_map, List.getElem_range]
  exact Memory.byte_write_in m a i bs (by simpa using h)

/-- A read that meets none of the bytes written gives what it gave before. -/
theorem Memory.read_write_out (m : List Host.Cell) (a x n : Nat) (bs : List Byte)
    (h : x + n ≤ a ∨ a + bs.length ≤ x) : Memory.read (Memory.write m a bs) x n = Memory.read m x n := by
  simp only [Memory.read_eq]
  apply List.map_congr_left
  intro i hi
  rw [List.mem_range] at hi
  exact Memory.byte_write_out m a (x + i) bs (by omega)

/-- Two memories that agree on a range read the same there. -/
theorem Memory.read_congr (m m' : List Host.Cell) (a n : Nat)
    (h : ∀ i < n, Memory.byte m (a + i) = Memory.byte m' (a + i)) : Memory.read m a n = Memory.read m' a n := by
  simp only [Memory.read_eq]
  exact List.map_congr_left fun i hi => h i (List.mem_range.mp hi)

/-- A write keeps memory's canonical form. -/
theorem Memory.wf_write (m : List Host.Cell) (a : Nat) (bs : List Byte) (h : Memory.wf m = true) :
    Memory.wf (Memory.write m a bs) = true := Sparse.wf_put _ a bs m h

/-- Equal memories are equal data. -/
theorem Memory.ext (m m' : List Host.Cell) (hm : Memory.wf m = true) (hm' : Memory.wf m' = true)
    (h : ∀ a, Memory.byte m a = Memory.byte m' a) : m = m' := Sparse.ext _ 0 m m' hm hm' h

end Sys2Proof.Machine
end

