-- ==== Sys2Proof/Laws/State.lean ====
section
/-! SUPPORT. One lemma per field of State and per update of it, so that no proof unfolds a record update. -/

namespace Sys2Proof.Machine

/-! ### `State.afterInput` -/

@[simp] theorem State.afterInput_rax (s : State) : s.afterInput.rax = s.rax := by simp only [State.afterInput]
@[simp] theorem State.afterInput_rbx (s : State) : s.afterInput.rbx = s.rbx := by simp only [State.afterInput]
@[simp] theorem State.afterInput_rcx (s : State) : s.afterInput.rcx = s.rcx := by simp only [State.afterInput]
@[simp] theorem State.afterInput_rdx (s : State) : s.afterInput.rdx = s.rdx := by simp only [State.afterInput]
@[simp] theorem State.afterInput_rip (s : State) : s.afterInput.rip = s.rip := by simp only [State.afterInput]
@[simp] theorem State.afterInput_rflags (s : State) : s.afterInput.rflags = s.rflags := by simp only [State.afterInput]
@[simp] theorem State.afterInput_ds (s : State) : s.afterInput.ds = s.ds := by simp only [State.afterInput]
@[simp] theorem State.afterInput_cpl (s : State) : s.afterInput.cpl = s.cpl := by simp only [State.afterInput]
@[simp] theorem State.afterInput_mode (s : State) : s.afterInput.mode = s.mode := by simp only [State.afterInput]
@[simp] theorem State.afterInput_vmxNonRoot (s : State) : s.afterInput.vmxNonRoot = s.vmxNonRoot := by simp only [State.afterInput]
@[simp] theorem State.afterInput_epcVirtExt (s : State) : s.afterInput.epcVirtExt = s.epcVirtExt := by simp only [State.afterInput]
@[simp] theorem State.afterInput_vmcs (s : State) : s.afterInput.vmcs = s.vmcs := by simp only [State.afterInput]
@[simp] theorem State.afterInput_epcm (s : State) : s.afterInput.epcm = s.epcm := by simp only [State.afterInput]
@[simp] theorem State.afterInput_crBasePk (s : State) : s.afterInput.crBasePk = s.crBasePk := by simp only [State.afterInput]
@[simp] theorem State.afterInput_mem (s : State) : s.afterInput.mem = s.landed := by simp only [State.afterInput]
@[simp] theorem State.afterInput_locks (s : State) : s.afterInput.locks = s.locks := by simp only [State.afterInput]
@[simp] theorem State.afterInput_epcFrames (s : State) : s.afterInput.epcFrames = s.epcFrames := by simp only [State.afterInput]
@[simp] theorem State.afterInput_pageMap (s : State) : s.afterInput.pageMap = s.pageMap := by simp only [State.afterInput]
@[simp] theorem State.afterInput_event (s : State) : s.afterInput.event = s.event := by simp only [State.afterInput]
@[simp] theorem State.afterInput_cfg (s : State) : s.afterInput.cfg = s.cfg := by simp only [State.afterInput]
@[simp] theorem State.afterInput_inputs (s : State) : s.afterInput.inputs = s.inputs.tail := by simp only [State.afterInput]
@[simp] theorem State.afterInput_drawIndex (s : State) : s.afterInput.drawIndex = s.drawIndex + 1 := by simp only [State.afterInput]
@[simp] theorem State.afterInput_pending (s : State) : s.afterInput.pending = s.input.after := by simp only [State.afterInput]

/-! ### `State.withMem` -/

@[simp] theorem State.withMem_rax (s : State) (m : List Host.Cell) : (s.withMem m).rax = s.rax := by simp only [State.withMem]
@[simp] theorem State.withMem_rbx (s : State) (m : List Host.Cell) : (s.withMem m).rbx = s.rbx := by simp only [State.withMem]
@[simp] theorem State.withMem_rcx (s : State) (m : List Host.Cell) : (s.withMem m).rcx = s.rcx := by simp only [State.withMem]
@[simp] theorem State.withMem_rdx (s : State) (m : List Host.Cell) : (s.withMem m).rdx = s.rdx := by simp only [State.withMem]
@[simp] theorem State.withMem_rip (s : State) (m : List Host.Cell) : (s.withMem m).rip = s.rip := by simp only [State.withMem]
@[simp] theorem State.withMem_rflags (s : State) (m : List Host.Cell) : (s.withMem m).rflags = s.rflags := by simp only [State.withMem]
@[simp] theorem State.withMem_ds (s : State) (m : List Host.Cell) : (s.withMem m).ds = s.ds := by simp only [State.withMem]
@[simp] theorem State.withMem_cpl (s : State) (m : List Host.Cell) : (s.withMem m).cpl = s.cpl := by simp only [State.withMem]
@[simp] theorem State.withMem_mode (s : State) (m : List Host.Cell) : (s.withMem m).mode = s.mode := by simp only [State.withMem]
@[simp] theorem State.withMem_vmxNonRoot (s : State) (m : List Host.Cell) : (s.withMem m).vmxNonRoot = s.vmxNonRoot := by simp only [State.withMem]
@[simp] theorem State.withMem_epcVirtExt (s : State) (m : List Host.Cell) : (s.withMem m).epcVirtExt = s.epcVirtExt := by simp only [State.withMem]
@[simp] theorem State.withMem_vmcs (s : State) (m : List Host.Cell) : (s.withMem m).vmcs = s.vmcs := by simp only [State.withMem]
@[simp] theorem State.withMem_epcm (s : State) (m : List Host.Cell) : (s.withMem m).epcm = s.epcm := by simp only [State.withMem]
@[simp] theorem State.withMem_crBasePk (s : State) (m : List Host.Cell) : (s.withMem m).crBasePk = s.crBasePk := by simp only [State.withMem]
@[simp] theorem State.withMem_mem (s : State) (m : List Host.Cell) : (s.withMem m).mem = m := by simp only [State.withMem]
@[simp] theorem State.withMem_locks (s : State) (m : List Host.Cell) : (s.withMem m).locks = s.locks := by simp only [State.withMem]
@[simp] theorem State.withMem_epcFrames (s : State) (m : List Host.Cell) : (s.withMem m).epcFrames = s.epcFrames := by simp only [State.withMem]
@[simp] theorem State.withMem_pageMap (s : State) (m : List Host.Cell) : (s.withMem m).pageMap = s.pageMap := by simp only [State.withMem]
@[simp] theorem State.withMem_event (s : State) (m : List Host.Cell) : (s.withMem m).event = s.event := by simp only [State.withMem]
@[simp] theorem State.withMem_cfg (s : State) (m : List Host.Cell) : (s.withMem m).cfg = s.cfg := by simp only [State.withMem]
@[simp] theorem State.withMem_inputs (s : State) (m : List Host.Cell) : (s.withMem m).inputs = s.inputs := by simp only [State.withMem]
@[simp] theorem State.withMem_drawIndex (s : State) (m : List Host.Cell) : (s.withMem m).drawIndex = s.drawIndex := by simp only [State.withMem]
@[simp] theorem State.withMem_pending (s : State) (m : List Host.Cell) : (s.withMem m).pending = s.pending := by simp only [State.withMem]

/-! ### `State.raise` -/

@[simp] theorem State.raise_rax (s : State) (e : Event) : (s.raise e).rax = s.rax := by simp only [State.raise]
@[simp] theorem State.raise_rbx (s : State) (e : Event) : (s.raise e).rbx = s.rbx := by simp only [State.raise]
@[simp] theorem State.raise_rcx (s : State) (e : Event) : (s.raise e).rcx = s.rcx := by simp only [State.raise]
@[simp] theorem State.raise_rdx (s : State) (e : Event) : (s.raise e).rdx = s.rdx := by simp only [State.raise]
@[simp] theorem State.raise_rip (s : State) (e : Event) : (s.raise e).rip = s.rip := by simp only [State.raise]
@[simp] theorem State.raise_rflags (s : State) (e : Event) : (s.raise e).rflags = s.rflags := by simp only [State.raise]
@[simp] theorem State.raise_ds (s : State) (e : Event) : (s.raise e).ds = s.ds := by simp only [State.raise]
@[simp] theorem State.raise_cpl (s : State) (e : Event) : (s.raise e).cpl = s.cpl := by simp only [State.raise]
@[simp] theorem State.raise_mode (s : State) (e : Event) : (s.raise e).mode = s.mode := by simp only [State.raise]
@[simp] theorem State.raise_vmxNonRoot (s : State) (e : Event) : (s.raise e).vmxNonRoot = s.vmxNonRoot := by simp only [State.raise]
@[simp] theorem State.raise_epcVirtExt (s : State) (e : Event) : (s.raise e).epcVirtExt = s.epcVirtExt := by simp only [State.raise]
@[simp] theorem State.raise_vmcs (s : State) (e : Event) : (s.raise e).vmcs = s.vmcs := by simp only [State.raise]
@[simp] theorem State.raise_epcm (s : State) (e : Event) : (s.raise e).epcm = s.epcm := by simp only [State.raise]
@[simp] theorem State.raise_crBasePk (s : State) (e : Event) : (s.raise e).crBasePk = s.crBasePk := by simp only [State.raise]
@[simp] theorem State.raise_mem (s : State) (e : Event) : (s.raise e).mem = s.mem := by simp only [State.raise]
@[simp] theorem State.raise_locks (s : State) (e : Event) : (s.raise e).locks = s.locks := by simp only [State.raise]
@[simp] theorem State.raise_epcFrames (s : State) (e : Event) : (s.raise e).epcFrames = s.epcFrames := by simp only [State.raise]
@[simp] theorem State.raise_pageMap (s : State) (e : Event) : (s.raise e).pageMap = s.pageMap := by simp only [State.raise]
@[simp] theorem State.raise_event (s : State) (e : Event) : (s.raise e).event = some e := by simp only [State.raise]
@[simp] theorem State.raise_cfg (s : State) (e : Event) : (s.raise e).cfg = s.cfg := by simp only [State.raise]
@[simp] theorem State.raise_inputs (s : State) (e : Event) : (s.raise e).inputs = s.inputs := by simp only [State.raise]
@[simp] theorem State.raise_drawIndex (s : State) (e : Event) : (s.raise e).drawIndex = s.drawIndex := by simp only [State.raise]
@[simp] theorem State.raise_pending (s : State) (e : Event) : (s.raise e).pending = s.pending := by simp only [State.raise]

/-! ### `State.exitVm` -/

@[simp] theorem State.exitVm_rax (s : State) (v : Vmcs) : (s.exitVm v).rax = s.rax := by simp only [State.exitVm]
@[simp] theorem State.exitVm_rbx (s : State) (v : Vmcs) : (s.exitVm v).rbx = s.rbx := by simp only [State.exitVm]
@[simp] theorem State.exitVm_rcx (s : State) (v : Vmcs) : (s.exitVm v).rcx = s.rcx := by simp only [State.exitVm]
@[simp] theorem State.exitVm_rdx (s : State) (v : Vmcs) : (s.exitVm v).rdx = s.rdx := by simp only [State.exitVm]
@[simp] theorem State.exitVm_rip (s : State) (v : Vmcs) : (s.exitVm v).rip = s.rip := by simp only [State.exitVm]
@[simp] theorem State.exitVm_rflags (s : State) (v : Vmcs) : (s.exitVm v).rflags = s.rflags := by simp only [State.exitVm]
@[simp] theorem State.exitVm_ds (s : State) (v : Vmcs) : (s.exitVm v).ds = s.ds := by simp only [State.exitVm]
@[simp] theorem State.exitVm_cpl (s : State) (v : Vmcs) : (s.exitVm v).cpl = s.cpl := by simp only [State.exitVm]
@[simp] theorem State.exitVm_mode (s : State) (v : Vmcs) : (s.exitVm v).mode = s.mode := by simp only [State.exitVm]
@[simp] theorem State.exitVm_vmxNonRoot (s : State) (v : Vmcs) : (s.exitVm v).vmxNonRoot = false := by simp only [State.exitVm]
@[simp] theorem State.exitVm_epcVirtExt (s : State) (v : Vmcs) : (s.exitVm v).epcVirtExt = s.epcVirtExt := by simp only [State.exitVm]
@[simp] theorem State.exitVm_vmcs (s : State) (v : Vmcs) : (s.exitVm v).vmcs = v := by simp only [State.exitVm]
@[simp] theorem State.exitVm_epcm (s : State) (v : Vmcs) : (s.exitVm v).epcm = s.epcm := by simp only [State.exitVm]
@[simp] theorem State.exitVm_crBasePk (s : State) (v : Vmcs) : (s.exitVm v).crBasePk = s.crBasePk := by simp only [State.exitVm]
@[simp] theorem State.exitVm_mem (s : State) (v : Vmcs) : (s.exitVm v).mem = s.mem := by simp only [State.exitVm]
@[simp] theorem State.exitVm_locks (s : State) (v : Vmcs) : (s.exitVm v).locks = s.locks := by simp only [State.exitVm]
@[simp] theorem State.exitVm_epcFrames (s : State) (v : Vmcs) : (s.exitVm v).epcFrames = s.epcFrames := by simp only [State.exitVm]
@[simp] theorem State.exitVm_pageMap (s : State) (v : Vmcs) : (s.exitVm v).pageMap = s.pageMap := by simp only [State.exitVm]
@[simp] theorem State.exitVm_event (s : State) (v : Vmcs) : (s.exitVm v).event = some .vmExit := by simp only [State.exitVm]
@[simp] theorem State.exitVm_cfg (s : State) (v : Vmcs) : (s.exitVm v).cfg = s.cfg := by simp only [State.exitVm]
@[simp] theorem State.exitVm_inputs (s : State) (v : Vmcs) : (s.exitVm v).inputs = s.inputs := by simp only [State.exitVm]
@[simp] theorem State.exitVm_drawIndex (s : State) (v : Vmcs) : (s.exitVm v).drawIndex = s.drawIndex := by simp only [State.exitVm]
@[simp] theorem State.exitVm_pending (s : State) (v : Vmcs) : (s.exitVm v).pending = s.pending := by simp only [State.exitVm]

/-! ### `State.complete` -/

@[simp] theorem State.complete_rax (s : State) (c : Word) (z : Bool) : (s.complete c z).rax = c := by simp only [State.complete]
@[simp] theorem State.complete_rbx (s : State) (c : Word) (z : Bool) : (s.complete c z).rbx = s.rbx := by simp only [State.complete]
@[simp] theorem State.complete_rcx (s : State) (c : Word) (z : Bool) : (s.complete c z).rcx = s.rcx := by simp only [State.complete]
@[simp] theorem State.complete_rdx (s : State) (c : Word) (z : Bool) : (s.complete c z).rdx = s.rdx := by simp only [State.complete]
@[simp] theorem State.complete_rip (s : State) (c : Word) (z : Bool) : (s.complete c z).rip = s.rip + BitVec.ofNat 64 s.cfg.enclsBytes.length := by simp only [State.complete]
@[simp] theorem State.complete_rflags (s : State) (c : Word) (z : Bool) : (s.complete c z).rflags = s.rflags.completed z := by simp only [State.complete]
@[simp] theorem State.complete_ds (s : State) (c : Word) (z : Bool) : (s.complete c z).ds = s.ds := by simp only [State.complete]
@[simp] theorem State.complete_cpl (s : State) (c : Word) (z : Bool) : (s.complete c z).cpl = s.cpl := by simp only [State.complete]
@[simp] theorem State.complete_mode (s : State) (c : Word) (z : Bool) : (s.complete c z).mode = s.mode := by simp only [State.complete]
@[simp] theorem State.complete_vmxNonRoot (s : State) (c : Word) (z : Bool) : (s.complete c z).vmxNonRoot = s.vmxNonRoot := by simp only [State.complete]
@[simp] theorem State.complete_epcVirtExt (s : State) (c : Word) (z : Bool) : (s.complete c z).epcVirtExt = s.epcVirtExt := by simp only [State.complete]
@[simp] theorem State.complete_vmcs (s : State) (c : Word) (z : Bool) : (s.complete c z).vmcs = s.vmcs := by simp only [State.complete]
@[simp] theorem State.complete_epcm (s : State) (c : Word) (z : Bool) : (s.complete c z).epcm = s.epcm := by simp only [State.complete]
@[simp] theorem State.complete_crBasePk (s : State) (c : Word) (z : Bool) : (s.complete c z).crBasePk = s.crBasePk := by simp only [State.complete]
@[simp] theorem State.complete_mem (s : State) (c : Word) (z : Bool) : (s.complete c z).mem = s.mem := by simp only [State.complete]
@[simp] theorem State.complete_locks (s : State) (c : Word) (z : Bool) : (s.complete c z).locks = s.locks := by simp only [State.complete]
@[simp] theorem State.complete_epcFrames (s : State) (c : Word) (z : Bool) : (s.complete c z).epcFrames = s.epcFrames := by simp only [State.complete]
@[simp] theorem State.complete_pageMap (s : State) (c : Word) (z : Bool) : (s.complete c z).pageMap = s.pageMap := by simp only [State.complete]
@[simp] theorem State.complete_event (s : State) (c : Word) (z : Bool) : (s.complete c z).event = s.event := by simp only [State.complete]
@[simp] theorem State.complete_cfg (s : State) (c : Word) (z : Bool) : (s.complete c z).cfg = s.cfg := by simp only [State.complete]
@[simp] theorem State.complete_inputs (s : State) (c : Word) (z : Bool) : (s.complete c z).inputs = s.inputs := by simp only [State.complete]
@[simp] theorem State.complete_drawIndex (s : State) (c : Word) (z : Bool) : (s.complete c z).drawIndex = s.drawIndex := by simp only [State.complete]
@[simp] theorem State.complete_pending (s : State) (c : Word) (z : Bool) : (s.complete c z).pending = s.pending := by simp only [State.complete]

/-! ### `State.commit` -/

@[simp] theorem State.commit_rax (s : State) (i : Instr) (l : Load) (m : List Host.Cell) : (s.commit i l m).rax = 0 := by simp only [State.commit, State.complete]
@[simp] theorem State.commit_rbx (s : State) (i : Instr) (l : Load) (m : List Host.Cell) : (s.commit i l m).rbx = s.rbx := by simp only [State.commit, State.complete]
@[simp] theorem State.commit_rcx (s : State) (i : Instr) (l : Load) (m : List Host.Cell) : (s.commit i l m).rcx = s.rcx := by simp only [State.commit, State.complete]
@[simp] theorem State.commit_rdx (s : State) (i : Instr) (l : Load) (m : List Host.Cell) : (s.commit i l m).rdx = s.rdx := by simp only [State.commit, State.complete]
@[simp] theorem State.commit_rip (s : State) (i : Instr) (l : Load) (m : List Host.Cell) : (s.commit i l m).rip = s.rip + BitVec.ofNat 64 s.cfg.enclsBytes.length := by simp only [State.commit, State.complete]
@[simp] theorem State.commit_rflags (s : State) (i : Instr) (l : Load) (m : List Host.Cell) : (s.commit i l m).rflags = s.rflags.completed false := by simp only [State.commit, State.complete]
@[simp] theorem State.commit_ds (s : State) (i : Instr) (l : Load) (m : List Host.Cell) : (s.commit i l m).ds = s.ds := by simp only [State.commit, State.complete]
@[simp] theorem State.commit_cpl (s : State) (i : Instr) (l : Load) (m : List Host.Cell) : (s.commit i l m).cpl = s.cpl := by simp only [State.commit, State.complete]
@[simp] theorem State.commit_mode (s : State) (i : Instr) (l : Load) (m : List Host.Cell) : (s.commit i l m).mode = s.mode := by simp only [State.commit, State.complete]
@[simp] theorem State.commit_vmxNonRoot (s : State) (i : Instr) (l : Load) (m : List Host.Cell) : (s.commit i l m).vmxNonRoot = s.vmxNonRoot := by simp only [State.commit, State.complete]
@[simp] theorem State.commit_epcVirtExt (s : State) (i : Instr) (l : Load) (m : List Host.Cell) : (s.commit i l m).epcVirtExt = s.epcVirtExt := by simp only [State.commit, State.complete]
@[simp] theorem State.commit_vmcs (s : State) (i : Instr) (l : Load) (m : List Host.Cell) : (s.commit i l m).vmcs = s.vmcs := by simp only [State.commit, State.complete]
@[simp] theorem State.commit_epcm (s : State) (i : Instr) (l : Load) (m : List Host.Cell) : (s.commit i l m).epcm = Sparse.put EpcmEntry.free (frameOf l.pc) [l.header.entry s.cfg i] s.epcm := by simp only [State.commit, State.complete]
@[simp] theorem State.commit_crBasePk (s : State) (i : Instr) (l : Load) (m : List Host.Cell) : (s.commit i l m).crBasePk = s.crBasePk := by simp only [State.commit, State.complete]
@[simp] theorem State.commit_mem (s : State) (i : Instr) (l : Load) (m : List Host.Cell) : (s.commit i l m).mem = l.context s.cfg m := by simp only [State.commit, State.complete]
@[simp] theorem State.commit_locks (s : State) (i : Instr) (l : Load) (m : List Host.Cell) : (s.commit i l m).locks = s.locks := by simp only [State.commit, State.complete]
@[simp] theorem State.commit_epcFrames (s : State) (i : Instr) (l : Load) (m : List Host.Cell) : (s.commit i l m).epcFrames = s.epcFrames := by simp only [State.commit, State.complete]
@[simp] theorem State.commit_pageMap (s : State) (i : Instr) (l : Load) (m : List Host.Cell) : (s.commit i l m).pageMap = s.pageMap := by simp only [State.commit, State.complete]
@[simp] theorem State.commit_event (s : State) (i : Instr) (l : Load) (m : List Host.Cell) : (s.commit i l m).event = s.event := by simp only [State.commit, State.complete]
@[simp] theorem State.commit_cfg (s : State) (i : Instr) (l : Load) (m : List Host.Cell) : (s.commit i l m).cfg = s.cfg := by simp only [State.commit, State.complete]
@[simp] theorem State.commit_inputs (s : State) (i : Instr) (l : Load) (m : List Host.Cell) : (s.commit i l m).inputs = s.inputs := by simp only [State.commit, State.complete]
@[simp] theorem State.commit_drawIndex (s : State) (i : Instr) (l : Load) (m : List Host.Cell) : (s.commit i l m).drawIndex = s.drawIndex := by simp only [State.commit, State.complete]
@[simp] theorem State.commit_pending (s : State) (i : Instr) (l : Load) (m : List Host.Cell) : (s.commit i l m).pending = s.pending := by simp only [State.commit, State.complete]

/-! ### `State.acted`: other agents change memory, the EPCM and the lock record only -/

@[simp] theorem State.agentAct_rax (s : State) (a : AgentAction) : (s.agentAct a).rax = s.rax := by
  cases a <;> simp only [State.agentAct] <;> split <;> rfl
@[simp] theorem State.agentAct_rbx (s : State) (a : AgentAction) : (s.agentAct a).rbx = s.rbx := by
  cases a <;> simp only [State.agentAct] <;> split <;> rfl
@[simp] theorem State.agentAct_rcx (s : State) (a : AgentAction) : (s.agentAct a).rcx = s.rcx := by
  cases a <;> simp only [State.agentAct] <;> split <;> rfl
@[simp] theorem State.agentAct_rdx (s : State) (a : AgentAction) : (s.agentAct a).rdx = s.rdx := by
  cases a <;> simp only [State.agentAct] <;> split <;> rfl
@[simp] theorem State.agentAct_rip (s : State) (a : AgentAction) : (s.agentAct a).rip = s.rip := by
  cases a <;> simp only [State.agentAct] <;> split <;> rfl
@[simp] theorem State.agentAct_rflags (s : State) (a : AgentAction) : (s.agentAct a).rflags = s.rflags := by
  cases a <;> simp only [State.agentAct] <;> split <;> rfl
@[simp] theorem State.agentAct_ds (s : State) (a : AgentAction) : (s.agentAct a).ds = s.ds := by
  cases a <;> simp only [State.agentAct] <;> split <;> rfl
@[simp] theorem State.agentAct_cpl (s : State) (a : AgentAction) : (s.agentAct a).cpl = s.cpl := by
  cases a <;> simp only [State.agentAct] <;> split <;> rfl
@[simp] theorem State.agentAct_mode (s : State) (a : AgentAction) : (s.agentAct a).mode = s.mode := by
  cases a <;> simp only [State.agentAct] <;> split <;> rfl
@[simp] theorem State.agentAct_vmxNonRoot (s : State) (a : AgentAction) : (s.agentAct a).vmxNonRoot = s.vmxNonRoot := by
  cases a <;> simp only [State.agentAct] <;> split <;> rfl
@[simp] theorem State.agentAct_epcVirtExt (s : State) (a : AgentAction) : (s.agentAct a).epcVirtExt = s.epcVirtExt := by
  cases a <;> simp only [State.agentAct] <;> split <;> rfl
@[simp] theorem State.agentAct_vmcs (s : State) (a : AgentAction) : (s.agentAct a).vmcs = s.vmcs := by
  cases a <;> simp only [State.agentAct] <;> split <;> rfl
@[simp] theorem State.agentAct_crBasePk (s : State) (a : AgentAction) : (s.agentAct a).crBasePk = s.crBasePk := by
  cases a <;> simp only [State.agentAct] <;> split <;> rfl
@[simp] theorem State.agentAct_epcFrames (s : State) (a : AgentAction) : (s.agentAct a).epcFrames = s.epcFrames := by
  cases a <;> simp only [State.agentAct] <;> split <;> rfl
@[simp] theorem State.agentAct_pageMap (s : State) (a : AgentAction) : (s.agentAct a).pageMap = s.pageMap := by
  cases a <;> simp only [State.agentAct] <;> split <;> rfl
@[simp] theorem State.agentAct_event (s : State) (a : AgentAction) : (s.agentAct a).event = s.event := by
  cases a <;> simp only [State.agentAct] <;> split <;> rfl
@[simp] theorem State.agentAct_cfg (s : State) (a : AgentAction) : (s.agentAct a).cfg = s.cfg := by
  cases a <;> simp only [State.agentAct] <;> split <;> rfl
@[simp] theorem State.agentAct_inputs (s : State) (a : AgentAction) : (s.agentAct a).inputs = s.inputs := by
  cases a <;> simp only [State.agentAct] <;> split <;> rfl
@[simp] theorem State.agentAct_drawIndex (s : State) (a : AgentAction) : (s.agentAct a).drawIndex = s.drawIndex := by
  cases a <;> simp only [State.agentAct] <;> split <;> rfl

theorem State.foldl_agentAct {α : Type} (f : State → α) (hf : ∀ s a, f (State.agentAct s a) = f s)
    (s : State) (acts : List AgentAction) : f (acts.foldl State.agentAct s) = f s := by
  induction acts generalizing s with
  | nil => rfl
  | cons a acts ih => rw [List.foldl_cons, ih, hf]

@[simp] theorem State.acted_rax (s : State) : s.acted.rax = s.rax :=
  State.foldl_agentAct (·.rax) State.agentAct_rax s s.pending
@[simp] theorem State.acted_rbx (s : State) : s.acted.rbx = s.rbx :=
  State.foldl_agentAct (·.rbx) State.agentAct_rbx s s.pending
@[simp] theorem State.acted_rcx (s : State) : s.acted.rcx = s.rcx :=
  State.foldl_agentAct (·.rcx) State.agentAct_rcx s s.pending
@[simp] theorem State.acted_rdx (s : State) : s.acted.rdx = s.rdx :=
  State.foldl_agentAct (·.rdx) State.agentAct_rdx s s.pending
@[simp] theorem State.acted_rip (s : State) : s.acted.rip = s.rip :=
  State.foldl_agentAct (·.rip) State.agentAct_rip s s.pending
@[simp] theorem State.acted_rflags (s : State) : s.acted.rflags = s.rflags :=
  State.foldl_agentAct (·.rflags) State.agentAct_rflags s s.pending
@[simp] theorem State.acted_ds (s : State) : s.acted.ds = s.ds :=
  State.foldl_agentAct (·.ds) State.agentAct_ds s s.pending
@[simp] theorem State.acted_cpl (s : State) : s.acted.cpl = s.cpl :=
  State.foldl_agentAct (·.cpl) State.agentAct_cpl s s.pending
@[simp] theorem State.acted_mode (s : State) : s.acted.mode = s.mode :=
  State.foldl_agentAct (·.mode) State.agentAct_mode s s.pending
@[simp] theorem State.acted_vmxNonRoot (s : State) : s.acted.vmxNonRoot = s.vmxNonRoot :=
  State.foldl_agentAct (·.vmxNonRoot) State.agentAct_vmxNonRoot s s.pending
@[simp] theorem State.acted_epcVirtExt (s : State) : s.acted.epcVirtExt = s.epcVirtExt :=
  State.foldl_agentAct (·.epcVirtExt) State.agentAct_epcVirtExt s s.pending
@[simp] theorem State.acted_vmcs (s : State) : s.acted.vmcs = s.vmcs :=
  State.foldl_agentAct (·.vmcs) State.agentAct_vmcs s s.pending
@[simp] theorem State.acted_crBasePk (s : State) : s.acted.crBasePk = s.crBasePk :=
  State.foldl_agentAct (·.crBasePk) State.agentAct_crBasePk s s.pending
@[simp] theorem State.acted_epcFrames (s : State) : s.acted.epcFrames = s.epcFrames :=
  State.foldl_agentAct (·.epcFrames) State.agentAct_epcFrames s s.pending
@[simp] theorem State.acted_pageMap (s : State) : s.acted.pageMap = s.pageMap :=
  State.foldl_agentAct (·.pageMap) State.agentAct_pageMap s s.pending
@[simp] theorem State.acted_event (s : State) : s.acted.event = s.event :=
  State.foldl_agentAct (·.event) State.agentAct_event s s.pending
@[simp] theorem State.acted_cfg (s : State) : s.acted.cfg = s.cfg :=
  State.foldl_agentAct (·.cfg) State.agentAct_cfg s s.pending
@[simp] theorem State.acted_inputs (s : State) : s.acted.inputs = s.inputs :=
  State.foldl_agentAct (·.inputs) State.agentAct_inputs s s.pending
@[simp] theorem State.acted_drawIndex (s : State) : s.acted.drawIndex = s.drawIndex :=
  State.foldl_agentAct (·.drawIndex) State.agentAct_drawIndex s s.pending
@[simp] theorem State.acted_pending (s : State) : s.acted.pending = [] := rfl

/-- With nothing pending a step begins from the state as it is. -/
theorem State.acted_of_pending_nil (s : State) (h : s.pending = []) : s.acted = s := by
  unfold State.acted
  rw [h]
  cases s
  simp only at h
  subst h
  rfl

/-! ### The flags -/

@[simp] theorem Rflags.completed_zf (f : Rflags) (z : Bool) : (f.completed z).zf = z := rfl
@[simp] theorem Rflags.completed_cf (f : Rflags) (z : Bool) : (f.completed z).cf = false := rfl
@[simp] theorem Rflags.completed_pf (f : Rflags) (z : Bool) : (f.completed z).pf = false := rfl
@[simp] theorem Rflags.completed_af (f : Rflags) (z : Bool) : (f.completed z).af = false := rfl
@[simp] theorem Rflags.completed_of (f : Rflags) (z : Bool) : (f.completed z).of = false := rfl
@[simp] theorem Rflags.completed_sf (f : Rflags) (z : Bool) : (f.completed z).sf = false := rfl
@[simp] theorem Rflags.completed_other (f : Rflags) (z : Bool) : (f.completed z).other = f.other := rfl

end Sys2Proof.Machine
end

