-- ==== Sys2Proof/Laws/Ops.lean ====
section
/-! SUPPORT. What each shared operation can do, said once. -/

namespace Sys2Proof.Machine

@[simp] theorem require_true (k : Stop) : require true k = .ok () := rfl
@[simp] theorem require_false (k : Stop) : require false k = .error k := rfl

theorem require_ok {c : Bool} {k : Stop} {u : Unit} : require c k = .ok u ↔ c = true := by
  cases c <;> simp

@[simp] theorem orStop_some {α : Type} (a : α) (k : Stop) : orStop (some a) k = .ok a := rfl
@[simp] theorem orStop_none {α : Type} (k : Stop) : orStop (none : Option α) k = .error k := rfl

theorem orStop_ok {α : Type} {x : Option α} {k : Stop} {a : α} : orStop x k = .ok a ↔ x = some a := by
  cases x <;> simp

/-- A test or an answer, then the rest. -/
theorem bind_ok {α β : Type} {x : Except Stop α} {f : α → Except Stop β} {b : β} :
    (x >>= f) = .ok b ↔ ∃ a, x = .ok a ∧ f a = .ok b := by
  cases x <;> simp [bind, Except.bind]

@[simp] theorem ok_bind {α β : Type} (a : α) (f : α → Except Stop β) : (Except.ok a >>= f) = f a := rfl
@[simp] theorem error_bind {α β : Type} (k : Stop) (f : α → Except Stop β) :
    (Except.error k >>= f) = .error k := rfl

/-! ### Addresses -/

/-- The frame a physical address lies in is an EPC frame exactly when the address is in the EPC. -/
theorem State.epcByte_toNat (s : State) (p : Word) : s.epcByte p.toNat = s.inEpc p := by
  have h : BitVec.ofNat 52 (p.toNat / 4096) = pageNo p := by
    apply BitVec.eq_of_toNat_eq
    rw [pageNo_toNat, BitVec.toNat_ofNat]
    have := p.isLt
    omega
  rw [State.epcByte, State.inEpc, h]

/-- Every byte of a range inside one page lies in the EPC with the page. -/
theorem State.epcByte_of_frame (s : State) (p : Word) (x : Nat) (h : x / 4096 = p.toNat / 4096) :
    s.epcByte x = s.inEpc p := by
  rw [← State.epcByte_toNat, State.epcByte, State.epcByte, h]

theorem State.translate_some {s : State} {a p : Word} {k : Access} : s.translate a k = some p ↔
    ∃ e f, s.pageMap.find? (fun e => e.page == pageNo a) = some e ∧ e.frame k = some f ∧
      p = f ++ a.extractLsb' 0 12 := by
  unfold State.translate
  cases s.pageMap.find? (fun e => e.page == pageNo a) with
  | none => simp
  | some e => simp [eq_comm]

theorem State.translate_offset {s : State} {a p : Word} {k : Access} (h : s.translate a k = some p) :
    p.toNat % 4096 = a.toNat % 4096 := by
  obtain ⟨e, f, -, -, rfl⟩ := State.translate_some.mp h
  rw [toNat_append_offset, toNat_offset]
  omega

/-- Addresses of one page are translated together, to addresses of one frame. -/
theorem State.translate_page {s : State} {a b p : Word} {k : Access} (h : pageNo a = pageNo b)
    (hp : s.translate a k = some p) : ∃ q, s.translate b k = some q ∧ pageNo p = pageNo q := by
  obtain ⟨e, f, he, hk, rfl⟩ := State.translate_some.mp hp
  rw [h] at he
  exact ⟨_, State.translate_some.mpr ⟨e, f, he, hk, rfl⟩, by rw [pageNo_append, pageNo_append]⟩

theorem State.resolveEpc_some {s : State} {a : Word} {p : EpcAddress} : s.resolveEpc a = some p ↔
    s.translate a .read = some p.read ∧ s.translate a .write = some p.write ∧
      s.inEpc p.read = true ∧ s.inEpc p.write = true := by
  obtain ⟨r, w⟩ := p
  unfold State.resolveEpc
  cases s.translate a .read with
  | none => simp
  | some r' =>
    cases s.translate a .write with
    | none => simp
    | some w' =>
      simp only [Option.ite_none_right_eq_some, Bool.and_eq_true, Option.some.injEq, EpcAddress.mk.injEq]
      constructor
      · rintro ⟨⟨h1, h2⟩, rfl, rfl⟩; exact ⟨rfl, rfl, h1, h2⟩
      · rintro ⟨rfl, rfl, h1, h2⟩; exact ⟨⟨h1, h2⟩, rfl, rfl⟩

/-- A page-aligned linear address is translated to the start of a frame. -/
theorem State.page_range {s : State} {a p : Word} {k : Access} (h : s.translate a k = some p)
    (ha : alignedTo 12 a = true) : p.toNat % 4096 = 0 := by
  rw [State.translate_offset h]; exact (alignedTo_iff 12 a).mp ha

/-- An 8-byte slot that is 8-byte aligned lies in one frame. -/
theorem State.slot_range {s : State} {a p : Word} {k : Access} (h : s.translate a k = some p)
    (ha : alignedTo 3 a = true) : p.toNat % 4096 + 8 ≤ 4096 := by
  rw [State.translate_offset h]
  have := (alignedTo_iff 3 a).mp ha
  omega

/-! ### Reads of regular memory -/

theorem State.readRegular_ok {s : State} {r n : Nat} {a : Word} {bs : List Byte} :
    s.readRegular r a n = .ok bs ↔
      ∃ p, s.translate a .read = some p ∧ s.inEpc p = false ∧ bs = Memory.read (s.seenAt r) p.toNat n := by
  unfold State.readRegular
  cases ht : s.translate a .read with
  | none => simp
  | some p =>
    dsimp only
    by_cases hin : s.inEpc p = true
    · rw [if_pos hin]
      constructor
      · intro h; cases h
      · rintro ⟨q, hq, hq', -⟩
        rw [Option.some.injEq] at hq
        rw [← hq, hin] at hq'
        exact absurd hq' (by simp)
    · rw [if_neg hin]
      constructor
      · intro h; exact ⟨p, rfl, by simpa using hin, (Except.ok.inj h).symm⟩
      · rintro ⟨q, hq, -, rfl⟩
        rw [Option.some.injEq] at hq
        rw [hq]

/-- A read of regular memory that does not answer is a page fault at its address, or an operand inside
the EPC. -/
theorem State.readRegular_error {s : State} {r n : Nat} {a : Word} {k : Stop}
    (h : s.readRegular r a n = .error k) :
    k = s.pageFault a ∨ k = .refuse (.regularOperandInEpc a) := by
  unfold State.readRegular at h
  split at h
  · left; exact (Except.error.inj h).symm
  · split at h
    · right; exact (Except.error.inj h).symm
    · simp at h

theorem State.readRegularWord_ok {s : State} {r : Nat} {a w : Word} :
    s.readRegularWord r a = .ok w ↔ ∃ bs, s.readRegular r a 8 = .ok bs ∧ w = leWord bs := by
  unfold State.readRegularWord
  cases s.readRegular r a 8 with
  | error k => simp
  | ok bs => simp [eq_comm]

theorem State.length_readRegular {s : State} {r n : Nat} {a : Word} {bs : List Byte}
    (h : s.readRegular r a n = .ok bs) : bs.length = n := by
  obtain ⟨p, -, -, rfl⟩ := State.readRegular_ok.mp h
  simp

/-- Whether a read of regular memory answers depends on the page only (20_memory.md R66). -/
theorem State.readRegular_page {s : State} {r n : Nat} (r' n' : Nat) {a b : Word} {bs : List Byte}
    (h : pageNo a = pageNo b) (ha : s.readRegular r a n = .ok bs) :
    ∃ bs', s.readRegular r' b n' = .ok bs' := by
  obtain ⟨p, hp, hin, -⟩ := State.readRegular_ok.mp ha
  obtain ⟨q, hq, hpq⟩ := State.translate_page h hp
  refine ⟨_, State.readRegular_ok.mpr ⟨q, hq, ?_, rfl⟩⟩
  rw [State.inEpc, ← hpq]
  exact hin

/-! ### What other agents write -/

theorem State.withOthers_induction (s : State) (P : List Host.Cell → Prop) (h0 : P s.mem)
    (ws : List OtherWrite)
    (h : ∀ w ∈ ws, ∀ m, P m → s.inEpc w.addr = false → P (Memory.write m w.addr.toNat [w.byte])) :
    P (s.withOthers ws) := by
  unfold State.withOthers
  generalize s.mem = m0 at h0
  induction ws generalizing m0 with
  | nil => exact h0
  | cons w ws ih =>
    rw [List.foldl_cons]
    refine ih (fun w' hw' => h w' (by simp [hw'])) _ ?_
    split
    · exact h0
    · next hin => exact h w (by simp) m0 h0 (by simpa using hin)

/-- Other agents' writes keep memory's canonical form. -/
theorem State.wf_withOthers (s : State) (ws : List OtherWrite) (h : Memory.wf s.mem = true) :
    Memory.wf (s.withOthers ws) = true :=
  s.withOthers_induction (fun m => Memory.wf m = true) h ws fun _ _ _ hm _ => Memory.wf_write _ _ _ hm

/-- No byte of the EPC is written by another agent during a step. -/
theorem State.withOthers_epc (s : State) (ws : List OtherWrite) (x : Nat) (hx : s.epcByte x = true) :
    Memory.byte (s.withOthers ws) x = Memory.byte s.mem x := by
  refine s.withOthers_induction (fun m => Memory.byte m x = Memory.byte s.mem x) rfl ws ?_
  intro w _ m hm hin
  rw [Memory.byte_write_out, hm]
  have hne : x ≠ w.addr.toNat := by
    rintro rfl; rw [State.epcByte_toNat] at hx; rw [hx] at hin; exact absurd hin (by simp)
  simp only [List.length_singleton]
  omega

/-- A byte no other agent writes keeps its value. -/
theorem State.withOthers_unwritten (s : State) (ws : List OtherWrite) (x : Nat)
    (hx : ∀ w ∈ ws, w.addr.toNat ≠ x) : Memory.byte (s.withOthers ws) x = Memory.byte s.mem x := by
  refine s.withOthers_induction (fun m => Memory.byte m x = Memory.byte s.mem x) rfl ws ?_
  intro w hw m hm _
  rw [Memory.byte_write_out, hm]
  have := hx w hw
  simp only [List.length_singleton]
  omega

theorem mem_writesUpTo {ws : List OtherWrite} {r : Nat} {w : OtherWrite} (h : w ∈ writesUpTo ws r) : w ∈ ws := by
  induction r with
  | zero => exact (List.mem_filter.mp h).1
  | succ r ih =>
    rcases List.mem_append.mp h with h | h
    · exact ih h
    · exact (List.mem_filter.mp h).1

theorem State.wf_landed (s : State) (h : Memory.wf s.mem = true) : Memory.wf s.landed = true :=
  s.wf_withOthers _ h

theorem State.landed_epc (s : State) (x : Nat) (hx : s.epcByte x = true) :
    Memory.byte s.landed x = Memory.byte s.mem x := s.withOthers_epc _ x hx

theorem State.landed_unwritten (s : State) (x : Nat) (hx : ∀ w ∈ s.input.during, w.addr.toNat ≠ x) :
    Memory.byte s.landed x = Memory.byte s.mem x := by
  refine s.withOthers_unwritten _ x fun w hw => hx w ?_
  rcases List.mem_append.mp hw with hw | hw
  · exact mem_writesUpTo hw
  · exact (List.mem_filter.mp hw).1

theorem writesUpTo_nil (r : Nat) : writesUpTo [] r = [] := by
  induction r with
  | zero => rfl
  | succ r ih => rw [writesUpTo, ih]; rfl

/-- With no write of another agent, a read sees memory as it is. -/
theorem State.seenAt_of_quiet (s : State) (r : Nat) (h : s.input.during = []) : s.seenAt r = s.mem := by
  rw [State.seenAt, h, writesUpTo_nil]; rfl

/-- With no write of another agent, memory is as it was. -/
theorem State.landed_of_quiet (s : State) (h : s.input.during = []) : s.landed = s.mem := by
  rw [State.landed, h, writesUpTo_nil]; rfl

/-! ### The ways an execution ends -/

/-- How an execution that stops can end. -/
theorem State.finish_next {s t : State} {k : Stop} (h : s.finish k = .next t) :
    (k = .gp ∧ t = s.raise .gp) ∨ (∃ a e, k = .pf a e ∧ t = s.raise (.pf a e)) ∨
    (∃ v, k = .vmExit v ∧ t = s.exitVm v) ∨ (∃ c, k = .code c ∧ t = s.complete c true) := by
  cases k with
  | gp => exact .inl ⟨rfl, (Host.Outcome.next.inj h).symm⟩
  | pf a e => exact .inr (.inl ⟨a, e, rfl, (Host.Outcome.next.inj h).symm⟩)
  | vmExit v => exact .inr (.inr (.inl ⟨v, rfl, (Host.Outcome.next.inj h).symm⟩))
  | code c => exact .inr (.inr (.inr ⟨c, rfl, (Host.Outcome.next.inj h).symm⟩))
  | refuse r => simp [State.finish] at h

/-- The launch is admitted exactly when ENCLS is enabled and the mode is one of the two the spec gives
an exception list for. -/
theorem State.admitted_ok {s : State} : s.admitted = .ok () ↔
    s.cfg.enclsEnabled = true ∧
      (s.mode = .mode64 ∨ (s.mode = .protectedMode ∧ s.ds.expandDown = false)) := by
  unfold State.admitted
  cases he : s.cfg.enclsEnabled <;> cases hm : s.mode <;> cases hd : s.ds.expandDown <;> simp

theorem State.enter_ok {s : State} : s.enter = .ok () ↔ s.admitted = .ok () ∧ s.cpl = 0 := by
  unfold State.enter
  split
  · next k h => simp [h]
  · next h => simp [h, require_ok]

end Sys2Proof.Machine
end

