-- ==== Sys2Proof/Laws/Eld.lean ====
section
/-! SUPPORT. What the shared flow of the four leaves can do, said once: one inversion lemma per stage, when the checks pass, how a load ends. -/

namespace Sys2Proof.Machine

/-- Every instruction is the shared flow for its leaf. -/
theorem exec_eq_eld (i : Instr) (s : State) : exec i s = s.eld Config.aesGcmDec i := by
  cases i <;> rfl

theorem State.enterLeaf_ok {s : State} {i : Instr} : s.enterLeaf i = .ok () ↔
    s.admitted = .ok () ∧ s.cpl = 0 ∧ hasLeaf s.cfg i = true := by
  unfold State.enterLeaf
  cases h : s.enter with
  | error k =>
    constructor
    · intro h; cases h
    · rintro ⟨ha, hc, -⟩
      rw [State.enter_ok.mpr ⟨ha, hc⟩] at h
      cases h
  | ok u =>
    rw [State.enter_ok] at h
    rw [require_ok]
    exact ⟨fun hf => ⟨h.1, h.2, hf⟩, fun hf => hf.2.2⟩

/-! ### The fields a VM exit writes -/

@[simp] theorem State.exitFields_exitReason (s : State) (i : Instr) (lc pc : Word) :
    (s.exitFields i lc pc).exitReason = s.cfg.sgxConflict := rfl
@[simp] theorem State.exitFields_exitQualification (s : State) (i : Instr) (lc pc : Word) :
    (s.exitFields i lc pc).exitQualification = s.exitQualification i := rfl
@[simp] theorem State.exitFields_guestPhysical (s : State) (i : Instr) (lc pc : Word) :
    (s.exitFields i lc pc).guestPhysical = pc := rfl
@[simp] theorem State.exitFields_guestLinear (s : State) (i : Instr) (lc pc : Word) :
    (s.exitFields i lc pc).guestLinear = lc := rfl
@[simp] theorem State.exitFields_guestRip (s : State) (i : Instr) (lc pc : Word) :
    (s.exitFields i lc pc).guestRip = s.rip := rfl

/-- A VM exit's `code` and `error` are read back from the exit qualification, where the packing loses
nothing. -/
theorem State.exitFields_get {s : State} (i : Instr) (lc pc : Word) (h : s.cfg.packingOk = true) :
    (s.exitFields i lc pc).code s.cfg =
        (if i.isBase then s.cfg.conflictException else s.cfg.conflictError) ∧
      (s.exitFields i lc pc).error s.cfg = (if i.isBase then 0 else s.cfg.epcPageConflict) := by
  obtain ⟨⟨⟨h1, h2⟩, h3⟩, h4⟩ : ((_ ∧ _) ∧ _) ∧ _ := by simpa [Config.packingOk] using h
  rw [Vmcs.code, Vmcs.error, State.exitFields_exitQualification, State.exitQualification]
  rw [BitField.get_put_apart _ _ _ _ h1, BitField.get_put _ _ _ (by split <;> assumption),
    BitField.get_put]
  · exact ⟨rfl, rfl⟩
  · unfold fieldHolds at h4 ⊢
    split
    · simp_all
    · exact h4

/-- The bits of the exit qualification in neither sub-field stay. -/
theorem State.exitQualification_out (s : State) (i : Instr) {k : Nat}
    (h1 : k < s.cfg.qualCode.pos ∨ s.cfg.qualCode.pos + s.cfg.qualCode.width ≤ k)
    (h2 : k < s.cfg.qualError.pos ∨ s.cfg.qualError.pos + s.cfg.qualError.width ≤ k) :
    (s.exitQualification i).getLsbD k = s.vmcs.exitQualification.getLsbD k := by
  rw [State.exitQualification, BitField.getLsbD_put_out _ _ _ h2, BitField.getLsbD_put_out _ _ _ h1]

/-! ### The stages -/

/-- S1 to S4 pass. -/
structure RegOk (s : State) (o : RegOperands) : Prop where
  pageinfo : s.lin s.rbx 32 = .ok o.lb
  target : s.lin s.rcx 4096 = .ok o.lc
  pageinfoAligned : alignedTo 5 o.lb = true
  targetAligned : alignedTo 12 o.lc = true
  targetResident : s.resolveEpc o.lc = some { read := o.rc, write := o.pc }
  slot : s.lin s.rdx 8 = .ok o.ld
  slotAligned : alignedTo 3 o.ld = true
  slotResident : s.resolveEpc o.ld = some { read := o.rd, write := o.pd }

theorem State.regOperands_ok {s : State} {o : RegOperands} : s.regOperands = .ok o ↔ RegOk s o := by
  unfold State.regOperands
  simp only [bind_ok, require_ok, orStop_ok, Bool.and_eq_true]
  constructor
  · rintro ⟨lb, h1, lc, h2, -, ⟨h3, h4⟩, pc, h5, ld, h6, -, h7, pd, h8, h9⟩
    cases h9
    exact ⟨h1, h2, h3, h4, h5, h6, h7, h8⟩
  · rintro ⟨h1, h2, h3, h4, h5, h6, h7, h8⟩
    exact ⟨_, h1, _, h2, (), ⟨h3, h4⟩, _, h5, _, h6, (), h7, _, h8, rfl⟩

/-- S5 and S6 pass. -/
structure LinkedOk (s : State) (lb : Word) (p : LinkedOperands) (srcpge pcmd : Word) : Prop where
  srcpgeRead : s.readRegularWord 1 (fieldAddr lb s.cfg.layout.pageinfoSrcpge) = .ok srcpge
  secsRead : s.readRegularWord 2 (fieldAddr lb s.cfg.layout.pageinfoSecs) = .ok p.secs
  pcmdRead : s.readRegularWord 3 (fieldAddr lb s.cfg.layout.pageinfoSecinfo) = .ok pcmd
  pcmdLin : s.lin pcmd 128 = .ok p.lp
  sourceLin : s.lin srcpge 4096 = .ok p.ls
  pcmdAligned : alignedTo 7 p.lp = true
  sourceAligned : alignedTo 12 p.ls = true

theorem State.linkedOperands_ok {s : State} {lb : Word} {p : LinkedOperands} :
    s.linkedOperands lb = .ok p ↔ ∃ srcpge pcmd, LinkedOk s lb p srcpge pcmd := by
  unfold State.linkedOperands
  simp only [bind_ok, require_ok, Bool.and_eq_true]
  constructor
  · rintro ⟨a, h1, b, h2, c, h3, d, h4, e, h5, -, ⟨h6, h7⟩, h8⟩
    cases h8
    exact ⟨a, c, h1, h2, h3, h4, h5, h6, h7⟩
  · rintro ⟨a, c, h1, h2, h3, h4, h5, h6, h7⟩
    exact ⟨_, h1, _, h2, _, h3, _, h4, _, h5, (), ⟨h6, h7⟩, rfl⟩

theorem State.acquire_ok {s : State} {i : Instr} {o : RegOperands} : s.acquire i o = .ok () ↔
    s.targetConflict o.pc = false ∧ s.vaConflict o.pd = false ∧ (s.epcmAt o.pc).valid = false ∧
      (s.epcmAt o.pd).valid = true ∧ (s.epcmAt o.pd).pt = s.cfg.ptVa := by
  unfold State.acquire
  simp only [bind_ok, require_ok, Bool.and_eq_true, Bool.not_eq_true', beq_iff_eq]
  constructor
  · rintro ⟨-, h1, -, h2, -, h3, h4, h5⟩; exact ⟨h1, h2, h3, h4, h5⟩
  · rintro ⟨h1, h2, h3, h4, h5⟩; exact ⟨(), h1, (), h2, (), h3, h4, h5⟩

theorem State.readHeader_ok {s : State} {lb lp : Word} {h : MacHeader} : s.readHeader lb lp = .ok h ↔
    ∃ scratch linaddr, s.readRegular 4 lp 128 = .ok scratch ∧
      s.readRegularWord 5 (fieldAddr lb s.cfg.layout.pageinfoLinaddr) = .ok linaddr ∧
      h = { secinfo := slice scratch s.cfg.layout.pcmdSecinfo 64
            rsvd := slice scratch s.cfg.layout.pcmdRsvd 40, linaddr := linaddr, eid := 0 } ∧
      (s.cfg.checkSecinfoReserved = true → h.reservedClear s.cfg = true) := by
  unfold State.readHeader
  simp only [bind_ok, require_ok, Bool.or_eq_true, Bool.not_eq_true']
  constructor
  · rintro ⟨a, h1, b, h2, -, h3, h4⟩
    cases h4
    refine ⟨a, b, h1, h2, rfl, fun hc => ?_⟩
    rcases h3 with h3 | h3
    · rw [hc] at h3; cases h3
    · exact h3
  · rintro ⟨a, b, h1, h2, rfl, h3⟩
    refine ⟨a, h1, b, h2, (), ?_, rfl⟩
    cases hc : s.cfg.checkSecinfoReserved with
    | false => exact .inl rfl
    | true => exact .inr (h3 hc)

theorem State.parentEid_ok {s : State} {i : Instr} {secs eid : Word} :
    s.parentEid i secs = .ok eid ↔ ∃ le pe, ParentOk s secs eid le pe := by
  unfold State.parentEid
  simp only [bind_ok, require_ok, orStop_ok, Bool.or_eq_true, Bool.and_eq_true, Bool.not_eq_true',
    beq_iff_eq]
  constructor
  · rintro ⟨le, h1, -, h2, pe, h3, -, h4, -, h5, h6⟩
    refine ⟨le, pe, h1, h2, h3, fun hc => ?_, h5, (Except.ok.inj h6).symm⟩
    rcases h4 with h4 | h4
    · rw [hc] at h4; cases h4
    · exact h4
  · rintro ⟨le, pe, h1, h2, h3, h4, h5, h6⟩
    refine ⟨le, h1, (), h2, pe, h3, (), ?_, (), h5, by rw [h6]⟩
    cases hc : s.cfg.checkSecsEpcm with
    | false => exact .inl rfl
    | true => exact .inr (h4 hc)

theorem State.bindEid_ok {s : State} {i : Instr} {h h' : MacHeader} {secs : Word} :
    s.bindEid i h secs = .ok h' ↔ ∃ eid, h' = { h with eid := eid } ∧
      (hasParent s.cfg (h.pt s.cfg.layout) = true → s.parentEid i secs = .ok eid) ∧
      (hasParent s.cfg (h.pt s.cfg.layout) = false → eid = 0) := by
  unfold State.bindEid
  cases hp : hasParent s.cfg (h.pt s.cfg.layout) with
  | false =>
    rw [if_neg (by simp)]
    constructor
    · intro hh; cases hh; exact ⟨0, rfl, fun h => (by cases h), fun _ => rfl⟩
    · rintro ⟨eid, rfl, -, h0⟩; rw [h0 rfl]
  | true =>
    rw [if_pos rfl]
    cases he : s.parentEid i secs with
    | error k =>
      constructor
      · intro h; cases h
      · rintro ⟨eid, -, h1, -⟩; cases h1 rfl
    | ok eid =>
      constructor
      · intro hh; cases hh; exact ⟨eid, rfl, fun _ => rfl, fun h => (by cases h)⟩
      · rintro ⟨eid', rfl, h1, -⟩; cases h1 rfl; rfl

/-- The page type does not depend on the EID. -/
@[simp] theorem MacHeader.pt_eid (h : MacHeader) (e : Word) (l : Layout) :
    MacHeader.pt { h with eid := e } l = h.pt l := rfl

/-- The EPCM entry does not depend on the EID. -/
@[simp] theorem MacHeader.entry_eid (h : MacHeader) (e : Word) (c : Config) (i : Instr) :
    MacHeader.entry { h with eid := e } c i = h.entry c i := rfl

/-- What the checks hand to the load. -/
def LoadView.toLoad (v : LoadView) (c : Config) : Load :=
  { lc := v.lc, pc := v.pc, pd := v.pd, rc := v.rc, rd := v.rd, lp := v.lp, header := v.header c, source := v.source }

/-- The checks pass exactly when the conditions of 70 R211 hold. -/
theorem State.check_ok {s : State} {i : Instr} {l : Load} :
    s.check i = .ok l ↔ ∃ v, CanLoad s i v ∧ l = v.toLoad s.cfg := by
  unfold State.check
  simp only [bind_ok]
  constructor
  · rintro ⟨⟨⟩, h0, o, h1, p, h2, ⟨⟩, h3, h, h4, h', h5, src, h6, h7⟩
    cases h7
    obtain ⟨ha, hc, hf⟩ := State.enterLeaf_ok.mp h0
    obtain ⟨he, hm⟩ := State.admitted_ok.mp ha
    obtain ⟨r1, r2, r3, r4, r5, r6, r7, r8⟩ := State.regOperands_ok.mp h1
    obtain ⟨srcpge, pcmd, l1, l2, l3, l4, l5, l6, l7⟩ := State.linkedOperands_ok.mp h2
    obtain ⟨q1, q2, q3, q4, q5⟩ := State.acquire_ok.mp h3
    obtain ⟨scratch, linaddr, d1, d2, rfl, d3⟩ := State.readHeader_ok.mp h4
    obtain ⟨eid, rfl, e1, e2⟩ := State.bindEid_ok.mp h5
    refine ⟨⟨o.lb, o.lc, o.pc, o.ld, o.pd, o.rc, o.rd, srcpge, p.secs, pcmd, p.lp, p.ls, scratch, linaddr, eid, src⟩,
      ⟨he, hm, hc, hf, r1, r3, r2, r4, r5, r6, r7, r8, l1, l2, l3, l4, l6, l5, l7, q1, q2, q3, q4, q5,
        d1, d2, d3, fun hp => State.parentEid_ok.mp (e1 hp), e2, h6⟩, rfl⟩
  · rintro ⟨v, c, rfl⟩
    refine ⟨(), State.enterLeaf_ok.mpr ⟨State.admitted_ok.mpr ⟨c.enabled, c.mode⟩, c.privilege, c.feature⟩,
      ⟨v.lb, v.lc, v.pc, v.ld, v.pd, v.rc, v.rd⟩,
      State.regOperands_ok.mpr ⟨c.pageinfo, c.target, c.pageinfoAligned, c.targetAligned,
        c.targetResident, c.slot, c.slotAligned, c.slotResident⟩,
      ⟨v.lp, v.ls, v.secs⟩,
      State.linkedOperands_ok.mpr ⟨v.srcpge, v.pcmd, c.srcpge, c.secs, c.pcmd, c.pcmdLin, c.sourceLin,
        c.pcmdAligned, c.sourceAligned⟩,
      (), State.acquire_ok.mpr ⟨c.targetUnlocked, c.slotUnlocked, c.targetFree, c.slotValid, c.slotType⟩,
      _, State.readHeader_ok.mpr ⟨v.scratch, v.linaddr, c.scratch, c.linaddr, rfl, c.switched⟩,
      _, State.bindEid_ok.mpr ⟨v.eid, rfl, fun hp => State.parentEid_ok.mpr (c.parent hp), c.noParent⟩,
      v.source, c.source, rfl⟩

/-- The bytes of the source page number 4096, so nothing of them is dropped. -/
theorem pageBytes_toList {bs : List Byte} (h : bs.length = 4096) : (pageBytes bs).toList = bs := by
  show (bs ++ List.replicate 4096 0).take 4096 = bs
  rw [List.take_append_of_le_length (by omega), List.take_of_length_le (by omega)]

/-! ### How a load ends -/

/-- The MAC read again is in the page of the PCMD read before, so it is answered (40_eld_leaves.md R149,
90 C13). -/
theorem CanLoad.mac_read {s : State} {i : Instr} {v : LoadView} (c : CanLoad s i v) :
    ∃ mac, v.storedMac s = .ok mac := by
  refine State.readRegular_page 11 16 ?_ c.scratch
  exact (pageNo_fieldAddr v.lp 7 _ (by omega) c.pcmdAligned
    (by have := s.cfg.layout.pcmdMac.isLt; omega)).symm

/-- A load ends in one of four ways. -/
theorem State.load_cases {s : State} {dec : AesGcmDec} {i : Instr} {l : Load} :
    (∃ k, s.readRegular 11 (fieldAddr l.lp s.cfg.layout.pcmdMac) 16 = .error k ∧
      s.load dec i l = (s.afterInput.withMem (l.overwritten dec s s.landed)).finish k) ∨
    (∃ mac, s.readRegular 11 (fieldAddr l.lp s.cfg.layout.pcmdMac) 16 = .ok mac ∧
      (((l.decrypted dec s s.landed).2 ≠ leMac mac ∧ s.load dec i l =
          .next ((s.afterInput.withMem (l.overwritten dec s s.landed)).complete
            s.cfg.macCompareFail true)) ∨
       ((l.decrypted dec s s.landed).2 = leMac mac ∧
          l.slotCommit s.cfg (l.version s.landed) (l.overwritten dec s s.landed) = none ∧
          s.load dec i l = .next ((s.afterInput.withMem (l.overwritten dec s s.landed)).raise .gp)) ∨
       ((l.decrypted dec s s.landed).2 = leMac mac ∧
          ∃ m, l.slotCommit s.cfg (l.version s.landed) (l.overwritten dec s s.landed) = some m ∧
          s.load dec i l = .next (s.afterInput.commit i l m)))) := by
  unfold State.load
  simp only [State.afterInput_mem]
  cases hr : s.readRegular 11 (fieldAddr l.lp s.cfg.layout.pcmdMac) 16 with
  | error k => exact .inl ⟨k, rfl, rfl⟩
  | ok mac =>
    refine .inr ⟨mac, rfl, ?_⟩
    dsimp only
    by_cases hm : (l.decrypted dec s s.landed).2 = leMac mac
    · rw [if_pos hm]
      cases hs : l.slotCommit s.cfg (l.version s.landed) (l.overwritten dec s s.landed) with
      | none => exact .inr (.inl ⟨hm, rfl, rfl⟩)
      | some m => exact .inr (.inr ⟨hm, m, rfl, rfl⟩)
    · rw [if_neg hm]
      exact .inl ⟨hm, rfl⟩

end Sys2Proof.Machine
end

