-- ==== Sys2Proof/Laws/Header.lean ====
section
/-! SUPPORT. What the switch CHECK_SECINFO_RESERVED tests, said bit by bit and byte by byte. -/

namespace Sys2Proof.Machine

theorem getLsbD_twoPow (n k : Nat) (hk : k < 64) : (BitVec.ofNat 64 (2 ^ n)).getLsbD k = decide (n = k) := by
  rw [BitVec.getLsbD_ofNat, Nat.testBit_two_pow]
  simp [hk]

theorem getLsbD_byteMask (n k : Nat) (hk : k < 64) :
    (BitVec.ofNat 64 (255 * 2 ^ n)).getLsbD k = decide (n ≤ k ∧ k < n + 8) := by
  rw [BitVec.getLsbD_ofNat, ← Nat.shiftLeft_eq, Nat.testBit_shiftLeft, show 255 = 2 ^ 8 - 1 from rfl,
    Nat.testBit_two_pow_sub_one]
  by_cases h : n ≤ k
  · have : (k - n < 8) = (k < n + 8) := by rw [eq_iff_iff]; omega
    simp [hk, h, this]
  · simp [h]

/-- No FLAGS bit outside the seven fields is set. -/
theorem flagsReserved_eq_zero (l : Layout) (f : Word) : flagsReserved l f = 0 ↔
    ∀ k, k < 64 → k ≠ l.flagR.val → k ≠ l.flagW.val → k ≠ l.flagX.val → k ≠ l.flagPending.val →
      k ≠ l.flagModified.val → k ≠ l.flagPr.val → (k < l.flagPt.val ∨ l.flagPt.val + 8 ≤ k) →
      f.getLsbD k = false := by
  have bit : ∀ k, k < 64 → (flagsReserved l f).getLsbD k =
      (f.getLsbD k && !(decide (l.flagR.val = k) || decide (l.flagW.val = k) || decide (l.flagX.val = k) ||
        decide (l.flagPending.val = k) || decide (l.flagModified.val = k) || decide (l.flagPr.val = k) ||
        decide (l.flagPt.val ≤ k ∧ k < l.flagPt.val + 8))) := by
    intro k hk
    unfold flagsReserved
    simp only [BitVec.getLsbD_and, BitVec.getLsbD_not, BitVec.getLsbD_or, getLsbD_twoPow _ _ hk,
      getLsbD_byteMask _ _ hk, hk, decide_true, Bool.true_and]
  constructor
  · intro h k hk h1 h2 h3 h4 h5 h6 h7
    have hb := bit k hk
    rw [h, show (0 : Word).getLsbD k = false from BitVec.getLsbD_zero, decide_eq_false (Ne.symm h1), decide_eq_false (Ne.symm h2),
      decide_eq_false (Ne.symm h3), decide_eq_false (Ne.symm h4), decide_eq_false (Ne.symm h5),
      decide_eq_false (Ne.symm h6), decide_eq_false (by omega)] at hb
    simpa using hb.symm
  · intro h
    apply BitVec.eq_of_getLsbD_eq
    intro k hk
    rw [bit k hk, show (0 : Word).getLsbD k = false from BitVec.getLsbD_zero, Bool.and_eq_false_iff]
    by_cases hr : k ≠ l.flagR.val ∧ k ≠ l.flagW.val ∧ k ≠ l.flagX.val ∧ k ≠ l.flagPending.val ∧
        k ≠ l.flagModified.val ∧ k ≠ l.flagPr.val ∧ (k < l.flagPt.val ∨ l.flagPt.val + 8 ≤ k)
    · obtain ⟨h1, h2, h3, h4, h5, h6, h7⟩ := hr
      exact .inl (h k hk h1 h2 h3 h4 h5 h6 h7)
    · right
      simp only [Bool.not_eq_false', Bool.or_eq_true, decide_eq_true_eq]
      omega

/-- No byte outside the eight at an offset is set. -/
theorem all_outside (bs : List Byte) (o : Nat) : (bs.take o ++ bs.drop (o + 8)).all (· == 0) = true ↔
    ∀ k b, bs[k]? = some b → (k < o ∨ o + 8 ≤ k) → b = 0 := by
  simp only [List.all_eq_true, List.mem_append, beq_iff_eq]
  constructor
  · intro h k b hb hk
    rcases hk with hk | hk
    · exact h b (.inl (List.mem_of_getElem? (i := k) (by rw [List.getElem?_take_of_lt hk]; exact hb)))
    · exact h b (.inr (List.mem_of_getElem? (i := k - (o + 8)) (by
        rw [List.getElem?_drop, Nat.add_sub_cancel' hk]; exact hb)))
  · rintro h b (hb | hb)
    · obtain ⟨k, hk⟩ := List.getElem?_of_mem hb
      rw [List.getElem?_take] at hk
      split at hk
      · next hlt => exact h k b hk (.inl hlt)
      · cases hk
    · obtain ⟨k, hk⟩ := List.getElem?_of_mem hb
      rw [List.getElem?_drop] at hk
      exact h _ b hk (.inr (by omega))

/-- The test of the switch is the list of 93 U3. -/
theorem MacHeader.reservedClear_iff (h : MacHeader) (c : Config) :
    h.reservedClear c = true ↔ SecinfoClear c h := by
  unfold MacHeader.reservedClear
  simp only [Bool.and_eq_true, beq_iff_eq, flagsReserved_eq_zero, all_outside, alignedTo_iff]
  have hp : namedType c (flagsPt c.layout (h.flags c.layout)) = true ↔
      h.pt c.layout ∈ [c.ptSecs, c.ptTcs, c.ptReg, c.ptVa, c.ptTrim] := by
    unfold namedType hasParent MacHeader.pt
    simp only [Bool.or_eq_true, beq_iff_eq, List.mem_cons, List.not_mem_nil, or_false]
    tauto
  rw [hp]
  simp only [List.all_eq_true, beq_iff_eq]
  constructor
  · rintro ⟨⟨⟨⟨h1, h2⟩, h3⟩, h4⟩, h5⟩; exact ⟨h1, h2, h3, h4, h5⟩
  · rintro ⟨h1, h2, h3, h4, h5⟩; exact ⟨⟨⟨⟨h1, h2⟩, h3⟩, h4⟩, h5⟩

end Sys2Proof.Machine
end

