-- ==== Sys2Proof/Laws/Load.lean ====
section
/-! SUPPORT. The load, said once: where its operands lie, what its memory accesses give, how it ends, and every way an execution of a leaf can end. -/

namespace Sys2Proof.Machine

/-! ### Where the operands of a load lie -/

theorem CanLoad.regOperands {s : State} {i : Instr} {v : LoadView} (c : CanLoad s i v) :
    s.regOperands = .ok ⟨v.lb, v.lc, v.pc, v.ld, v.pd, v.rc, v.rd⟩ :=
  State.regOperands_ok.mpr ⟨c.pageinfo, c.target, c.pageinfoAligned, c.targetAligned, c.targetResident,
    c.slot, c.slotAligned, c.slotResident⟩

theorem CanLoad.check {s : State} {i : Instr} {v : LoadView} (c : CanLoad s i v) :
    s.check i = .ok (v.toLoad s.cfg) := State.check_ok.mpr ⟨v, c, rfl⟩

/-- The VA slot lies outside the target page: one page is free, the other valid (40_eld_leaves.md R148). -/
theorem CanLoad.slot_apart {s : State} {i : Instr} {v : LoadView} (c : CanLoad s i v) :
    v.pd.toNat + 8 ≤ v.pc.toNat ∨ v.pc.toNat + 4096 ≤ v.pd.toNat := by
  have hp : v.pc.toNat % 4096 = 0 :=
    State.page_range (State.resolveEpc_some.mp c.targetResident).2.1 c.targetAligned
  have hd : v.pd.toNat % 4096 + 8 ≤ 4096 :=
    State.slot_range (State.resolveEpc_some.mp c.slotResident).2.1 c.slotAligned
  have hne : v.pc.toNat / 4096 ≠ v.pd.toNat / 4096 := by
    intro h
    have he : s.epcmAt v.pc = s.epcmAt v.pd := by
      rw [State.epcmAt, State.epcmAt, frameOf_eq, frameOf_eq, h]
    have hv := c.targetFree
    rw [he, c.slotValid] at hv
    cases hv
  omega

/-- A page-aligned linear address translated into the EPC: its frame is one of the EPC. -/
theorem State.inPage_epc {s : State} {a p : Word} {k : Access} (ht : s.translate a k = some p)
    (ha : alignedTo 12 a = true) (hin : s.inEpc p = true) {x : Nat} (h : inPage p x) :
    s.epcByte x = true ∧ x / 4096 = frameOf p := by
  have hp := State.page_range ht ha
  have hx : x / 4096 = p.toNat / 4096 := by unfold inPage at h; omega
  exact ⟨by rw [s.epcByte_of_frame p x hx]; exact hin, by rw [hx, frameOf_eq]⟩

/-- A slot's address translated into the EPC: its eight bytes lie in one frame of the EPC. -/
theorem State.inSlot_epc {s : State} {a p : Word} {k : Access} (ht : s.translate a k = some p)
    (ha : alignedTo 3 a = true) (hin : s.inEpc p = true) {x : Nat} (h : inSlot p x) :
    s.epcByte x = true ∧ x / 4096 = frameOf p := by
  have hd := State.slot_range ht ha
  have hx : x / 4096 = p.toNat / 4096 := by unfold inSlot at h; omega
  exact ⟨by rw [s.epcByte_of_frame p x hx]; exact hin, by rw [hx, frameOf_eq]⟩

theorem RegOk.target_epc {s : State} {o : RegOperands} (r : RegOk s o) {x : Nat} (h : inPage o.pc x) :
    s.epcByte x = true ∧ x / 4096 = frameOf o.pc := by
  obtain ⟨-, ht, -, hin⟩ := State.resolveEpc_some.mp r.targetResident
  exact State.inPage_epc ht r.targetAligned hin h

theorem RegOk.slot_epc {s : State} {o : RegOperands} (r : RegOk s o) {x : Nat} (h : inSlot o.pd x) :
    s.epcByte x = true ∧ x / 4096 = frameOf o.pd := by
  obtain ⟨-, ht, -, hin⟩ := State.resolveEpc_some.mp r.slotResident
  exact State.inSlot_epc ht r.slotAligned hin h

theorem CanLoad.regOk {s : State} {i : Instr} {v : LoadView} (c : CanLoad s i v) :
    RegOk s ⟨v.lb, v.lc, v.pc, v.ld, v.pd, v.rc, v.rd⟩ := State.regOperands_ok.mp c.regOperands

theorem CanLoad.target_epc {s : State} {i : Instr} {v : LoadView} (c : CanLoad s i v) {x : Nat}
    (h : inPage v.pc x) : s.epcByte x = true ∧ x / 4096 = frameOf v.pc := c.regOk.target_epc h

/-- The page the decryption reads lies in the EPC. -/
theorem CanLoad.targetRead_epc {s : State} {i : Instr} {v : LoadView} (c : CanLoad s i v) {x : Nat}
    (h : inPage v.rc x) : s.epcByte x = true ∧ x / 4096 = frameOf v.rc := by
  obtain ⟨ht, -, hin, -⟩ := State.resolveEpc_some.mp c.targetResident
  exact State.inPage_epc ht c.targetAligned hin h

/-- The slot that is read lies in the EPC. -/
theorem CanLoad.slotRead_epc {s : State} {i : Instr} {v : LoadView} (c : CanLoad s i v) {x : Nat}
    (h : inSlot v.rd x) : s.epcByte x = true ∧ x / 4096 = frameOf v.rd := by
  obtain ⟨ht, -, hin, -⟩ := State.resolveEpc_some.mp c.slotResident
  exact State.inSlot_epc ht c.slotAligned hin h

theorem CanLoad.slot_epc {s : State} {i : Instr} {v : LoadView} (c : CanLoad s i v) {x : Nat}
    (h : inSlot v.pd x) : s.epcByte x = true ∧ x / 4096 = frameOf v.pd := c.regOk.slot_epc h

/-! ### What its memory accesses give -/

@[simp] theorem LoadView.toLoad_lc (v : LoadView) (c : Config) : (v.toLoad c).lc = v.lc := rfl
@[simp] theorem LoadView.toLoad_pc (v : LoadView) (c : Config) : (v.toLoad c).pc = v.pc := rfl
@[simp] theorem LoadView.toLoad_pd (v : LoadView) (c : Config) : (v.toLoad c).pd = v.pd := rfl
@[simp] theorem LoadView.toLoad_rc (v : LoadView) (c : Config) : (v.toLoad c).rc = v.rc := rfl
@[simp] theorem LoadView.toLoad_rd (v : LoadView) (c : Config) : (v.toLoad c).rd = v.rd := rfl
@[simp] theorem LoadView.toLoad_lp (v : LoadView) (c : Config) : (v.toLoad c).lp = v.lp := rfl
@[simp] theorem LoadView.toLoad_header (v : LoadView) (c : Config) : (v.toLoad c).header = v.header c := rfl
@[simp] theorem LoadView.toLoad_source (v : LoadView) (c : Config) : (v.toLoad c).source = v.source := rfl

theorem CanLoad.length_source {s : State} {i : Instr} {v : LoadView} (c : CanLoad s i v) :
    v.source.length = 4096 := State.length_readRegular c.source

/-- The copy, the version, the decryption and the memory it leaves, of a load and of its view. -/
theorem LoadView.toLoad_copied (v : LoadView) (s : State) :
    (v.toLoad s.cfg).copied s.landed = v.copied s := rfl
theorem LoadView.toLoad_version (v : LoadView) (s : State) :
    (v.toLoad s.cfg).version s.landed = v.version s := rfl
theorem LoadView.toLoad_decrypted (v : LoadView) (s : State) :
    (v.toLoad s.cfg).decrypted Config.aesGcmDec s s.landed = v.outputs s := rfl
theorem LoadView.toLoad_filled (v : LoadView) (s : State) :
    (v.toLoad s.cfg).overwritten Config.aesGcmDec s s.landed = v.filled s := rfl

/-- The memory the decryption leaves: the plain text in the target page (20_memory.md R77). -/
theorem LoadView.filled_in (v : LoadView) (s : State) (k : Nat) (hk : k < 4096) :
    Memory.byte (v.filled s) (v.pc.toNat + k) = (v.outputs s).1[k] := by
  rw [LoadView.filled]
  exact (Memory.byte_write_in _ _ k _ (by simpa using hk)).trans (by simp)

/-- The memory the decryption leaves: outside the target page, as it was but for other agents' writes. -/
theorem CanLoad.filled_out {s : State} {i : Instr} {v : LoadView} (c : CanLoad s i v) (x : Nat)
    (h : ¬inPage v.pc x) :
    Memory.byte (v.filled s) x = Memory.byte s.landed x := by
  have h' : x < v.pc.toNat ∨ v.pc.toNat + 4096 ≤ x := by unfold inPage at h; omega
  rw [LoadView.filled, Memory.byte_write_out _ _ _ _ (by simpa using h'), LoadView.copied,
    Memory.byte_write_out _ _ _ _ (by simpa [c.length_source] using h')]

/-- The target page after the decryption is the plain text. -/
theorem LoadView.filled_page (v : LoadView) (s : State) :
    Memory.read (v.filled s) v.pc.toNat 4096 = (v.outputs s).1.toList := by
  apply List.ext_getElem (by simp)
  intro k h _
  have hk : k < 4096 := by simpa using h
  simp only [Memory.read_eq, List.getElem_map, List.getElem_range]
  rw [v.filled_in s k hk]
  simp

/-- The slot that is written holds, after the decryption, what it held (40_eld_leaves.md R138). -/
theorem CanLoad.filled_slot {s : State} {i : Instr} {v : LoadView} (c : CanLoad s i v) :
    Memory.read (v.filled s) v.pd.toNat 8 = Memory.read s.mem v.pd.toNat 8 := by
  refine Memory.read_congr _ _ _ _ fun k hk => ?_
  have ha := c.slot_apart
  rw [c.filled_out _ (by unfold inPage; omega)]
  exact s.landed_epc _ (c.slot_epc (x := v.pd.toNat + k) (by unfold inSlot; omega)).1

/-- A slot read in another frame than the target page reads, all through the load, as it was. -/
theorem CanLoad.slot_read_apart {s : State} {i : Instr} {v : LoadView} (c : CanLoad s i v)
    (h : pageNo v.rd ≠ pageNo v.pc) : v.version s = leWord (Memory.read s.mem v.rd.toNat 8) ∧
      v.slotAtCheck s = v.version s := by
  have hf : v.rd.toNat / 4096 ≠ v.pc.toNat / 4096 := fun e =>
    h (BitVec.eq_of_toNat_eq (by rw [pageNo_toNat, pageNo_toNat, e]))
  have hr : v.rd.toNat % 4096 + 8 ≤ 4096 :=
    State.slot_range (State.resolveEpc_some.mp c.slotResident).1 c.slotAligned
  have hp : v.pc.toNat % 4096 = 0 :=
    State.page_range (State.resolveEpc_some.mp c.targetResident).2.1 c.targetAligned
  have hl : ∀ k < 8, Memory.byte s.landed (v.rd.toNat + k) = Memory.byte s.mem (v.rd.toNat + k) :=
    fun k hk => s.landed_epc _ (c.slotRead_epc (by unfold inSlot; omega)).1
  have h1 : v.version s = leWord (Memory.read s.mem v.rd.toNat 8) :=
    congrArg leWord (Memory.read_congr _ _ _ _ fun k hk => by
      rw [LoadView.copied, Memory.byte_write_out _ _ _ _ (by rw [c.length_source]; omega), hl k hk])
  refine ⟨h1, h1 ▸ congrArg leWord (Memory.read_congr _ _ _ _ fun k hk => ?_)⟩
  rw [c.filled_out _ (by unfold inPage; omega), hl k hk]

/-- A target page read in the frame it is written in: what is decrypted is the source page. -/
theorem CanLoad.copied_page {s : State} {i : Instr} {v : LoadView} (c : CanLoad s i v) (h : v.rc = v.pc) :
    Memory.read (v.copied s) v.rc.toNat 4096 = v.source := by
  have hw := Memory.read_write s.landed v.pc.toNat v.source
  rw [c.length_source] at hw
  rw [LoadView.copied, h, hw]

/-! ### How a load ends -/

/-- What S18 does: under LITERAL the check may fail; else the slot is written (40_eld_leaves.md R138). -/
theorem LoadView.slotCommit (v : LoadView) (s : State) :
    (v.toLoad s.cfg).slotCommit s.cfg (v.version s) (v.filled s) =
      if s.cfg.vaCommit = .literal ∧ v.slotAtCheck s ≠ 0 then none
      else some (Memory.write (v.filled s) v.pd.toNat (wordBytes (v.slotWritten s))) := by
  unfold Load.slotCommit LoadView.slotWritten
  cases s.cfg.vaCommit with
  | freeSlot => simp
  | literal =>
    show (if v.slotAtCheck s = 0 then _ else _) = _
    by_cases h : v.slotAtCheck s = 0
    · rw [if_pos h, if_neg (by simp [h]), v.toLoad_pd]
    · rw [if_neg h, if_pos ⟨rfl, h⟩]

/-- A load that reaches the decryption ends in one of three ways. -/
theorem CanLoad.ends {s : State} {i : Instr} {v : LoadView} {mac : List Byte} (c : CanLoad s i v)
    (hr : v.storedMac s = .ok mac) :
    exec i s = .next (
      if (v.outputs s).2 ≠ leMac mac then
        (s.afterInput.withMem (v.filled s)).complete s.cfg.macCompareFail true
      else if s.cfg.vaCommit = .literal ∧ v.slotAtCheck s ≠ 0 then
        (s.afterInput.withMem (v.filled s)).raise .gp
      else s.afterInput.commit i (v.toLoad s.cfg)
        (Memory.write (v.filled s) v.pd.toNat (wordBytes (v.slotWritten s)))) := by
  rw [exec_eq_eld, State.eld, c.check]
  dsimp only
  rw [State.load]
  simp only [State.afterInput_mem]
  rw [show (v.toLoad s.cfg).lp = v.lp from rfl, show s.readRegular 11 _ 16 = .ok mac from hr]
  dsimp only
  rw [v.toLoad_decrypted, v.toLoad_version, v.toLoad_filled, v.slotCommit]
  by_cases hm : (v.outputs s).2 = leMac mac
  · rw [if_pos hm, if_neg (not_not.mpr hm)]
    by_cases hv : s.cfg.vaCommit = .literal ∧ v.slotAtCheck s ≠ 0
    · rw [if_pos hv, if_pos hv]; rfl
    · rw [if_neg hv, if_neg hv]
  · rw [if_neg hm, if_pos hm]; rfl

/-- A load that meets the conditions of 70 R211 commits. -/
theorem Succeeds.ends {s : State} {i : Instr} {v : LoadView} {mac : List Byte} (h : Succeeds s i v mac) :
    exec i s = .next (s.afterInput.commit i (v.toLoad s.cfg)
      (Memory.write (v.filled s) v.pd.toNat (wordBytes (v.slotWritten s)))) := by
  rw [h.loads.ends h.read, if_neg (not_not.mpr h.verified), if_neg]
  rintro ⟨hl, hv⟩
  exact hv (h.slotFree hl)

/-- The state a committed load leaves: its EPCM entries. -/
theorem State.commit_epcmGet (s : State) (i : Instr) (l : Load) (m : List Host.Cell) (f : Nat) :
    Sparse.get EpcmEntry.free f (s.commit i l m).epcm =
      if f = frameOf l.pc then l.header.entry s.cfg i else Sparse.get EpcmEntry.free f s.epcm := by
  rw [State.commit_epcm, Sparse.get_put_one]

/-- The target's entry after a committed load. -/
theorem LoadView.commit_epcmAt (v : LoadView) (s : State) (i : Instr) (m : List Host.Cell) :
    (s.afterInput.commit i (v.toLoad s.cfg) m).epcmAt v.pc = (v.header s.cfg).entry s.cfg i := by
  rw [State.epcmAt, State.commit_epcmGet, if_pos (by rw [v.toLoad_pc])]
  rw [v.toLoad_header, State.afterInput_cfg]

/-- ENCLAVECONTEXT lies in the target page, so the write of S20 leaves every byte outside it. -/
theorem Load.context_out (l : Load) (c : Config) (m : List Host.Cell) (x : Nat) (h : ¬inPage l.pc x) :
    Memory.byte (l.context c m) x = Memory.byte m x := by
  rw [Load.context]
  split
  · have := c.layout.secsEnclaveContext.isLt
    unfold inPage at h
    rw [Memory.byte_write_out]
    simp only [length_wordBytes]
    omega
  · rfl

/-- Memory of a committed load. -/
theorem LoadView.commit_mem (v : LoadView) (s : State) (i : Instr) (m : List Host.Cell) :
    (s.afterInput.commit i (v.toLoad s.cfg) m).mem =
      if (v.header s.cfg).pt s.cfg.layout = s.cfg.ptSecs then
        Memory.write m (v.pc.toNat + s.cfg.layout.secsEnclaveContext) (wordBytes v.pc)
      else m := by
  rw [State.commit_mem, State.afterInput_cfg, Load.context, v.toLoad_pc, v.toLoad_header]

/-- A committed load leaves every byte outside the target page and the slot. -/
theorem CanLoad.commit_out {s : State} {i : Instr} {v : LoadView} (c : CanLoad s i v) (w : Word) (x : Nat)
    (hp : ¬inPage v.pc x) (hd : ¬inSlot v.pd x) :
    Memory.byte (s.afterInput.commit i (v.toLoad s.cfg)
      (Memory.write (v.filled s) v.pd.toNat (wordBytes w))).mem x = Memory.byte s.landed x := by
  rw [State.commit_mem, Load.context_out _ _ _ _ (by rwa [v.toLoad_pc]), Memory.byte_write_out,
    c.filled_out x hp]
  simp only [length_wordBytes]
  unfold inSlot at hd
  omega

/-! ### Every way an execution can end -/

theorem bind_error {α β : Type} {x : Except Stop α} {f : α → Except Stop β} {k : Stop} :
    (x >>= f) = .error k ↔ x = .error k ∨ ∃ a, x = .ok a ∧ f a = .error k := by
  cases x <;> simp [bind, Except.bind]

theorem require_error {c : Bool} {k k' : Stop} : require c k = .error k' ↔ c = false ∧ k = k' := by
  cases c <;> simp

theorem orStop_error {α : Type} {x : Option α} {k k' : Stop} :
    orStop x k = .error k' ↔ x = none ∧ k = k' := by
  cases x <;> simp

/-- The only stop of `lin` is `#GP(0)`. -/
theorem State.lin_error {s : State} {a : Word} {n : Nat} {k : Stop} (h : s.lin a n = .error k) : k = .gp := by
  unfold State.lin at h
  split at h
  · split at h
    · next hr => cases h; exact (require_error.mp hr).2.symm
    · cases h
  · dsimp only at h
    split at h
    · next hr => cases h; exact (require_error.mp hr).2.symm
    · cases h

/-- A stop of a plain kind: `#GP(0)`, `#PF` at some address, the conflict code of ELDBC and ELDUC, or a
refusal. -/
def PlainStop (s : State) (i : Instr) (k : Stop) : Prop :=
  k = .gp ∨ (∃ a, k = s.pageFault a) ∨ (i.isBase = false ∧ k = .code s.cfg.epcPageConflict) ∨
    ∃ r, k = .refuse r

theorem plainStop_gp (s : State) (i : Instr) : PlainStop s i .gp := .inl rfl

theorem plainStop_pf (s : State) (i : Instr) (a : Word) : PlainStop s i (s.pageFault a) := .inr (.inl ⟨a, rfl⟩)

theorem plainStop_conflict (s : State) (i : Instr) : PlainStop s i (s.conflictStop i) := by
  unfold State.conflictStop
  cases hi : i.isBase with
  | true => exact .inl rfl
  | false => exact .inr (.inr (.inl ⟨hi, rfl⟩))

theorem plainStop_read {s : State} {i : Instr} {r n : Nat} {a : Word} {k : Stop}
    (h : s.readRegular r a n = .error k) : PlainStop s i k := by
  rcases State.readRegular_error h with rfl | rfl
  · exact plainStop_pf s i a
  · exact .inr (.inr (.inr ⟨_, rfl⟩))

theorem plainStop_readWord {s : State} {i : Instr} {r : Nat} {a : Word} {k : Stop}
    (h : s.readRegularWord r a = .error k) : PlainStop s i k := by
  unfold State.readRegularWord at h
  split at h
  · next hr => cases h; exact plainStop_read hr
  · cases h

theorem State.enterLeaf_error {s : State} {i : Instr} {k : Stop} (h : s.enterLeaf i = .error k) :
    PlainStop s i k := by
  unfold State.enterLeaf at h
  split at h
  · next k' he =>
    cases h
    unfold State.enter at he
    split at he
    · next k'' ha =>
      cases he
      unfold State.admitted at ha
      split at ha
      · cases ha; exact .inr (.inr (.inr ⟨_, rfl⟩))
      · split at ha
        · cases ha; exact .inr (.inr (.inr ⟨_, rfl⟩))
        · cases ha; exact .inr (.inr (.inr ⟨_, rfl⟩))
        · obtain ⟨-, rfl⟩ := require_error.mp ha; exact .inr (.inr (.inr ⟨_, rfl⟩))
        · cases ha
    · obtain ⟨-, rfl⟩ := require_error.mp he; exact plainStop_gp s i
  · obtain ⟨-, rfl⟩ := require_error.mp h
    split
    · exact plainStop_gp s i
    · exact .inr (.inr (.inr ⟨_, rfl⟩))

theorem State.regOperands_error {s : State} {i : Instr} {k : Stop} (h : s.regOperands = .error k) :
    PlainStop s i k := by
  unfold State.regOperands at h
  simp only [bind_error, require_error, orStop_error] at h
  rcases h with h | ⟨_, -, h | ⟨_, -, ⟨-, rfl⟩ | ⟨_, -, ⟨-, rfl⟩ | ⟨_, -, h | ⟨_, -, ⟨-, rfl⟩ | ⟨_, -,
    ⟨-, rfl⟩ | ⟨_, -, h⟩⟩⟩⟩⟩⟩⟩
  · exact State.lin_error h ▸ plainStop_gp s i
  · exact State.lin_error h ▸ plainStop_gp s i
  · exact plainStop_gp s i
  · exact plainStop_pf s i _
  · exact State.lin_error h ▸ plainStop_gp s i
  · exact plainStop_gp s i
  · exact plainStop_pf s i _
  · cases h

theorem State.linkedOperands_error {s : State} {i : Instr} {lb : Word} {k : Stop}
    (h : s.linkedOperands lb = .error k) : PlainStop s i k := by
  unfold State.linkedOperands at h
  simp only [bind_error, require_error] at h
  rcases h with h | ⟨_, -, h | ⟨_, -, h | ⟨_, -, h | ⟨_, -, h | ⟨_, -, ⟨-, rfl⟩ | ⟨_, -, h⟩⟩⟩⟩⟩⟩
  · exact plainStop_readWord h
  · exact plainStop_readWord h
  · exact plainStop_readWord h
  · exact State.lin_error h ▸ plainStop_gp s i
  · exact State.lin_error h ▸ plainStop_gp s i
  · exact plainStop_gp s i
  · cases h

/-- S7 to S9 stop with a plain stop, or with the VM exit of a target conflict. -/
theorem State.acquire_error {s : State} {i : Instr} {o : RegOperands} {k : Stop}
    (h : s.acquire i o = .error k) : PlainStop s i k ∨
    (s.targetConflict o.pc = true ∧ s.vmxNonRoot = true ∧ s.epcVirtExt = true ∧
      k = .vmExit (s.exitFields i o.lc o.pc)) := by
  unfold State.acquire at h
  simp only [bind_error, require_error, Bool.not_eq_false'] at h
  rcases h with ⟨hc, rfl⟩ | ⟨_, -, ⟨-, rfl⟩ | ⟨_, -, ⟨-, rfl⟩ | ⟨_, -, -, rfl⟩⟩⟩
  · unfold State.targetConflictStop
    by_cases hv : (s.vmxNonRoot && s.epcVirtExt) = true
    · rw [if_pos hv]
      rw [Bool.and_eq_true] at hv
      exact .inr ⟨hc, hv.1, hv.2, rfl⟩
    · rw [if_neg hv]; exact .inl (plainStop_conflict s i)
  · exact .inl (plainStop_conflict s i)
  · exact .inl (plainStop_pf s i _)
  · exact .inl (plainStop_pf s i _)

theorem State.readHeader_error {s : State} {i : Instr} {lb lp : Word} {k : Stop}
    (h : s.readHeader lb lp = .error k) : PlainStop s i k := by
  unfold State.readHeader at h
  simp only [bind_error, require_error] at h
  rcases h with h | ⟨_, -, h | ⟨_, -, ⟨-, rfl⟩ | ⟨_, -, h⟩⟩⟩
  · exact plainStop_read h
  · exact plainStop_readWord h
  · exact plainStop_gp s i
  · cases h

theorem State.parentEid_error {s : State} {i : Instr} {secs : Word} {k : Stop}
    (h : s.parentEid i secs = .error k) : PlainStop s i k := by
  unfold State.parentEid at h
  simp only [bind_error, require_error, orStop_error] at h
  rcases h with h | ⟨_, -, ⟨-, rfl⟩ | ⟨_, -, ⟨-, rfl⟩ | ⟨_, -, ⟨-, rfl⟩ | ⟨_, -, ⟨-, rfl⟩ | ⟨_, -, h⟩⟩⟩⟩⟩
  · exact State.lin_error h ▸ plainStop_gp s i
  · exact plainStop_gp s i
  · exact plainStop_pf s i _
  · exact plainStop_pf s i _
  · exact plainStop_conflict s i
  · cases h

theorem State.bindEid_error {s : State} {i : Instr} {h : MacHeader} {secs : Word} {k : Stop}
    (he : s.bindEid i h secs = .error k) : PlainStop s i k := by
  unfold State.bindEid at he
  split at he
  · split at he
    · next hp => cases he; exact State.parentEid_error hp
    · cases he
  · cases he

/-- What a stop before the copy can be. -/
theorem State.check_error {s : State} {i : Instr} {k : Stop} (h : s.check i = .error k) :
    PlainStop s i k ∨
    (∃ o, s.regOperands = .ok o ∧ s.targetConflict o.pc = true ∧ s.vmxNonRoot = true ∧
      s.epcVirtExt = true ∧ k = .vmExit (s.exitFields i o.lc o.pc)) := by
  unfold State.check at h
  simp only [bind_error] at h
  rcases h with h | ⟨_, -, h | ⟨o, ho, h | ⟨_, -, h | ⟨_, -, h | ⟨_, -, h | ⟨_, -, h | ⟨_, -, h⟩⟩⟩⟩⟩⟩⟩
  · exact .inl (State.enterLeaf_error h)
  · exact .inl (State.regOperands_error h)
  · exact .inl (State.linkedOperands_error h)
  · rcases State.acquire_error h with h | h
    · exact .inl h
    · exact .inr ⟨o, ho, h⟩
  · exact .inl (State.readHeader_error h)
  · exact .inl (State.bindEid_error h)
  · exact .inl (plainStop_read h)
  · cases h

/-- The kinds of next state an execution can leave, each with its state. -/
inductive Ending (s : State) (i : Instr) : State → Prop where
  /-- `#GP(0)` or `#PF` before the copy. -/
  | fault (e : Event) (h : e = .gp ∨ ∃ a, e = .pf a s.input.pfErrorCode) :
    Ending s i (s.afterInput.raise e)
  /-- The VM exit of a target conflict. -/
  | vmExit (o : RegOperands) (ho : s.regOperands = .ok o) (hc : s.targetConflict o.pc = true)
    (hv : s.vmxNonRoot = true) (he : s.epcVirtExt = true) :
    Ending s i (s.afterInput.exitVm (s.exitFields i o.lc o.pc))
  /-- The conflict code of ELDBC and ELDUC. -/
  | conflict (hi : i.isBase = false) : Ending s i (s.afterInput.complete s.cfg.epcPageConflict true)
  /-- The MAC error code. -/
  | mismatch (v : LoadView) (c : CanLoad s i v) :
    Ending s i ((s.afterInput.withMem (v.filled s)).complete s.cfg.macCompareFail true)
  /-- The `#GP(0)` of the version check. -/
  | usedSlot (v : LoadView) (c : CanLoad s i v) (hl : s.cfg.vaCommit = .literal)
    (hv : v.slotAtCheck s ≠ 0) :
    Ending s i ((s.afterInput.withMem (v.filled s)).raise .gp)
  /-- Success. -/
  | success (v : LoadView) (c : CanLoad s i v) :
    Ending s i (s.afterInput.commit i (v.toLoad s.cfg)
      (Memory.write (v.filled s) v.pd.toNat (wordBytes (v.slotWritten s))))

/-- Everything an execution of a leaf can leave. -/
theorem exec_ending {s t : State} {i : Instr} (h : exec i s = .next t) : Ending s i t := by
  cases hc : s.check i with
  | error k =>
    rw [exec_eq_eld, State.eld, hc] at h
    rcases State.check_error hc with (rfl | ⟨a, rfl⟩ | ⟨hi, rfl⟩ | ⟨r, rfl⟩) | ⟨o, ho, hx, hv, he, rfl⟩
    · cases h; exact .fault .gp (.inl rfl)
    · cases h; exact .fault _ (.inr ⟨a, rfl⟩)
    · cases h; exact .conflict hi
    · cases h
    · cases h; exact .vmExit o ho hx hv he
  | ok l =>
    obtain ⟨v, c, rfl⟩ := State.check_ok.mp hc
    obtain ⟨mac, hm⟩ := c.mac_read
    rw [c.ends hm] at h
    have h := Host.Outcome.next.inj h
    split at h
    · subst h; exact .mismatch v c
    · split at h
      · next hv => subst h; exact .usedSlot v c hv.1 hv.2
      · subst h; exact .success v c

end Sys2Proof.Machine
end

