-- ==== Sys2Proof/Laws/PerInstr.lean ====
section
/-! SUPPORT. Statements made once per instruction, about its encoding: every instruction is well formed, its number in EAX decodes to it under every ENCLS_BYTES (30_encoding.md R90, R92, R93), and so do the opcode table's bits of it. -/

namespace Sys2Proof.Laws.Encoding

/-- The encoding of an instruction stands for it and for no other. -/
def Statement (i : Instr) : Prop :=
  i.wellFormed = true ∧
  (∀ enclsBytes rest : List Byte,
    decode enclsBytes (enclsBytes ++ rest) (encode i) = .ok (i, rest)) ∧
  decodeTableWord 32 (encode i).toNat = some i ∧
  ∀ eax : BitVec 32, leafOf eax = some i → eax = encode i

/-- Bytes that begin with ENCLS_BYTES decode by EAX alone. -/
theorem decode_append (enclsBytes rest : List Byte) (eax : BitVec 32) (i : Instr)
    (h : leafOf eax = some i) : decode enclsBytes (enclsBytes ++ rest) eax = .ok (i, rest) := by
  rw [decode, if_pos (List.isPrefixOf_iff_prefix.mpr (List.prefix_append _ _)), h, List.drop_left]

/-- A number of EAX that names a leaf is that leaf's. -/
theorem leafOf_some (eax : BitVec 32) (i : Instr) (h : leafOf eax = some i) : eax = encode i := by
  unfold leafOf at h
  repeat'
    split at h
    · next he => cases h; exact he
  cases h

theorem eldb : Statement .eldb :=
  ⟨rfl, fun _ _ => decode_append _ _ _ _ rfl, by decide, fun _ => leafOf_some _ _⟩

theorem eldu : Statement .eldu :=
  ⟨rfl, fun _ _ => decode_append _ _ _ _ rfl, by decide, fun _ => leafOf_some _ _⟩

theorem eldbc : Statement .eldbc :=
  ⟨rfl, fun _ _ => decode_append _ _ _ _ rfl, by decide, fun _ => leafOf_some _ _⟩

theorem elduc : Statement .elduc :=
  ⟨rfl, fun _ _ => decode_append _ _ _ _ rfl, by decide, fun _ => leafOf_some _ _⟩

end Sys2Proof.Laws.Encoding
end

