-- ==== Sys2Proof/Laws/Seal.lean ====
section
/-! SUPPORT. A state sealed for a load: the same state with a chosen MAC in its PCMD. A load that reaches the decryption in the one reaches it in the other, with the same outputs; so states in which a load succeeds exist. -/

namespace Sys2Proof.Machine

theorem State.withMem_lin (s : State) (m : List Host.Cell) (a : Word) (n : Nat) :
    (s.withMem m).lin a n = s.lin a n := by unfold State.lin; rfl

theorem State.withMem_translate (s : State) (m : List Host.Cell) (a : Word) (k : Access) :
    (s.withMem m).translate a k = s.translate a k := by unfold State.translate; rfl

theorem State.withMem_inEpc (s : State) (m : List Host.Cell) (p : Word) :
    (s.withMem m).inEpc p = s.inEpc p := by unfold State.inEpc; rfl

theorem State.withMem_resolveEpc (s : State) (m : List Host.Cell) (a : Word) :
    (s.withMem m).resolveEpc a = s.resolveEpc a := by
  unfold State.resolveEpc
  rw [State.withMem_translate, State.withMem_translate]
  rfl

/-- A part of what a read gives is a read of the part. -/
theorem Memory.slice_read (m : List Host.Cell) (a n o k : Nat) (h : o + k ≤ n) :
    slice (Memory.read m a n) o k = Memory.read m (a + o) k := by
  apply List.ext_getElem
  · rw [length_slice _ _ _ (by simpa using h)]; simp
  · intro j h1 h2
    have hj : j < k := by simpa using h2
    simp only [slice, List.getElem_take, List.getElem_drop, Memory.read_eq, List.getElem_map,
      List.getElem_range]
    congr 1
    omega

/-- The state with 16 bytes of memory holding a MAC. -/
def State.sealedAt (s : State) (pm : Nat) (x : BitVec 128) : State :=
  s.withMem (Memory.write s.mem pm (leBytes 16 x.toNat))

/-- A read of regular memory meets none of 16 bytes. -/
def State.apart (s : State) (pm : Nat) (a : Word) (n : Nat) : Bool :=
  match s.translate a .read with
  | some p => decide (p.toNat + n ≤ pm ∨ pm + 16 ≤ p.toNat)
  | none => false

theorem State.readRegular_sealed {s : State} {pm r n : Nat} {a : Word} {bs : List Byte} (x : BitVec 128)
    (hq : s.input.during = []) (ha : s.apart pm a n = true) (h : s.readRegular r a n = .ok bs) :
    (s.sealedAt pm x).readRegular r a n = .ok bs := by
  obtain ⟨p, hp, hin, rfl⟩ := State.readRegular_ok.mp h
  refine State.readRegular_ok.mpr ⟨p, (s.withMem_translate _ _ _).trans hp,
    (s.withMem_inEpc _ _).trans hin, ?_⟩
  rw [State.seenAt_of_quiet _ r hq, State.seenAt_of_quiet (s.sealedAt pm x) r hq]
  unfold State.apart at ha
  rw [hp] at ha
  have ha := of_decide_eq_true ha
  exact (Memory.read_write_out _ _ _ _ _ (by simpa using ha)).symm

theorem State.readRegularWord_sealed {s : State} {pm r : Nat} {a w : Word} (x : BitVec 128)
    (hq : s.input.during = []) (ha : s.apart pm a 8 = true) (h : s.readRegularWord r a = .ok w) :
    (s.sealedAt pm x).readRegularWord r a = .ok w := by
  obtain ⟨bs, hb, rfl⟩ := State.readRegularWord_ok.mp h
  exact State.readRegularWord_ok.mpr ⟨bs, State.readRegular_sealed x hq ha hb, rfl⟩

/-- What a load must be for its state to be sealed: no other agent writes during it, and the reads of
PAGEINFO and of the source page meet no byte of the MAC, which is at `pm`. -/
structure Sealable (s : State) (v : LoadView) (pp : Word) (pm : Nat) : Prop where
  quiet : s.input.during = []
  layout : s.cfg.layout.pcmdOk = true
  pcmd : s.translate v.lp .read = some pp
  mac : pm = pp.toNat + s.cfg.layout.pcmdMac
  srcpge : s.apart pm (fieldAddr v.lb s.cfg.layout.pageinfoSrcpge) 8 = true
  secs : s.apart pm (fieldAddr v.lb s.cfg.layout.pageinfoSecs) 8 = true
  secinfo : s.apart pm (fieldAddr v.lb s.cfg.layout.pageinfoSecinfo) 8 = true
  linaddr : s.apart pm (fieldAddr v.lb s.cfg.layout.pageinfoLinaddr) 8 = true
  source : s.apart pm v.ls 4096 = true

/-- The view of a load in the sealed state: only the PCMD as read differs. -/
def LoadView.sealed (v : LoadView) (s : State) (pp : Word) (pm : Nat) (x : BitVec 128) : LoadView :=
  { v with scratch := Memory.read (s.sealedAt pm x).mem pp.toNat 128 }

theorem CanLoad.pcmd_range {s : State} {i : Instr} {v : LoadView} (c : CanLoad s i v) {pp : Word}
    (h : s.translate v.lp .read = some pp) : pp.toNat % 4096 + 128 ≤ 4096 := by
  rw [State.translate_offset h]
  have := (alignedTo_iff 7 v.lp).mp c.pcmdAligned
  omega

/-- The MAC of a PCMD lies in regular memory. -/
theorem CanLoad.mac_regular {s : State} {i : Instr} {v : LoadView} (c : CanLoad s i v) {pp : Word} {pm : Nat}
    (k : Sealable s v pp pm) (x : Nat) (hx : s.epcByte x = true) : x < pm ∨ pm + 16 ≤ x := by
  by_contra hn
  have hr := c.pcmd_range k.pcmd
  have hm := s.cfg.layout.pcmdMac.isLt
  have hpm := k.mac
  obtain ⟨p, hp, hin, -⟩ := State.readRegular_ok.mp c.scratch
  rw [k.pcmd] at hp
  cases hp
  rw [s.epcByte_of_frame pp x (by omega), hin] at hx
  cases hx

/-- A read of the EPC is the same in the sealed state. -/
theorem CanLoad.read_epc_sealed {s : State} {i : Instr} {v : LoadView} (c : CanLoad s i v) {pp : Word}
    {pm : Nat} (k : Sealable s v pp pm) (x : BitVec 128) (a n : Nat)
    (h : ∀ j < n, s.epcByte (a + j) = true) :
    Memory.read (s.sealedAt pm x).mem a n = Memory.read s.mem a n := by
  refine Memory.read_congr _ _ _ _ fun j hj => ?_
  have := c.mac_regular k _ (h j hj)
  exact Memory.byte_write_out _ _ _ _ (by simpa using this)

/-- The header read in the sealed state is the header read before: it does not cover the MAC. -/
theorem CanLoad.header_sealed {s : State} {i : Instr} {v : LoadView} (c : CanLoad s i v) {pp : Word} {pm : Nat}
    (k : Sealable s v pp pm) (x : BitVec 128) : (v.sealed s pp pm x).header s.cfg = v.header s.cfg := by
  obtain ⟨p, hp, -, hs⟩ := State.readRegular_ok.mp c.scratch
  rw [k.pcmd] at hp
  cases hp
  rw [State.seenAt_of_quiet _ _ k.quiet] at hs
  have hl := k.layout
  unfold Layout.pcmdOk disjointRanges at hl
  simp only [Bool.and_eq_true, Bool.or_eq_true, decide_eq_true_eq] at hl
  have h1 := s.cfg.layout.pcmdSecinfo.isLt
  have h2 := s.cfg.layout.pcmdRsvd.isLt
  have hpm := k.mac
  have e : ∀ o n, o + n ≤ 128 → (o + n ≤ s.cfg.layout.pcmdMac.val ∨ s.cfg.layout.pcmdMac.val + 16 ≤ o) →
      slice (v.sealed s pp pm x).scratch o n = slice v.scratch o n := by
    intro o n hon ho
    rw [hs]
    refine (Memory.slice_read _ _ _ _ _ hon).trans (Eq.trans ?_ (Memory.slice_read _ _ _ _ _ hon).symm)
    exact Memory.read_write_out _ _ _ _ _ (by rw [length_leBytes]; omega)
  unfold LoadView.header
  rw [e _ _ (by omega) (by omega), e _ _ (by omega) (by omega)]
  rfl

/-- A load that reaches the decryption reaches it in the sealed state. -/
theorem CanLoad.sealed {s : State} {i : Instr} {v : LoadView} (c : CanLoad s i v) {pp : Word} {pm : Nat}
    (k : Sealable s v pp pm) (x : BitVec 128) : CanLoad (s.sealedAt pm x) i (v.sealed s pp pm x) := by
  have hh := c.header_sealed k x
  obtain ⟨p, hp, hin, -⟩ := State.readRegular_ok.mp c.scratch
  rw [k.pcmd] at hp
  cases hp
  exact {
    enabled := c.enabled, mode := c.mode, privilege := c.privilege, feature := c.feature
    pageinfo := (s.withMem_lin _ _ _).trans c.pageinfo, pageinfoAligned := c.pageinfoAligned
    target := (s.withMem_lin _ _ _).trans c.target, targetAligned := c.targetAligned
    targetResident := (s.withMem_resolveEpc _ _).trans c.targetResident
    slot := (s.withMem_lin _ _ _).trans c.slot, slotAligned := c.slotAligned
    slotResident := (s.withMem_resolveEpc _ _).trans c.slotResident
    srcpge := State.readRegularWord_sealed x k.quiet k.srcpge c.srcpge
    secs := State.readRegularWord_sealed x k.quiet k.secs c.secs
    pcmd := State.readRegularWord_sealed x k.quiet k.secinfo c.pcmd
    pcmdLin := (s.withMem_lin _ _ _).trans c.pcmdLin, pcmdAligned := c.pcmdAligned
    sourceLin := (s.withMem_lin _ _ _).trans c.sourceLin, sourceAligned := c.sourceAligned
    targetUnlocked := c.targetUnlocked, slotUnlocked := c.slotUnlocked
    targetFree := c.targetFree, slotValid := c.slotValid, slotType := c.slotType
    scratch := State.readRegular_ok.mpr ⟨pp, (s.withMem_translate _ _ _).trans k.pcmd,
      (s.withMem_inEpc _ _).trans hin, by
        rw [State.seenAt_of_quiet (s.sealedAt pm x) 4 k.quiet]; rfl⟩
    linaddr := State.readRegularWord_sealed x k.quiet k.linaddr c.linaddr
    switched := fun h => by
      show MacHeader.reservedClear { (v.sealed s pp pm x).header s.cfg with eid := 0 } s.cfg = true
      rw [hh]; exact c.switched h
    parent := fun h => by
      obtain ⟨le, pe, ok⟩ := c.parent (by rw [← hh]; exact h)
      refine ⟨le, pe, (s.withMem_lin _ _ _).trans ok.lin, ok.aligned, (s.withMem_resolveEpc _ _).trans ok.resident,
        ok.switched, ok.unlocked, ?_⟩
      obtain ⟨ht, -, hin, -⟩ := State.resolveEpc_some.mp ok.resident
      have hr := State.page_range ht ok.aligned
      have ho := s.cfg.layout.secsEid.isLt
      refine ok.eid.trans (congrArg leWord (c.read_epc_sealed k x _ 8 fun j hj => ?_).symm)
      rw [s.epcByte_of_frame pe.read _ (by omega)]
      exact hin
    noParent := fun h => c.noParent (by rw [← hh]; exact h)
    source := State.readRegular_sealed x k.quiet k.source c.source }

/-- Memory after the copy, in the sealed state, has the same EPC bytes. -/
theorem CanLoad.copied_sealed {s : State} {i : Instr} {v : LoadView} (c : CanLoad s i v) {pp : Word} {pm : Nat}
    (k : Sealable s v pp pm) (x : BitVec 128) (y : Nat) (hy : s.epcByte y = true) :
    Memory.byte ((v.sealed s pp pm x).copied (s.sealedAt pm x)) y = Memory.byte (v.copied s) y := by
  have h : Memory.byte (s.sealedAt pm x).landed y = Memory.byte s.landed y := by
    rw [State.landed_of_quiet s k.quiet, State.landed_of_quiet (s.sealedAt pm x) k.quiet]
    have := c.mac_regular k y hy
    exact Memory.byte_write_out _ _ _ _ (by simpa using this)
  show Memory.byte (Memory.write (s.sealedAt pm x).landed v.pc.toNat v.source) y =
    Memory.byte (Memory.write s.landed v.pc.toNat v.source) y
  by_cases hin : y < v.pc.toNat ∨ v.pc.toNat + v.source.length ≤ y
  · rw [Memory.byte_write_out _ _ _ _ hin, Memory.byte_write_out _ _ _ _ hin, h]
  · obtain ⟨j, rfl⟩ := Nat.exists_eq_add_of_le (show v.pc.toNat ≤ y by omega)
    rw [Memory.byte_write_in _ _ j _ (by omega), Memory.byte_write_in _ _ j _ (by omega)]

/-- The version in the sealed state. -/
theorem CanLoad.version_sealed {s : State} {i : Instr} {v : LoadView} (c : CanLoad s i v) {pp : Word} {pm : Nat}
    (k : Sealable s v pp pm) (x : BitVec 128) :
    (v.sealed s pp pm x).version (s.sealedAt pm x) = v.version s :=
  congrArg leWord (Memory.read_congr _ _ _ _ fun j hj =>
    c.copied_sealed k x _ (c.slotRead_epc (x := v.rd.toNat + j) (by unfold inSlot; omega)).1)

/-- The decryption's outputs in the sealed state. -/
theorem CanLoad.outputs_sealed {s : State} {i : Instr} {v : LoadView} (c : CanLoad s i v) {pp : Word} {pm : Nat}
    (k : Sealable s v pp pm) (x : BitVec 128) :
    (v.sealed s pp pm x).outputs (s.sealedAt pm x) = v.outputs s := by
  have h : Memory.read ((v.sealed s pp pm x).copied (s.sealedAt pm x)) v.rc.toNat 4096 =
      Memory.read (v.copied s) v.rc.toNat 4096 :=
    Memory.read_congr _ _ _ _ fun j hj =>
      c.copied_sealed k x _ (c.targetRead_epc (x := v.rc.toNat + j) (by unfold inPage; omega)).1
  unfold LoadView.outputs
  rw [c.version_sealed k x, show (s.sealedAt pm x).cfg = s.cfg from rfl, c.header_sealed k x,
    show (v.sealed s pp pm x).rc = v.rc from rfl, h]
  rfl

/-- What the version check reads in the sealed state. -/
theorem CanLoad.slotAtCheck_sealed {s : State} {i : Instr} {v : LoadView} (c : CanLoad s i v) {pp : Word}
    {pm : Nat} (k : Sealable s v pp pm) (x : BitVec 128) :
    (v.sealed s pp pm x).slotAtCheck (s.sealedAt pm x) = v.slotAtCheck s := by
  refine congrArg leWord (Memory.read_congr _ _ _ _ fun j hj => ?_)
  have hy := (c.slotRead_epc (x := v.rd.toNat + j) (by unfold inSlot; omega)).1
  by_cases hin : inPage v.pc (v.rd.toNat + j)
  · obtain ⟨n, hn⟩ := Nat.exists_eq_add_of_le hin.1
    have hlt : n < 4096 := by have := hin.2; omega
    rw [show (v.sealed s pp pm x).rd = v.rd from rfl, hn, v.filled_in s n hlt]
    exact ((v.sealed s pp pm x).filled_in _ n hlt).trans (by rw [c.outputs_sealed k x])
  · rw [show (v.sealed s pp pm x).rd = v.rd from rfl, c.filled_out _ hin,
      (c.sealed k x).filled_out _ hin, State.landed_of_quiet s k.quiet,
      State.landed_of_quiet (s.sealedAt pm x) k.quiet]
    have := c.mac_regular k _ hy
    exact Memory.byte_write_out _ _ _ _ (by simpa using this)

/-- The MAC read again in the sealed state is the one it was sealed with. -/
theorem CanLoad.storedMac_sealed {s : State} {i : Instr} {v : LoadView} (c : CanLoad s i v) {pp : Word} {pm : Nat}
    (k : Sealable s v pp pm) (x : BitVec 128) :
    (v.sealed s pp pm x).storedMac (s.sealedAt pm x) = .ok (leBytes 16 x.toNat) := by
  have hoff := s.cfg.layout.pcmdMac.isLt
  have hpg : pageNo (fieldAddr v.lp s.cfg.layout.pcmdMac) = pageNo v.lp :=
    pageNo_fieldAddr v.lp 7 _ (by omega) c.pcmdAligned (by omega)
  obtain ⟨q, hq, hpq⟩ := State.translate_page hpg.symm k.pcmd
  obtain ⟨p, hp, hin, -⟩ := State.readRegular_ok.mp c.scratch
  rw [k.pcmd] at hp
  cases hp
  have hr := c.pcmd_range k.pcmd
  have ha := (alignedTo_iff 7 v.lp).mp c.pcmdAligned
  have hqo := State.translate_offset hq
  have hpo := State.translate_offset k.pcmd
  have hdiv : pp.toNat / 4096 = q.toNat / 4096 := by rw [← pageNo_toNat, ← pageNo_toNat, hpq]
  have hsum : (fieldAddr v.lp s.cfg.layout.pcmdMac).toNat % 4096 = v.lp.toNat % 4096 + s.cfg.layout.pcmdMac := by
    rw [fieldAddr, BitVec.toNat_add, BitVec.toNat_ofNat]
    omega
  have hpm : pm = q.toNat := by have := k.mac; omega
  refine State.readRegular_ok.mpr ⟨q, (s.withMem_translate _ _ _).trans hq, ?_, ?_⟩
  · rw [State.sealedAt, State.withMem_inEpc, State.inEpc, ← hpq]; exact hin
  · rw [State.seenAt_of_quiet (s.sealedAt pm x) 11 k.quiet, hpm]
    have := Memory.read_write s.mem q.toNat (leBytes 16 x.toNat)
    rw [length_leBytes] at this
    exact this.symm

/-- Sealed with the MAC the decryption computes, with a slot the version check accepts, a load succeeds. -/
theorem CanLoad.succeeds_sealed {s : State} {i : Instr} {v : LoadView} (c : CanLoad s i v) {pp : Word} {pm : Nat}
    (k : Sealable s v pp pm) (hv : s.cfg.vaCommit = .literal → v.slotAtCheck s = 0) :
    Succeeds (s.sealedAt pm (v.outputs s).2) i (v.sealed s pp pm (v.outputs s).2)
      (leBytes 16 (v.outputs s).2.toNat) where
  loads := c.sealed k _
  read := c.storedMac_sealed k _
  verified := by rw [c.outputs_sealed k, leMac_leBytes]
  slotFree := fun h => by rw [c.slotAtCheck_sealed k]; exact hv h

end Sys2Proof.Machine
end

