-- ==== Sys2Proof/Tests/Slice0.lean ====
section
/-! SUPPORT. The model's own tests: well-formedness of the parameters, decoding, vectors of 95_test_vectors.md, and a witness for the hypotheses of every statement that has some. -/

namespace Sys2Proof.Tests

open Sys2Proof.Machine

set_option Elab.async false

/-! ### Well-formedness: each check refuses a configuration that breaks it (93 U13) -/

theorem test_wf_suggested : Config.suggested.wellFormed = true := by decide

theorem test_wf_instr : [Instr.eldb, .eldu, .eldbc, .elduc].all Instr.wellFormed = true := by decide

theorem test_wf_codes : Config.codesOk { Config.suggested with macCompareFail := 7 } = false ∧
    Config.wellFormed { Config.suggested with macCompareFail := 0 } = false := by decide

theorem test_wf_pageTypes : Config.pageTypesOk { Config.suggested with ptVa := 2 } = false ∧
    Config.wellFormed { Config.suggested with ptTrim := 0 } = false := by decide

theorem test_wf_qualifications : Config.qualificationsOk { Config.suggested with conflictError := 0 } = false ∧
    Config.wellFormed { Config.suggested with conflictException := 1 } = false := by decide

/-- The packing of the exit qualification: fields that overlap, one that leaves the 64 bits, a code and an
error that do not fit. -/
theorem test_wf_packing : [{ Config.suggested with qualError := { pos := 31, width := 32 } },
    { Config.suggested with qualError := { pos := 33, width := 32 } },
    { Config.suggested with conflictError := 0x100000000 },
    { Config.suggested with qualError := { pos := 32, width := 2 } }].all (fun c =>
      !c.packingOk && !c.wellFormed) = true := by decide

theorem test_wf_pcmd : Layout.pcmdOk { Layout.suggested with pcmdMac := 63 } = false ∧
    Config.wellFormed { Config.suggested with layout := { Layout.suggested with pcmdRsvd := 73 } } = false := by
  decide

theorem test_wf_header : Layout.headerOk { Layout.suggested with headerEid := 1 } = false ∧
    Config.wellFormed { Config.suggested with layout := { Layout.suggested with headerLinaddr := 105 } } =
      false := by decide

theorem test_wf_encls : Config.enclsOk { Config.suggested with enclsBytes := [] } = false := by decide

/-! ### Decoding: the values of EAX of 30_encoding.md R93, written out bit by bit, and its neighbours -/

theorem test_decode_eldb : decode [0x0F, 0x01, 0xCF] [0x0F, 0x01, 0xCF, 0x90]
    0b00000000000000000000000000000111 = .ok (.eldb, [0x90]) := by decide

theorem test_decode_eldu : decode [0x0F, 0x01, 0xCF] [0x0F, 0x01, 0xCF]
    0b00000000000000000000000000001000 = .ok (.eldu, []) := by decide

theorem test_decode_eldbc : decode [0x0F, 0x01, 0xCF] [0x0F, 0x01, 0xCF]
    0b00000000000000000000000000010010 = .ok (.eldbc, []) := by decide

theorem test_decode_elduc : decode [0x0F, 0x01, 0xCF] [0x0F, 0x01, 0xCF]
    0b00000000000000000000000000010011 = .ok (.elduc, []) := by decide

/-- V6 (30_encoding.md R92): all 32 bits of EAX count. -/
theorem test_decode_107 : decode [0x0F, 0x01, 0xCF] [0x0F, 0x01, 0xCF] 0x107 =
    .error (.unknownLeaf 0x107) := by decide

/-- 30_encoding.md R99: a prefixed form is refused. -/
theorem test_decode_prefixed : decode [0x0F, 0x01, 0xCF] [0xF0, 0x0F, 0x01, 0xCF] 7 = .error .notEncls := by
  decide

/-! ### The machine M0 of 95 §2.3, with the frames and pages its vectors use -/

/-- A page mapped to the frame of its own number, for reads and writes. -/
def page (n : Nat) : PageEntry :=
  { page := BitVec.ofNat 52 n, readFrame := some (BitVec.ofNat 52 n), writeFrame := some (BitVec.ofNat 52 n) }

/-- A page mapped to one frame, or none, for reading and to another, or none, for writing. -/
def split (n : Nat) (rf wf : Option FrameNo) : PageEntry :=
  { page := BitVec.ofNat 52 n, readFrame := rf, writeFrame := wf }

/-- The two physical addresses of an operand in a page with one frame. -/
def same (p : Word) : EpcAddress := { read := p, write := p }

/-- An input with no conflict and no action of another agent. -/
def quiet : StepInput :=
  { conflictEpc := false, conflictVa := false, conflictSecs := false, pfErrorCode := 5, during := [],
    after := [] }

/-- M0 with the first bytes of SECINFO.FLAGS, the first byte of the VA slot and VA_COMMIT given. -/
def machine (flags : List Byte) (slot : Byte) (va : VaCommit) : State :=
  { State.reset with
    rbx := 0x00100000, rcx := 0x80002000, rdx := 0x80000008, rip := 0x00400000
    rflags := { zf := true, cf := true, pf := true, af := true, of := true, sf := true, other := 0x202 }
    crBasePk := 0x0123456789ABCDEFFEDCBA9876543210
    epcFrames := [0x80000, 0x80001, 0x80002, 0x80003]
    pageMap := [page 0x80000, page 0x80001, page 0x80002, page 0x80003, page 0x100, page 0x101, page 0x102,
      page 0x103, page 0x104]
    epcm := [(0x80000, { EpcmEntry.free with valid := true, pt := 3 }),
      (0x80001, { EpcmEntry.free with valid := true, pt := 0 }),
      (0x80003, { EpcmEntry.free with valid := true, pt := 2, rwx := 3, enclaveAddress := 0x700000006000 })]
    mem := Sparse.cells 0 0x100000
        [0x00, 0x50, 0x00, 0x00, 0x00, 0x70, 0x00, 0x00, 0x00, 0x20, 0x10, 0x00, 0x00, 0x00, 0x00, 0x00,
         0x00, 0x10, 0x10, 0x00, 0x00, 0x00, 0x00, 0x00, 0x00, 0x10, 0x00, 0x80, 0x00, 0x00, 0x00, 0x00]
      ++ Sparse.cells 0 0x101000 flags
      ++ Sparse.cells 0 0x101070
        [0x52, 0x62, 0x54, 0x76, 0x98, 0xCA, 0xDC, 0xFE, 0xEC, 0xCF, 0xAB, 0x89, 0x67, 0x45, 0x23, 0x01]
      ++ Sparse.cells 0 0x102000 ((List.range 4096).map (fun i => BitVec.ofNat 8 i))
      ++ Sparse.cells 0 0x80000008 [slot] ++ [(0x80001FF0, 0x42)]
    cfg := { Config.suggested with vaCommit := va }
    inputs := [quiet] }

/-- M0. -/
def m0 : State := machine [0x03, 0x02] 0 .literal

/-- TOY_DEC of 95 §2.2, but that of the data it folds the first byte alone (the test page folds to 0). -/
def toyDec : AesGcmDec := fun key counter aad _ data _ =>
  (⟨⟨data.toList.map (fun b => b ^^^ 0xFF)⟩, by simp⟩,
    key ^^^ (counter >>> 32) ^^^
      ((List.range 8).foldl (fun x k => x ^^^ leMac (slice aad.toList (16 * k) 16)) 0) ^^^
      (data.toList.headD 0).zeroExtend 128)

/-- The next state of an outcome passes a test. -/
def nextIs (o : Host.Outcome State Fault Refusal) (p : State → Bool) : Bool :=
  match o with
  | .next t => p t
  | _ => false

/-- An execution ends in an error return with the conflict code, nothing else changed (95 V19). -/
def conflictReturn (s t : State) : Bool :=
  t.rax == 7 && t.rip == 0x400003 && t.rflags.image == 0x242 && t.event == none && t.epcm == s.epcm

/-- The EPCM entry of the target after V1, with BLOCKED given. -/
def loadedEntry (b : Bool) : EpcmEntry :=
  { valid := true, pt := 2, rwx := 3, pending := false, modified := false, pr := false,
    enclaveAddress := 0x700000005000, blocked := b }

/-! ### Vectors of 95 §3, at most two for a leaf -/

/-- V1: ELDU succeeds: RAX, RIP, RFLAGS, the EPCM entry and the first bytes of the page. -/
theorem test_eldu_v1 : nextIs (m0.eld toyDec .eldu) (fun t =>
    t.rax == 0 && t.rip == 0x400003 && t.rflags.image == 0x202 && t.epcmAt 0x80002000 == loadedEntry false &&
      Memory.read t.mem 0x80002000 2 == [0xFF, 0xFE]) = true := by decide +kernel

/-- 20_memory.md R66, log 11: a target read in frame 80003H and written in frame 80002H: the zero bytes of
the one are decrypted into the other, whose EPCM entry is written. -/
theorem test_eldu_twoFrames : nextIs
    (State.eld { m0 with pageMap := split 0x80002 (some 0x80003) (some 0x80002) :: m0.pageMap } toyDec .eldu)
    (fun t => t.event == none && t.epcmAt 0x80003000 == m0.epcmAt 0x80003000 &&
      Memory.read t.mem 0x80002000 2 == [0xFF, 0xFF] && Memory.read t.mem 0x80003000 2 == [0, 0]) = true := by
  decide +kernel

/-- V2: ELDB marks the page blocked. -/
theorem test_eldb_v2 : nextIs (m0.eld toyDec .eldb) (fun t =>
    t.rax == 0 && t.event == none && t.epcmAt 0x80002000 == loadedEntry true) = true := by decide +kernel

/-- V18: a target conflict is `#GP(0)` for ELDB. -/
theorem test_eldb_v18 : nextIs (exec .eldb { m0 with rax := 7, inputs := [{ quiet with conflictEpc := true }] })
    (fun t => t.event == some .gp && t.rax == 7 && t.rip == 0x400000) = true := by decide +kernel

/-- V13: a misaligned slot is `#GP(0)` for ELDU. -/
theorem test_eldu_v13 : nextIs (exec .eldu { m0 with rdx := 0x80000004 })
    (fun t => t.event == some .gp && t.rflags == m0.rflags) = true := by decide +kernel

/-- V19: a target conflict is an error return for ELDBC. -/
theorem test_eldbc_v19 : nextIs (exec .eldbc { m0 with inputs := [{ quiet with conflictEpc := true }] })
    (conflictReturn m0) = true := by decide +kernel

/-- V47: PAGEINFO inside the EPC is refused (92 D19). -/
theorem test_eldbc_v47 : (match exec .eldbc { m0 with rbx := 0x80003000 } with
    | .refused r => r == .regularOperandInEpc 0x80003008
    | _ => false) = true := by decide +kernel

/-- V11: the target's residence is tested before the slot's alignment. -/
theorem test_elduc_v11 : nextIs (exec .elduc { m0 with rcx := 0x103000, rdx := 0x80000004 })
    (fun t => t.event == some (.pf 0x103000 5)) = true := by decide +kernel

/-- V15: the first read of an unmapped PAGEINFO is SRCPGE, at offset 8. -/
theorem test_elduc_v15 : nextIs (exec .elduc { m0 with rbx := 0x200000 })
    (fun t => t.event == some (.pf 0x200008 5)) = true := by decide +kernel

/-! ### Witnesses: loads that reach the decryption, and sealed states in which they end -/

/-- M0; M0 with a used slot; M0 with a SECS in the PCMD, a used slot and the other version check. -/
def loading : Fin 3 → State
  | 0 => m0
  | 1 => machine [0x03, 0x02] 5 .literal
  | 2 => machine [0x00, 0x00] 5 .freeSlot

/-- The EID those loads bind. -/
def boundEid : Fin 3 → Word
  | 0 => 0x42
  | 1 => 0x42
  | 2 => 0

/-- What those loads read. -/
def view (k : Fin 3) : LoadView :=
  { lb := 0x100000, lc := 0x80002000, pc := 0x80002000, ld := 0x80000008, pd := 0x80000008
    rc := 0x80002000, rd := 0x80000008
    srcpge := 0x102000, secs := 0x80001000, pcmd := 0x101000, lp := 0x101000, ls := 0x102000
    scratch := Memory.read ((loading k).seenAt 4) (0x101000 : Word).toNat 128
    linaddr := 0x700000005000
    eid := boundEid k
    source := Memory.read ((loading k).seenAt 7) (0x102000 : Word).toNat 4096 }

theorem readWord_of {s : State} {r : Nat} {a w : Word} (p : Word) (h1 : s.translate a .read = some p)
    (h2 : s.inEpc p = false) (h3 : leWord (Memory.read (s.seenAt r) p.toNat 8) = w) :
    s.readRegularWord r a = .ok w :=
  State.readRegularWord_ok.mpr ⟨_, State.readRegular_ok.mpr ⟨p, h1, h2, rfl⟩, h3.symm⟩

theorem loading_parent (k : Fin 3)
    (h : hasParent (loading k).cfg (((view k).header (loading k).cfg).pt (loading k).cfg.layout) = true) :
    ∃ le pe, ParentOk (loading k) (view k).secs (view k).eid le pe := by
  refine ⟨0x80001000, same 0x80001000, ?_, ?_, ?_, ?_, ?_, ?_⟩ <;> revert h <;> revert k <;> decide +kernel

theorem test_witness_canLoad (k : Fin 3) (i : Instr) : CanLoad (loading k) i (view k) where
  enabled := by revert k; decide +kernel
  mode := by revert k; decide +kernel
  privilege := by revert k; decide +kernel
  feature := by revert i; revert k; intro k i; cases i <;> revert k <;> decide +kernel
  pageinfo := by revert k; decide +kernel
  pageinfoAligned := by revert k; decide +kernel
  target := by revert k; decide +kernel
  targetAligned := by revert k; decide +kernel
  targetResident := by revert k; decide +kernel
  slot := by revert k; decide +kernel
  slotAligned := by revert k; decide +kernel
  slotResident := by revert k; decide +kernel
  srcpge := readWord_of 0x100008 (by revert k; decide +kernel) (by revert k; decide +kernel)
    (by revert k; decide +kernel)
  secs := readWord_of 0x100018 (by revert k; decide +kernel) (by revert k; decide +kernel)
    (by revert k; decide +kernel)
  pcmd := readWord_of 0x100010 (by revert k; decide +kernel) (by revert k; decide +kernel)
    (by revert k; decide +kernel)
  pcmdLin := by revert k; decide +kernel
  pcmdAligned := by revert k; decide +kernel
  sourceLin := by revert k; decide +kernel
  sourceAligned := by revert k; decide +kernel
  targetUnlocked := by revert k; decide +kernel
  slotUnlocked := by revert k; decide +kernel
  targetFree := by revert k; decide +kernel
  slotValid := by revert k; decide +kernel
  slotType := by revert k; decide +kernel
  scratch := State.readRegular_ok.mpr ⟨0x101000, by revert k; decide +kernel, by revert k; decide +kernel, rfl⟩
  linaddr := readWord_of 0x100000 (by revert k; decide +kernel) (by revert k; decide +kernel)
    (by revert k; decide +kernel)
  switched := by revert k; decide +kernel
  parent := loading_parent k
  noParent := by revert k; decide +kernel
  source := State.readRegular_ok.mpr ⟨0x102000, by revert k; decide +kernel, by revert k; decide +kernel, rfl⟩

theorem loading_sealable (k : Fin 3) : Sealable (loading k) (view k) 0x101000 0x101070 := by
  constructor <;> revert k <;> decide +kernel

/-- The loading machine with a MAC in its PCMD, and the view of a load there. -/
def sealedState (k : Fin 3) (x : BitVec 128) : State := (loading k).sealedAt 0x101070 x
def sealedView (k : Fin 3) (x : BitVec 128) : LoadView := (view k).sealed (loading k) 0x101000 0x101070 x

/-- The MAC the decryption computes. -/
def trueMac (k : Fin 3) : BitVec 128 := ((view k).outputs (loading k)).2

theorem sealed_canLoad (k : Fin 3) (i : Instr) (x : BitVec 128) :
    CanLoad (sealedState k x) i (sealedView k x) :=
  (test_witness_canLoad k i).sealed (loading_sealable k) x

theorem sealed_mac (k : Fin 3) (x : BitVec 128) :
    (sealedView k x).storedMac (sealedState k x) = .ok (leBytes 16 x.toNat) ∧
      ((sealedView k x).outputs (sealedState k x)).2 = trueMac k :=
  ⟨(test_witness_canLoad k .eldb).storedMac_sealed (loading_sealable k) x,
    congrArg Prod.snd ((test_witness_canLoad k .eldb).outputs_sealed (loading_sealable k) x)⟩

/-- The version, and the slot at the check, are the bytes of the slot before the step. -/
theorem sealed_slot (k : Fin 3) (x : BitVec 128) :
    (sealedView k x).slotAtCheck (sealedState k x) = leWord (Memory.read (loading k).mem 0x80000008 8) ∧
      (sealedView k x).version (sealedState k x) = leWord (Memory.read (loading k).mem 0x80000008 8) := by
  have h := test_witness_canLoad k .eldb
  obtain ⟨hv, hs⟩ := h.slot_read_apart (by clear h; revert k; decide +kernel)
  rw [sealedView, sealedState, h.slotAtCheck_sealed (loading_sealable k), h.version_sealed (loading_sealable k),
    hs, hv]
  exact ⟨rfl, rfl⟩

/-- Each of the four leaves has a state in which it succeeds, with a page that has a parent and with a
SECS, under either version check. -/
theorem test_witness_succeeds (i : Instr) (k : Fin 3) (hk : k ≠ 1) :
    Succeeds (sealedState k (trueMac k)) i (sealedView k (trueMac k)) (leBytes 16 (trueMac k).toNat) :=
  (test_witness_canLoad k i).succeeds_sealed (loading_sealable k) fun hl => by
    rw [← (test_witness_canLoad k i).slotAtCheck_sealed (loading_sealable k) 0]
    refine (sealed_slot k 0).1.trans ?_
    revert hl hk; revert k; decide +kernel

/-- SuccessFillsTheTargetPage, its last clause: the target is read in the frame it is written in. -/
theorem test_witness_oneFrame (k : Fin 3) : (sealedView k (trueMac k)).rc = (sealedView k (trueMac k)).pc := rfl

/-- A load of a page with a parent, and one of a SECS. -/
theorem test_witness_pageTypes :
    (m0.cfg.vaCommit = .literal ∧ ((view 0).header m0.cfg).pt m0.cfg.layout = m0.cfg.ptReg) ∧
    ((loading 2).cfg.vaCommit = .freeSlot ∧
      ((view 2).header (loading 2).cfg).pt (loading 2).cfg.layout = (loading 2).cfg.ptSecs) := by
  decide +kernel

theorem test_witness_secsLoadStoresItsTranslation (i : Instr) :
    Succeeds (sealedState 2 (trueMac 2)) i (sealedView 2 (trueMac 2)) (leBytes 16 (trueMac 2).toNat) ∧
    ((sealedView 2 (trueMac 2)).header (sealedState 2 (trueMac 2)).cfg).pt
      (sealedState 2 (trueMac 2)).cfg.layout = (sealedState 2 (trueMac 2)).cfg.ptSecs :=
  ⟨test_witness_succeeds i 2 (by decide), by
    rw [show (sealedState 2 (trueMac 2)).cfg = (loading 2).cfg from rfl, sealedView,
      (test_witness_canLoad 2 i).header_sealed (loading_sealable 2)]
    exact test_witness_pageTypes.2.2⟩

/-- MacMismatchReturnsItsCode: the stored MAC is the complement of the one computed. -/
theorem test_witness_macMismatch (i : Instr) :
    ∃ s v mac, CanLoad s i v ∧ v.storedMac s = .ok mac ∧ (v.outputs s).2 ≠ leMac mac := by
  refine ⟨_, _, _, sealed_canLoad 0 i (~~~trueMac 0), (sealed_mac 0 (~~~trueMac 0)).1, ?_⟩
  rw [(sealed_mac 0 (~~~trueMac 0)).2, leMac_leBytes]
  intro h
  have := congrArg (fun x : BitVec 128 => x.getLsbD 0) h
  simp at this

/-- LiteralVersionCheck: a used slot and a free one, each read where it is written. -/
theorem test_witness_literalVersionCheck (i : Instr) (k : Fin 3) (hk : k ≠ 2) :
    ∃ s v mac, CanLoad s i v ∧ v.storedMac s = .ok mac ∧ (v.outputs s).2 = leMac mac ∧
      s.cfg.vaCommit = .literal ∧ (if k = 1 then v.slotAtCheck s ≠ 0 else v.slotAtCheck s = 0) ∧
      pageNo v.rd ≠ pageNo v.pc ∧ v.rd = v.pd := by
  refine ⟨_, _, _, sealed_canLoad k i (trueMac k), (sealed_mac k _).1, ?_, ?_, ?_, ?_, rfl⟩
  · rw [(sealed_mac k _).2, leMac_leBytes]
  · show (loading k).cfg.vaCommit = .literal
    revert hk; revert k; decide +kernel
  · rw [(sealed_slot k _).1]
    revert hk; revert k; decide +kernel
  · show pageNo 0x80000008 ≠ pageNo 0x80002000
    decide +kernel

/-- FreeSlotVersionCommit, with a slot that is not 0. -/
theorem test_witness_freeSlotVersionCommit (i : Instr) :
    ∃ s v mac, CanLoad s i v ∧ v.storedMac s = .ok mac ∧ (v.outputs s).2 = leMac mac ∧
      s.cfg.vaCommit = .freeSlot ∧ v.version s ≠ 0 := by
  refine ⟨_, _, _, sealed_canLoad 2 i (trueMac 2), (sealed_mac 2 _).1, ?_, rfl, ?_⟩
  · rw [(sealed_mac 2 _).2, leMac_leBytes]
  · rw [(sealed_slot 2 _).2]; decide +kernel

/-- The frame statements over a next state, met together by a success of every leaf: the operands
resolve, and a byte of the SECS lies in the EPC, outside the target page and the slot, in a valid page
that is no version array. -/
theorem test_witness_next_success (i : Instr) :
    ∃ s t o x, s.event = none ∧ exec i s = .next t ∧ t.event = none ∧ t.rax = 0 ∧ s.regOperands = .ok o ∧
      s.epcByte x = true ∧ ¬inPage o.pc x ∧ ¬inSlot o.pd x ∧ x / 4096 ≠ frameOf o.pc ∧
      (Sparse.get EpcmEntry.free (x / 4096) s.epcm).valid = true ∧
      (Sparse.get EpcmEntry.free (x / 4096) s.epcm).pt ≠ s.cfg.ptVa := by
  have h := test_witness_succeeds i 0 (by decide)
  refine ⟨_, _, _, 0x80001FF0, rfl, h.ends, ?_, ?_, h.loads.regOperands, ?_⟩
  · rw [State.commit_event, State.afterInput_event]; rfl
  · rw [State.commit_rax]
  · refine ⟨?_, ?_, ?_, ?_, ?_, ?_⟩
    · show m0.epcByte 0x80001FF0 = true
      decide +kernel
    · show ¬inPage 0x80002000 0x80001FF0
      unfold inPage; decide +kernel
    · show ¬inSlot 0x80000008 0x80001FF0
      unfold inSlot; decide +kernel
    · show 0x80001FF0 / 4096 ≠ frameOf 0x80002000
      decide +kernel
    · show (Sparse.get EpcmEntry.free (0x80001FF0 / 4096) m0.epcm).valid = true
      decide +kernel
    · show (Sparse.get EpcmEntry.free (0x80001FF0 / 4096) m0.epcm).pt ≠ m0.cfg.ptVa
      decide +kernel

/-- A used slot's `#GP(0)`, after the copy. -/
theorem test_witness_next_usedSlot (i : Instr) :
    ∃ s t, s.event = none ∧ exec i s = .next t ∧ t.event = some .gp ∧ (∃ v, CanLoad s i v) := by
  have h := (sealed_canLoad 1 i (trueMac 1)).ends (sealed_mac 1 _).1
  rw [if_neg (by rw [(sealed_mac 1 _).2, leMac_leBytes]; simp), if_pos ⟨rfl, by
    rw [(sealed_slot 1 _).1]; decide +kernel⟩] at h
  exact ⟨_, _, rfl, h, by rw [State.raise_event], _, sealed_canLoad 1 i _⟩

/-! ### Witnesses: decoding and the step -/

/-- `ENCLS` with EAX = 7, and with an EAX that names no leaf, placed in the launch state. -/
def placed (w : Nat) : State := State.reset.withFetchWord 32 w

theorem test_witness_stepRunsTheDecodedLeaf : (placed 7).event = none ∧ (placed 7).pending = [] ∧
    (placed 7).acted.fetch = .ok [0x0F, 0x01, 0xCF] ∧
    decode (placed 7).cfg.enclsBytes [0x0F, 0x01, 0xCF] (placed 7).eax = .ok (.eldb, []) := by
  decide +kernel

/-- EaxAloneSelectsTheLeaf: RAX = FFFFFFFF00000007H, with the bytes of `ENCLS` fetched. -/
theorem test_witness_eaxAloneSelects :
    let s : State := { placed 7 with rax := 0xFFFFFFFF00000007 }
    s.rax = (0xFFFFFFFF : BitVec 32) ++ (0x07 : BitVec 32) ∧ s.fetch = .ok (s.cfg.enclsBytes ++ []) ∧
      decode s.cfg.enclsBytes (s.cfg.enclsBytes ++ []) s.eax = .ok (.eldb, []) := by decide +kernel

/-- An action of another agent before the step, which changes the bytes fetched. -/
theorem test_witness_stepAfterActions :
    State.event { placed 7 with pending := [.writeRegular 1 0x00, .writeRegular 1 0x01] } = none ∧
    (State.acted { placed 7 with pending := [.writeRegular 1 0x00, .writeRegular 1 0x01] }).fetch =
      .ok [0x0F, 0x01, 0xCF] := by decide +kernel

theorem test_witness_stepAfterARecordedOutcome :
    [Event.gp, .pf 0x1000 5, .vmExit].all
      (fun e => State.event { m0 with event := some e } == some e) = true := by decide +kernel

/-- UnlistedLeafIsRefusedOrTakesGp, its three clauses. -/
theorem test_witness_unlistedLeaf : (placed 3).event = none ∧ (placed 3).pending = [] ∧
    (placed 3).fetch = .ok [0x0F, 0x01, 0xCF] ∧
    decode (placed 3).cfg.enclsBytes [0x0F, 0x01, 0xCF] (placed 3).eax = .error (.unknownLeaf (placed 3).eax) ∧
    (placed 3).admitted = .ok () ∧ (placed 3).cpl = 0 ∧ (placed 3).cfg.unknownLeafGp = false := by
  decide +kernel

theorem test_witness_unlistedLeaf_other :
    State.admitted { placed 3 with cfg := { Config.suggested with unknownLeafGp := true } } = .ok () ∧
    State.fetch { placed 3 with cfg := { Config.suggested with unknownLeafGp := true } } =
      .ok [0x0F, 0x01, 0xCF] ∧
    State.admitted { placed 3 with cpl := 3 } = .ok () ∧
    State.fetch { placed 3 with cpl := 3 } = .ok [0x0F, 0x01, 0xCF] := by decide +kernel

/-- LeavesDifferByTwoPredicates: two leaves of one IsBase, two of one IsBlocking, a check that stops and
checks that hand a load on. -/
theorem test_witness_leavesDiffer : Instr.eldb.isBase = Instr.eldu.isBase ∧
    Instr.eldbc.isBase = Instr.elduc.isBase ∧ Instr.eldb.isBlocking = Instr.eldbc.isBlocking ∧
    Instr.eldu.isBlocking = Instr.elduc.isBlocking ∧
    State.check { m0 with rdx := 0x80000004 } .eldu = .error .gp ∧
    ∀ k i, (loading k).check i = .ok ((view k).toLoad (loading k).cfg) :=
  ⟨rfl, rfl, rfl, rfl, by decide +kernel, fun k i => (test_witness_canLoad k i).check⟩

/-- SiblingsDifferOnlyInBlocked: two leaves of one IsBase, and a frame that is not the target's. -/
theorem test_witness_siblings : Instr.eldb.isBase = Instr.eldu.isBase ∧ Instr.eldb ≠ Instr.eldu ∧
    m0.regOperands = .ok { lb := 0x100000, lc := 0x80002000, pc := 0x80002000, ld := 0x80000008,
                           pd := 0x80000008, rc := 0x80002000, rd := 0x80000008 } ∧
    (0x80003 : Nat) ≠ frameOf 0x80002000 := by decide +kernel

/-- The invariants: a sound state whose step answers a next state, in which it records a page fault. -/
theorem test_witness_soundStep : State.Sound (placed 7) ∧
    nextIs (step (placed 7)) (fun t => t.event.isSome) = true := by
  refine ⟨⟨?_, ?_, ?_, ?_, ?_, ?_, ?_⟩, ?_⟩ <;> decide +kernel

/-! ### Witnesses: entry and addresses -/

theorem test_witness_otherPrivilegeLevels :
    [1, 2, 3].all (fun c : BitVec 2 => State.admitted { m0 with cpl := c } == .ok () && c != 0) = true := by
  decide +kernel

theorem test_witness_unadmitted :
    State.admitted { m0 with cfg := { Config.suggested with enclsEnabled := false } } ≠ .ok () ∧
    State.admitted { m0 with mode := .realAddress } ≠ .ok () ∧
    State.admitted { m0 with mode := .virtual8086 } ≠ .ok () ∧
    State.admitted { m0 with mode := .protectedMode, ds := { m0.ds with expandDown := true } } ≠ .ok () := by
  decide +kernel

/-- AbsentFeatureIsRefusedOrTakesGp: either feature absent, either setting of the switch. -/
theorem test_witness_absentFeature :
    [(false, true, false), (true, false, false), (false, true, true), (true, false, true)].all (fun x =>
      State.admitted { m0 with cfg := { Config.suggested with
        hasSgx1 := x.1, hasEldbcElduc := x.2.1, unknownLeafGp := x.2.2 } } == .ok ()) = true := by
  decide +kernel

/-- OpcodeTableWordsDecode: a state in 64-bit mode and one in 32-bit mode, with either feature absent. -/
theorem test_witness_leafTable :
    [(true, true), (false, true), (true, false)].all (fun x =>
      [m0, { m0 with mode := .protectedMode, ds := { m0.ds with expandDown := false } }].all (fun s =>
        let s : State := { s with cfg := { s.cfg with hasSgx1 := x.1, hasEldbcElduc := x.2 } }
        s.cfg.enclsEnabled && s.cpl == 0 && (s.enterLeaf .eldu).isOk == x.1 &&
          (s.enterLeaf .elduc).isOk == x.2 &&
          (s.mode == .mode64 || (s.mode == .protectedMode && s.ds.expandDown == false)))) = true := by
  decide +kernel

/-- Both clauses at the values where they meet (95 V10). -/
theorem test_witness_linear64 : m0.mode = .mode64 ∧ m0.lin 0x00007FFFFFFFFFFF 8 = .ok 0x00007FFFFFFFFFFF ∧
    m0.lin 0xFFFF800000000000 8 = .ok 0xFFFF800000000000 ∧ m0.lin 0x0000800000000000 8 = .error .gp ∧
    m0.lin 0xFFFF7FFFFFFFFFFF 8 = .error .gp := by decide +kernel

/-- M0 outside 64-bit mode, with a DS base and limit. -/
def protectedM0 (base limit : BitVec 32) (usable : Bool) : State :=
  { m0 with mode := .protectedMode, ds := { base := base, limit := limit, usable := usable, expandDown := false } }

/-- Both clauses at the values where they meet: the last byte at the limit, and one past it (95 V41). -/
theorem test_witness_linear32 :
    (protectedM0 0x100000 0x80002FFF true).lin 0xFFFFFFFF80002000 4096 = .ok 0x80102000 ∧
    (protectedM0 0x100000 0x80002FFE true).lin 0xFFFFFFFF80002000 4096 = .error .gp ∧
    (protectedM0 0x80000000 0xFFFFFFFF true).lin 0x80000000 4096 = .ok 0 ∧
    (protectedM0 0 0xFFFFFFFF true).lin 0xFFFFFFFF 2 = .error .gp ∧
    (protectedM0 0 0xFFFFFFFF false).lin 0 8 = .error .gp := by decide +kernel

theorem test_witness_alignment : alignedTo 12 0x80002000 = true ∧ alignedTo 12 0x80002800 = false ∧
    alignedTo 0 0xFFFFFFFFFFFFFFFF = true ∧ alignedTo 64 0 = true ∧
    alignedTo 64 0x8000000000000000 = false := by decide +kernel

/-! ### Witnesses: the operands -/

theorem m0_enters (i : Instr) : m0.enterLeaf i = .ok () := by cases i <;> decide +kernel

/-- Register operands in pages mapped to the frames of their own numbers. -/
def regs (lb lc ld : Word) : RegOperands :=
  { lb := lb, lc := lc, pc := lc, ld := ld, pd := ld, rc := lc, rd := ld }

/-- The register operands of M0. -/
def m0Regs : RegOperands := regs 0x100000 0x80002000 0x80000008

/-- What PAGEINFO of M0 links to. -/
def m0Linked : LinkedOperands := { lp := 0x101000, ls := 0x102000, secs := 0x80001000 }

/-- M0 with bytes of memory written, and with inputs. -/
def m0With (a : Nat) (bs : List Byte) : State := m0.withMem (Memory.write m0.mem a bs)
def m0Input (d : StepInput) : State := { m0 with inputs := [d] }

/-- V8, V9 and V10: the three ways S1 fails. -/
theorem test_witness_misalignedPageinfoOrTarget :
    State.enterLeaf { m0 with rbx := 0x100010 } .eldb = .ok () ∧
    State.lin { m0 with rbx := 0x100010 } 0x100010 32 = .ok 0x100010 ∧ alignedTo 5 0x100010 = false ∧
    alignedTo 12 0x80002800 = false ∧ m0.lin 0x0000800000000000 4096 = .error .gp := by decide +kernel

/-- Ways a page is no page of the EPC for reading and writing: not mapped, not readable, not writable, and
mapped outside the EPC for both, for writing and for reading. -/
def notEpc (n : Nat) : List PageEntry :=
  [split n none none, split n none (some 0x80002), split n (some 0x80002) none,
    split n (some 0x103) (some 0x103), split n (some 0x80002) (some 0x103), split n (some 0x103) (some 0x80002)]

/-- The last hypothesis on an address whose page is no page of the EPC. -/
def outsideEpc (s : State) (a : Word) : Bool :=
  [Access.read, .write].any fun k => match s.translate a k with
    | none => true
    | some p => !s.inEpc p

/-- EpcResidenceIsTranslationIntoTheEpc: a page read in one frame and written in another, and one read only. -/
theorem test_witness_twoFrames :
    let s : State := { m0 with
      pageMap := [split 0x80002 (some 0x80003) (some 0x80002), split 0x80001 (some 0x80001) none] }
    s.translate 0x80002ABC .read = some 0x80003ABC ∧ s.translate 0x80002ABC .write = some 0x80002ABC ∧
      s.resolveEpc 0x80002ABC = some { read := 0x80003ABC, write := 0x80002ABC } ∧
      s.translate 0x80001000 .read = some 0x80001000 ∧ s.translate 0x80001000 .write = none ∧
      s.resolveEpc 0x80001000 = none := by decide +kernel

/-- Every hypothesis of TargetOutsideTheEpcFaults, for each of those ways (V11, V12), with an RDX that is
not canonical. -/
theorem test_witness_targetOutsideTheEpc :
    (notEpc 0x80003).all (fun e =>
      let s : State := { m0 with rcx := 0x80003000, rdx := 0x0000800000000000, pageMap := e :: m0.pageMap }
      s.enterLeaf .eldu == .ok () && s.lin s.rbx 32 == .ok 0x100000 && s.lin s.rcx 4096 == .ok 0x80003000 &&
        alignedTo 5 0x100000 && alignedTo 12 0x80003000 && outsideEpc s 0x80003000 &&
        s.resolveEpc 0x80003000 == none) = true := by decide +kernel

/-- V13, and a slot address that is not canonical. -/
theorem test_witness_misalignedSlot :
    let s : State := { m0 with rdx := 0x80000004 }
    s.enterLeaf .eldu = .ok () ∧ s.lin s.rbx 32 = .ok 0x100000 ∧ s.lin s.rcx 4096 = .ok 0x80002000 ∧
      s.resolveEpc 0x80002000 = some (same 0x80002000) ∧ s.lin s.rdx 8 = .ok 0x80000004 ∧
      alignedTo 3 0x80000004 = false ∧ s.lin 0x0000800000000000 8 = .error .gp := by decide +kernel

/-- Its second clause: the target is no page of the EPC either. -/
theorem test_witness_misalignedSlot_target :
    let s : State := { m0 with rcx := 0x103000, rdx := 0x80000004 }
    s.enterLeaf .eldu = .ok () ∧ s.lin s.rcx 4096 = .ok 0x103000 ∧ alignedTo 12 0x103000 = true ∧
      s.resolveEpc 0x103000 = none ∧ s.lin s.rdx 8 = .ok 0x80000004 ∧ alignedTo 3 0x80000004 = false := by
  decide +kernel

/-- Every hypothesis of SlotOutsideTheEpcFaults, for each of those ways (V14). -/
theorem test_witness_slotOutsideTheEpc :
    (notEpc 0x80003).all (fun e =>
      let s : State := { m0 with rdx := 0x80003008, pageMap := e :: m0.pageMap }
      s.enterLeaf .eldu == .ok () && s.lin s.rbx 32 == .ok 0x100000 && s.lin s.rcx 4096 == .ok 0x80002000 &&
        s.resolveEpc 0x80002000 == some (same 0x80002000) && s.lin s.rdx 8 == .ok 0x80003008 &&
        alignedTo 3 0x80003008 && outsideEpc s 0x80003008 && s.resolveEpc 0x80003008 == none) = true := by
  decide +kernel

/-- UnmappedRegularOperandFaults, its first clause (V15). -/
theorem test_witness_unmappedPageinfo :
    let s : State := { m0 with rbx := 0x200000 }
    s.enterLeaf .eldb = .ok () ∧ s.regOperands = .ok { m0Regs with lb := 0x200000 } ∧
      s.translate (fieldAddr 0x200000 s.cfg.layout.pageinfoSrcpge) .read = none := by decide +kernel

/-- Its other clauses: an unmapped PCMD (V28) and an unmapped source page (V36). -/
theorem test_witness_unmappedPcmd :
    let s := m0With 0x100010 [0x00, 0x00, 0x20]
    s.enterLeaf .eldb = .ok () ∧ s.regOperands = .ok m0Regs ∧
      s.linkedOperands 0x100000 = .ok { m0Linked with lp := 0x200000 } ∧ s.acquire .eldb m0Regs = .ok () ∧
      s.translate 0x200000 .read = none := by decide +kernel

theorem test_witness_unmappedSource :
    let s := m0With 0x100008 [0x00, 0x00, 0x20]
    s.enterLeaf .eldb = .ok () ∧ s.regOperands = .ok m0Regs ∧
      s.linkedOperands 0x100000 = .ok { m0Linked with ls := 0x200000 } ∧ s.acquire .eldb m0Regs = .ok () ∧
      (match s.readHeader 0x100000 0x101000 with
       | .ok h => (s.bindEid .eldb h 0x80001000).isOk
       | .error _ => false) = true ∧ s.translate 0x200000 .read = none := by decide +kernel

/-- V16, V17a and V17b: the three ways S6 fails. -/
theorem test_witness_misalignedLinkedOperand :
    let s := m0With 0x100010 [0x40, 0x10, 0x10]
    s.enterLeaf .eldb = .ok () ∧ s.regOperands = .ok m0Regs ∧ s.readRegularWord 1 0x100008 = .ok 0x102000 ∧
      s.readRegularWord 2 0x100018 = .ok 0x80001000 ∧ s.readRegularWord 3 0x100010 = .ok 0x101040 ∧
      s.lin 0x101040 128 = .ok 0x101040 ∧ alignedTo 7 0x101040 = false ∧ alignedTo 12 0x102800 = false ∧
      s.lin 0x8000000000102000 4096 = .error .gp := by decide +kernel

/-- RegularOperandInTheEpcIsRefused: PAGEINFO (V47), then the PCMD, then the source page in the EPC. -/
theorem test_witness_pageinfoInTheEpc :
    let s : State := { m0 with rbx := 0x80003000 }
    s.enterLeaf .eldb = .ok () ∧ s.regOperands = .ok { m0Regs with lb := 0x80003000 } ∧
      s.translate (fieldAddr 0x80003000 s.cfg.layout.pageinfoSrcpge) .read = some 0x80003008 ∧
      s.inEpc 0x80003008 = true := by decide +kernel

theorem test_witness_pcmdInTheEpc :
    let s := m0With 0x100010 [0x00, 0x30, 0x00, 0x80]
    s.enterLeaf .eldb = .ok () ∧ s.regOperands = .ok m0Regs ∧
      s.linkedOperands 0x100000 = .ok { m0Linked with lp := 0x80003000 } ∧ s.acquire .eldb m0Regs = .ok () ∧
      s.translate 0x80003000 .read = some 0x80003000 ∧ s.inEpc 0x80003000 = true := by decide +kernel

theorem test_witness_sourceInTheEpc :
    let s := m0With 0x100008 [0x00, 0x30, 0x00, 0x80]
    s.enterLeaf .eldb = .ok () ∧ s.regOperands = .ok m0Regs ∧
      s.linkedOperands 0x100000 = .ok { m0Linked with ls := 0x80003000 } ∧ s.acquire .eldb m0Regs = .ok () ∧
      (match s.readHeader 0x100000 0x101000 with
       | .ok h => (s.bindEid .eldb h 0x80001000).isOk
       | .error _ => false) = true ∧
      s.translate 0x80003000 .read = some 0x80003000 := by decide +kernel

/-! ### Witnesses: locks, the VM exit and the EPCM -/

/-- M0 in VMX non-root operation with the extensions, and a target conflict (V20, V21). -/
def vmConflict : State :=
  { m0 with vmxNonRoot := true, epcVirtExt := true, inputs := [{ quiet with conflictEpc := true }] }

/-- M0 with the target held Shared by another logical processor: a conflict without a draw. -/
def lockedTarget : State := { m0 with locks := [(0x80002, { exclusive := false, shared := 1 })] }

theorem test_witness_targetConflict :
    [vmConflict, lockedTarget].all (fun s => [Instr.eldb, .eldbc].all (fun i =>
      s.enterLeaf i == .ok () && s.regOperands == .ok m0Regs && s.linkedOperands 0x100000 == .ok m0Linked &&
        s.targetConflict 0x80002000)) = true ∧ lockedTarget.vmxNonRoot = false ∧
    vmConflict.cfg.packingOk = true := by decide +kernel

theorem test_witness_slotConflict :
    let s := m0Input { quiet with conflictVa := true }
    [Instr.eldb, .elduc].all (fun i => s.enterLeaf i == .ok ()) = true ∧ s.regOperands = .ok m0Regs ∧
      s.linkedOperands 0x100000 = .ok m0Linked ∧ s.targetConflict 0x80002000 = false ∧
      s.vaConflict 0x80000008 = true := by decide +kernel

/-- A header of M0 read at S11 has a page type with a parent. -/
def headerOk (s : State) (p : MacHeader → Bool) : Bool :=
  match s.readHeader 0x100000 0x101000 with
  | .ok h => p h
  | .error _ => false

/-- SecsConflictIsReported, its first clause (V31) for a base leaf and the others. -/
theorem test_witness_secsConflict :
    let s := m0Input { quiet with conflictSecs := true }
    [Instr.eldb, .eldbc].all (fun i => s.enterLeaf i == .ok () && s.acquire i m0Regs == .ok ()) = true ∧
      s.regOperands = .ok m0Regs ∧ s.linkedOperands 0x100000 = .ok m0Linked ∧
      headerOk s (fun h => hasParent s.cfg (h.pt s.cfg.layout)) = true ∧
      s.lin 0x80001000 4096 = .ok 0x80001000 ∧ s.resolveEpc 0x80001000 = some (same 0x80001000) ∧
      s.cfg.checkSecsEpcm = false ∧ s.secsConflict 0x80001000 = true := by decide +kernel

/-- Its second clause (V32): a page without a parent. -/
theorem test_witness_noSecsLock :
    let s := machine [0x00, 0x03] 0 .literal
    s.enterLeaf .eldb = .ok () ∧ s.regOperands = .ok m0Regs ∧ s.linkedOperands 0x100000 = .ok m0Linked ∧
      s.acquire .eldb m0Regs = .ok () ∧
      headerOk s (fun h => !hasParent s.cfg (h.pt s.cfg.layout)) = true := by decide +kernel

/-- BadSecsOperandFaults, both clauses (V29, V30). -/
theorem test_witness_badSecsOperand :
    [((m0With 0x100018 [0x00, 0x18]), (0x80001800 : Word)), (m0With 0x100018 [0x00, 0x50, 0x10, 0x00], 0x105000)].all
      (fun x => x.1.enterLeaf .eldb == .ok () && x.1.regOperands == .ok m0Regs &&
        x.1.linkedOperands 0x100000 == .ok { m0Linked with secs := x.2 } && x.1.acquire .eldb m0Regs == .ok () &&
        headerOk x.1 (fun h => hasParent x.1.cfg (h.pt x.1.cfg.layout)) && x.1.lin x.2 4096 == .ok x.2 &&
        (!alignedTo 12 x.2 || x.1.resolveEpc x.2 == none)) = true := by decide +kernel

/-- EpcmTestsFault, its three clauses (V24, V26, V1), and a slot in a page that is not valid; what these
states share with M0 is what M0's tests above show. -/
theorem test_witness_epcmTests :
    State.regOperands { m0 with rcx := 0x80003000 } = .ok (regs 0x100000 0x80003000 0x80000008) ∧
    (m0.epcmAt 0x80003000).valid = true ∧
    State.regOperands { m0 with rdx := 0x80003008 } = .ok (regs 0x100000 0x80002000 0x80003008) ∧
    (m0.epcmAt 0x80003008).pt ≠ m0.cfg.ptVa ∧ (m0.epcmAt 0x80002008).valid = false ∧
    m0.regOperands = .ok m0Regs ∧ m0.linkedOperands 0x100000 = .ok m0Linked ∧
    m0.targetConflict 0x80002000 = false ∧ m0.vaConflict 0x80000008 = false ∧
    (m0.epcmAt 0x80002000).valid = false ∧ (m0.epcmAt 0x80000008).valid = true ∧
    (m0.epcmAt 0x80000008).pt = m0.cfg.ptVa := by decide +kernel

/-- V20: a next state that records a VM exit. -/
theorem test_witness_vmExit : vmConflict.event = none ∧
    nextIs (exec .eldu vmConflict) (fun t => t.event == some .vmExit && t.vmcs.guestPhysical == 0x80002000) =
      true := by decide +kernel

/-- V20 and V21, with `code` in bits 15 to 0 and `error` in bits 31 to 16 of an exit qualification whose bits
were all 1: ELDU leaves 0 in both fields, ELDUC the code 1 and the error 7. -/
theorem test_vmExit_packing :
    let s : State := { vmConflict with
      vmcs := { vmConflict.vmcs with exitQualification := 0xFFFFFFFFFFFFFFFF }
      cfg := { vmConflict.cfg with qualCode := { pos := 0, width := 16 }, qualError := { pos := 16, width := 16 } } }
    s.cfg.packingOk = true ∧
      nextIs (exec .eldu s) (fun t => t.vmcs.exitQualification == 0xFFFFFFFF00000000) = true ∧
      nextIs (exec .elduc s) (fun t => t.vmcs.exitQualification == 0xFFFFFFFF00070001 &&
        t.vmcs.code s.cfg == 1 && t.vmcs.error s.cfg == 7) = true := by decide +kernel

/-- A slot inside the free target page, and a valid target (V27a, V27b). -/
theorem test_witness_slotInsideTheTargetPage :
    let s : State := { m0 with rdx := 0x80002008 }
    s.enterLeaf .eldb = .ok () ∧ s.regOperands = .ok (regs 0x100000 0x80002000 0x80002008) ∧
      s.linkedOperands 0x100000 = .ok m0Linked ∧ s.targetConflict 0x80002000 = false ∧
      s.vaConflict 0x80002008 = false ∧ pageNo (0x80002008 : Word) = pageNo 0x80002000 := by decide +kernel

/-! ### Witnesses: the header and the switches -/

/-- EidIsTheParentsOrZero: a page with a parent and one without. -/
theorem test_witness_bindEid :
    headerOk m0 (fun h => match m0.bindEid .eldb h 0x80001000 with
      | .ok h' => h'.eid == 0x42 && h.pt m0.cfg.layout == m0.cfg.ptReg
      | .error _ => false) = true ∧
    headerOk (machine [0x00, 0x07] 0 .literal) (fun h => match m0.bindEid .eldb h 0 with
      | .ok h' => h'.eid == 0 && h.pt m0.cfg.layout == 7
      | .error _ => false) = true := by decide +kernel

theorem test_witness_headerBytes : Layout.suggested.headerOk = true ∧
    (List.replicate 64 (1 : Byte)).length = 64 ∧ (List.replicate 40 (1 : Byte)).length = 40 := by decide

/-- The premises of SwitchesAddTheirFaults on the state, with the switch given. -/
def reachesHeader (s : State) (on : Bool) : Bool :=
  s.enterLeaf .eldb == .ok () && s.regOperands == .ok m0Regs && s.linkedOperands 0x100000 == .ok m0Linked &&
    s.acquire .eldb m0Regs == .ok () && s.cfg.checkSecinfoReserved == on &&
    match s.readRegular 4 0x101000 128, s.readRegularWord 5 0x100000 with
    | .ok _, .ok _ => true
    | _, _ => false

/-- The header the first PCMD read and LINADDR give. -/
def headerRead (s : State) : MacHeader :=
  { secinfo := slice (Memory.read s.mem 0x101000 128) s.cfg.layout.pcmdSecinfo 64
    rsvd := slice (Memory.read s.mem 0x101000 128) s.cfg.layout.pcmdRsvd 40
    linaddr := leWord (Memory.read s.mem 0x100000 8)
    eid := 0 }

/-- M0 with the switch CHECK_SECINFO_RESERVED given and bytes of memory written. -/
def switched (on : Bool) (a : Nat) (bs : List Byte) : State :=
  { m0With a bs with cfg := { Config.suggested with checkSecinfoReserved := on } }

/-- The five contents 93 U3 lists: FLAGS bit 6, a SECINFO byte outside FLAGS, an RSVD byte (V38e), a page
type of 7, a LINADDR that is not 4-KByte aligned. -/
def unclear : List (Nat × List Byte) :=
  [(0x101000, [0x43]), (0x101008, [0x01]), (0x101048, [0x01]), (0x101001, [0x07]), (0x100000, [0x08])]

/-- SwitchesAddTheirFaults: each of the five contents meets the premises, with the switch on and off. -/
theorem test_witness_secinfoSwitch : unclear.all (fun x =>
    reachesHeader (switched true x.1 x.2) true && reachesHeader (switched false x.1 x.2) false) = true := by
  decide +kernel

/-- None of the five is clear. -/
theorem test_witness_secinfoUnclear :
    ∀ x ∈ unclear, ¬SecinfoClear (switched true x.1 x.2).cfg (headerRead (switched true x.1 x.2)) := by
  simp only [← MacHeader.reservedClear_iff]
  decide +kernel

/-- The PCMD of M0 is clear, and reaches the header. -/
theorem test_witness_secinfoClear : reachesHeader (switched true 0x101000 []) true = true ∧
    SecinfoClear (switched true 0x101000 []).cfg (headerRead (switched true 0x101000 [])) := by
  rw [← MacHeader.reservedClear_iff]
  decide +kernel

/-- SwitchesAddTheirFaults, its last clause: the SECS operand names a page that is no SECS. -/
theorem test_witness_secsSwitch :
    let s : State := { m0With 0x100018 [0x00, 0x30] with cfg := { Config.suggested with checkSecsEpcm := true } }
    s.enterLeaf .eldb = .ok () ∧ s.regOperands = .ok m0Regs ∧
      s.linkedOperands 0x100000 = .ok { m0Linked with secs := 0x80003000 } ∧
      s.acquire .eldb m0Regs = .ok () ∧ headerOk s (fun h => hasParent s.cfg (h.pt s.cfg.layout)) = true ∧
      s.resolveEpc 0x80003000 = some (same 0x80003000) ∧ (s.epcmAt 0x80003000).pt ≠ s.cfg.ptSecs := by decide +kernel

/-! ### Witnesses: frames -/

/-- A stop before the copy (V18), and its next state. -/
theorem test_witness_stopsBeforeTheCopy :
    (m0Input { quiet with conflictEpc := true }).check .eldb = .error .gp ∧
    nextIs (exec .eldb (m0Input { quiet with conflictEpc := true })) (fun t => t.event == some .gp) = true := by
  decide +kernel

/-- The operand addresses of the frame statements resolve, or do not (V12). -/
theorem test_witness_frameOperands : m0.regOperands = .ok m0Regs ∧
    State.regOperands { m0 with rcx := 0x90000000 } = .error (.pf 0x90000000 5) ∧
    m0.epcByte 0x80001FF0 = true ∧ m0.epcByte 0x100000 = false ∧
    (Sparse.get EpcmEntry.free 0x80001 m0.epcm).valid = true ∧
    (Sparse.get EpcmEntry.free 0x80001 m0.epcm).pt ≠ m0.cfg.ptVa ∧ (0x80001 : Nat) ≠ frameOf 0x80002000 ∧
    m0.input.during = [] := by decide +kernel

/-- FaultsLeaveAllButTheTargetPage, with a page fault (V12) and a byte of the EPC. -/
theorem test_witness_fault :
    nextIs (exec .elduc { m0 with rcx := 0x90000000 }) (fun t => t.event == some (.pf 0x90000000 5)) = true ∧
    State.event { m0 with rcx := 0x90000000 } = none ∧
    State.epcByte { m0 with rcx := 0x90000000 } 0x80001FF0 = true := by
  decide +kernel

/-- ConflictReturnChangesNoPage (V19). -/
theorem test_witness_conflictReturn :
    (m0Input { quiet with conflictEpc := true }).cfg.codesOk = true ∧
    nextIs (exec .eldbc (m0Input { quiet with conflictEpc := true })) (fun t =>
      t.event == none && t.rax == (m0Input { quiet with conflictEpc := true }).cfg.epcPageConflict) = true := by
  decide +kernel

/-- ConflictFreeVariantsAgree: M0 has both features, no draw and no lock. -/
theorem test_witness_conflictFree : Instr.eldb.isBlocking = Instr.eldbc.isBlocking ∧ m0.cfg.hasSgx1 = true ∧
    m0.cfg.hasEldbcElduc = true ∧
    ∀ p, m0.targetConflict p = false ∧ m0.vaConflict p = false ∧ m0.secsConflict p = false :=
  ⟨rfl, rfl, rfl, fun _ => ⟨rfl, rfl, rfl⟩⟩

end Sys2Proof.Tests
end

section
/-! SUPPORT. The two switches that add a check: where in the flow a stop past S9 ends an execution, when S11 and
S12 stop, and the statement about both. -/

namespace Sys2Proof.Machine

/-- An execution whose checks stop ends with that stop. -/
theorem exec_of_check_error {s : State} {i : Instr} {k : Stop} (h : s.check i = .error k) :
    exec i s = s.afterInput.finish k := by
  rw [exec_eq_eld, State.eld, h]

section pastS9

variable {s : State} {i : Instr} {o : RegOperands} {p : LinkedOperands} {h : MacHeader} {k : Stop}

/-- Past S9, a stop at S10 or S11 ends the execution. -/
theorem exec_of_readHeader_error (henter : s.enterLeaf i = .ok ()) (hregs : s.regOperands = .ok o)
    (hlinked : s.linkedOperands o.lb = .ok p) (hacquire : s.acquire i o = .ok ())
    (hheader : s.readHeader o.lb p.lp = .error k) : exec i s = s.afterInput.finish k :=
  exec_of_check_error (by simp [State.check, henter, hregs, hlinked, hacquire, hheader])

/-- Past S11, a stop at S12 or S13 ends the execution. -/
theorem exec_of_bindEid_error (henter : s.enterLeaf i = .ok ()) (hregs : s.regOperands = .ok o)
    (hlinked : s.linkedOperands o.lb = .ok p) (hacquire : s.acquire i o = .ok ())
    (hheader : s.readHeader o.lb p.lp = .ok h) (hbind : s.bindEid i h p.secs = .error k) :
    exec i s = s.afterInput.finish k :=
  exec_of_check_error (by simp [State.check, henter, hregs, hlinked, hacquire, hheader, hbind])

end pastS9

/-- S10 and S11, once the PCMD and LINADDR are read: only the switch's test is left. -/
theorem State.readHeader_of_reads {s : State} {lb lp linaddr : Word} {scratch : List Byte} {h : MacHeader}
    (hpcmd : s.readRegular 4 lp 128 = .ok scratch)
    (hlinaddr : s.readRegularWord 5 (fieldAddr lb s.cfg.layout.pageinfoLinaddr) = .ok linaddr)
    (hh : h = { secinfo := slice scratch s.cfg.layout.pcmdSecinfo 64
                rsvd := slice scratch s.cfg.layout.pcmdRsvd 40
                linaddr := linaddr
                eid := 0 }) :
    s.readHeader lb lp = if s.cfg.checkSecinfoReserved && !h.reservedClear s.cfg then .error .gp else .ok h := by
  subst hh
  simp only [State.readHeader, hpcmd, hlinaddr, ok_bind]
  cases s.cfg.checkSecinfoReserved with
  | false => rfl
  | true => cases MacHeader.reservedClear _ s.cfg <;> rfl

/-- A header whose parent is refused is not bound. -/
theorem State.bindEid_of_parentEid_error {s : State} {i : Instr} {h : MacHeader} {secs : Word} {k : Stop}
    (hparent : hasParent s.cfg (h.pt s.cfg.layout) = true) (hk : s.parentEid i secs = .error k) :
    s.bindEid i h secs = .error k := by
  rw [State.bindEid, if_pos hparent, hk]

/-- With CHECK_SECS_EPCM, a resident SECS operand that is no valid PT_SECS page is a page fault at its address
(93 U4), whatever its lock. -/
theorem State.parentEid_of_not_secs {s : State} {i : Instr} {secs le : Word} {pe : EpcAddress}
    (hlin : s.lin secs 4096 = .ok le) (haligned : alignedTo 12 le = true) (hresident : s.resolveEpc le = some pe)
    (hswitch : s.cfg.checkSecsEpcm = true)
    (hentry : (s.epcmAt pe.read).valid = false ∨ (s.epcmAt pe.read).pt ≠ s.cfg.ptSecs) :
    s.parentEid i secs = .error (s.pageFault le) := by
  have htest : (!s.cfg.checkSecsEpcm || ((s.epcmAt pe.read).valid && (s.epcmAt pe.read).pt == s.cfg.ptSecs)) =
      false := by
    rcases hentry with hvalid | hpt
    · simp [hswitch, hvalid]
    · simp [hswitch, hpt]
  simp only [State.parentEid, hlin, haligned, hresident, htest, ok_bind, require_true, require_false, orStop_some,
    error_bind]

/-- Settles O34: past S9, S11 is the test of the first switch and S12 that of the second, and a stop of either
ends the execution. -/
theorem switchesAddTheirFaults : Obligations.SwitchesAddTheirFaults := by
  unfold Obligations.SwitchesAddTheirFaults
  intro s i o p scratch linaddr henter hregs hlinked hacquire hpcmd hlinaddr
  refine ⟨fun h hh => ?_, fun h le pe hheader hparent hlin haligned hresident hswitch hentry => ?_⟩
  · have hS11 := State.readHeader_of_reads hpcmd hlinaddr hh
    refine ⟨fun hon hunclear => ?_, fun _ hclear => ?_, fun hoff => ?_⟩
    · rw [← MacHeader.reservedClear_iff, Bool.not_eq_true] at hunclear
      exact exec_of_readHeader_error henter hregs hlinked hacquire (by simpa [hon, hunclear] using hS11)
    · rw [← MacHeader.reservedClear_iff] at hclear
      simpa [hclear] using hS11
    · simpa [hoff] using hS11
  · exact exec_of_bindEid_error henter hregs hlinked hacquire hheader
      (State.bindEid_of_parentEid_error hparent
        (State.parentEid_of_not_secs hlin haligned hresident hswitch hentry))

end Sys2Proof.Machine
end

section
/-! SUPPORT. What a step can do, said once, and what every way an execution ends writes and leaves: the operands and
the system state, RIP, RAX and the flags, the EPCM, regular memory. -/

namespace Sys2Proof.Machine

/-! ### What a step can do -/

/-- Entry stops with `#GP(0)` or a refusal. -/
theorem State.enter_error {s : State} {k : Stop} (h : s.enter = .error k) : k = .gp ∨ ∃ r, k = .refuse r := by
  unfold State.enter at h
  split at h
  · next k' hk =>
    cases h
    unfold State.admitted at hk
    split at hk
    · cases hk; exact .inr ⟨_, rfl⟩
    · split at hk
      · cases hk; exact .inr ⟨_, rfl⟩
      · cases hk; exact .inr ⟨_, rfl⟩
      · exact .inr ⟨_, (require_error.mp hk).2.symm⟩
      · cases hk
  · exact .inl (require_error.mp h).2.symm

/-- An `ENCLS` that names no leaf ends in `#GP(0)` where it leaves a next state. -/
theorem State.unlistedLeaf_next {s t : State} {eax : BitVec 32} (h : s.unlistedLeaf eax = .next t) :
    t = s.afterInput.raise .gp := by
  unfold State.unlistedLeaf at h
  split at h
  · next k hk =>
    rcases State.enter_error hk with rfl | ⟨r, rfl⟩
    · cases h; rfl
    · cases h
  · split at h
    · cases h; rfl
    · cases h

/-- A step that answers a next state does the pending actions of other agents, and then runs a leaf or takes
`#GP(0)` for an `ENCLS` that names none. -/
theorem step_next {s t : State} (h : step s = .next t) :
    s.event = none ∧ ((∃ i, exec i s.acted = .next t) ∨ t = s.acted.afterInput.raise .gp) := by
  unfold step at h
  split at h
  · cases h
  · next hevent =>
    refine ⟨hevent, ?_⟩
    unfold State.runEncls at h
    split at h
    · cases h
    · split at h
      · next e _ =>
        cases e with
        | notEncls => cases h
        | unknownLeaf eax => exact .inr (State.unlistedLeaf_next h)
      · next i _ _ => exact .inl ⟨i, h⟩

/-! ### What no leaf writes -/

theorem Keeps.trans {s t u : State} (h : Keeps s t) (h' : Keeps t u) : Keeps s u where
  rbx := h'.rbx.trans h.rbx
  rcx := h'.rcx.trans h.rcx
  rdx := h'.rdx.trans h.rdx
  ds := h'.ds.trans h.ds
  cpl := h'.cpl.trans h.cpl
  mode := h'.mode.trans h.mode
  epcVirtExt := h'.epcVirtExt.trans h.epcVirtExt
  crBasePk := h'.crBasePk.trans h.crBasePk
  locks := h'.locks.trans h.locks
  epcFrames := h'.epcFrames.trans h.epcFrames
  pageMap := h'.pageMap.trans h.pageMap
  cfg := h'.cfg.trans h.cfg

theorem keeps_afterInput (s : State) : Keeps s s.afterInput := by constructor <;> simp
theorem keeps_withMem (s : State) (m : List Host.Cell) : Keeps s (s.withMem m) := by constructor <;> simp
theorem keeps_raise (s : State) (e : Event) : Keeps s (s.raise e) := by constructor <;> simp
theorem keeps_exitVm (s : State) (v : Vmcs) : Keeps s (s.exitVm v) := by constructor <;> simp
theorem keeps_complete (s : State) (c : Word) (z : Bool) : Keeps s (s.complete c z) := by constructor <;> simp
theorem keeps_commit (s : State) (i : Instr) (l : Load) (m : List Host.Cell) : Keeps s (s.commit i l m) := by
  constructor <;> simp

/-- Every way an execution ends keeps what no leaf writes. -/
theorem Ending.keeps {s t : State} {i : Instr} (h : Ending s i t) : Keeps s t := by
  have hinput := keeps_afterInput s
  cases h with
  | fault e => exact hinput.trans (keeps_raise _ e)
  | vmExit o => exact hinput.trans (keeps_exitVm _ _)
  | conflict => exact hinput.trans (keeps_complete _ _ _)
  | mismatch v => exact (hinput.trans (keeps_withMem _ _)).trans (keeps_complete _ _ _)
  | usedSlot v => exact (hinput.trans (keeps_withMem _ _)).trans (keeps_raise _ _)
  | success v => exact hinput.trans (keeps_commit _ _ _ _)

/-- Only a VM exit writes the VMCS or leaves VMX non-root operation. -/
theorem Ending.vmx {s t : State} {i : Instr} (h : Ending s i t) :
    t.event = some .vmExit ∨ (t.vmcs = s.vmcs ∧ t.vmxNonRoot = s.vmxNonRoot) := by
  cases h with
  | vmExit o => exact .inl (by simp)
  | _ => exact .inr (by simp)

/-- Settles O46: the frame and the VMX state of each way an execution ends. -/
theorem leavesKeepOperandsAndSystemState : Obligations.LeavesKeepOperandsAndSystemState := by
  unfold Obligations.LeavesKeepOperandsAndSystemState
  intro s t i h
  have hend := exec_ending h
  exact ⟨hend.keeps, fun hne => hend.vmx.resolve_left hne⟩

/-- Settles O60: other agents change none of these between steps, nor does a leaf or the `#GP(0)` of an `ENCLS`
that names none. -/
theorem noStepChangesParametersOrMode : Obligations.NoStepChangesParametersOrMode := by
  unfold Obligations.NoStepChangesParametersOrMode
  intro s t h
  have hkeeps : Keeps s.acted t ∧ (t.vmxNonRoot = s.acted.vmxNonRoot ∨ t.event = some .vmExit) := by
    rcases (step_next h).2 with ⟨i, hi⟩ | rfl
    · have hend := exec_ending hi
      exact ⟨hend.keeps, hend.vmx.symm.imp_left And.right⟩
    · exact ⟨(keeps_afterInput _).trans (keeps_raise _ _), .inl (by simp)⟩
  obtain ⟨hk, hvmx⟩ := hkeeps
  simpa [hk.cfg, hk.crBasePk, hk.epcFrames, hk.pageMap, hk.cpl, hk.mode, hk.ds, hk.epcVirtExt] using hvmx

/-! ### RIP, RAX and the flags -/

/-- Settles O44, by the ways an execution ends: three complete, three record an outcome. -/
theorem completionAloneWritesRipRaxAndFlags : Obligations.CompletionAloneWritesRipRaxAndFlags := by
  unfold Obligations.CompletionAloneWritesRipRaxAndFlags
  intro s t i hevent h
  cases exec_ending h with
  | fault e => simp
  | vmExit o => simp
  | usedSlot v => simp
  | conflict hi => simp [hevent, hi]
  | mismatch v => simp [hevent]
  | success v => simp [hevent]

/-! ### The EPCM -/

/-- An execution keeps the EPCM, or it succeeds and puts one entry at the target's frame. -/
theorem Ending.epcm {s t : State} {i : Instr} (h : Ending s i t) : t.epcm = s.epcm ∨
    ∃ v, CanLoad s i v ∧ t.event = s.event ∧ t.rflags.zf = false ∧
      t.epcm = Sparse.put EpcmEntry.free (frameOf v.pc) [(v.header s.cfg).entry s.cfg i] s.epcm := by
  cases h with
  | success v c => exact .inr ⟨v, c, by simp⟩
  | _ => exact .inl (by simp)

/-- Settles O50: the one entry a success puts is the target's. -/
theorem epcmChangesOnlyOnSuccessAtTheTarget : Obligations.EpcmChangesOnlyOnSuccessAtTheTarget := by
  unfold Obligations.EpcmChangesOnlyOnSuccessAtTheTarget
  intro s t i hevent h
  rcases (exec_ending h).epcm with hsame | ⟨v, c, hev, hzf, hput⟩
  · exact ⟨fun _ => hsame, fun _ _ f _ => by rw [hsame], fun _ _ => hsame⟩
  · refine ⟨fun hout => ?_, fun o ho f hf => ?_, fun k hk => ?_⟩
    · simp [hev, hevent, hzf] at hout
    · obtain rfl := Except.ok.inj (c.regOperands.symm.trans ho)
      rw [hput, Sparse.get_put_one, if_neg hf]
    · cases c.regOperands.symm.trans hk

/-- Settles O53: the one entry a success puts is that of a page that was free (S9). -/
theorem validPagesKeepTheirEntries : Obligations.ValidPagesKeepTheirEntries := by
  unfold Obligations.ValidPagesKeepTheirEntries
  intro s t i h f hvalid
  rcases (exec_ending h).epcm with hsame | ⟨v, c, -, -, hput⟩
  · rw [hsame]
  · have hne : f ≠ frameOf v.pc := by
      rintro rfl
      exact Bool.false_ne_true (c.targetFree.symm.trans hvalid)
    rw [hput, Sparse.get_put_one, if_neg hne]

/-! ### Memory -/

/-- Outside the EPC an execution leaves what other agents' writes leave. -/
theorem Ending.regularByte {s t : State} {i : Instr} (h : Ending s i t) {x : Nat} (hx : s.epcByte x = false) :
    Memory.byte t.mem x = Memory.byte s.landed x := by
  have hpage : ∀ v, CanLoad s i v → ¬inPage v.pc x := fun v c hin =>
    Bool.false_ne_true (hx.symm.trans (c.target_epc hin).1)
  cases h with
  | fault e => simp
  | vmExit o => simp
  | conflict => simp
  | mismatch v c => simpa using c.filled_out x (hpage v c)
  | usedSlot v c => simpa using c.filled_out x (hpage v c)
  | success v c =>
    exact c.commit_out _ x (hpage v c) fun hin => Bool.false_ne_true (hx.symm.trans (c.slot_epc hin).1)

/-- Settles O47: the leaf's own stores lie in the EPC. -/
theorem regularMemoryIsOnlyRead : Obligations.RegularMemoryIsOnlyRead := by
  unfold Obligations.RegularMemoryIsOnlyRead
  intro s t i h x hx
  have hbyte := (exec_ending h).regularByte hx
  exact ⟨hbyte, fun hw => hbyte.trans (s.landed_unwritten x hw)⟩

end Sys2Proof.Machine
end

section
/-! SUPPORT. Soundness: each update of the state keeps it, and so do the actions of other agents and every way an
execution ends; so every step does. -/

namespace Sys2Proof.Machine

/-! ### Sparse maps by frame number -/

section frames

variable {β : Type} [DecidableEq β]

/-- A cell of a map one value was put in is a cell of the map, or the one put. -/
theorem Sparse.mem_put_one {d v : β} {k : Nat} {m : List (Nat × β)} {c : Nat × β}
    (h : c ∈ Sparse.put d k [v] m) : c ∈ m ∨ c.1 = k := by
  unfold Sparse.put at h
  rcases List.mem_append.mp h with h | h
  · exact .inl ((List.takeWhile_sublist _).subset h)
  rcases List.mem_append.mp h with h | h
  · have hge := Sparse.cells_ge d k [v] c h
    have hlt := Sparse.cells_lt d k [v] c h
    rw [List.length_singleton] at hlt
    exact .inr (by omega)
  · exact .inl ((List.dropWhile_sublist _).subset h)

/-- An entry put at a frame of the EPC leaves a map of EPC frames one. -/
theorem State.onlyEpcFrames_put {s : State} {d v : β} {m : List (Nat × β)} {f : FrameNo}
    (hm : s.onlyEpcFrames m = true) (hf : s.epcFrames.contains f = true) :
    s.onlyEpcFrames (Sparse.put d f.toNat [v] m) = true := by
  refine List.all_eq_true.mpr fun c hc => ?_
  rcases Sparse.mem_put_one hc with hc | hc
  · exact List.all_eq_true.mp hm c hc
  · simpa [hc, f.isLt] using hf

end frames

/-! ### The updates of the state -/

theorem State.afterInput_inEpc (s : State) (p : Word) : s.afterInput.inEpc p = s.inEpc p := by
  rw [State.inEpc, State.inEpc, State.afterInput_epcFrames]

theorem State.afterInput_onlyEpcFrames {β : Type} (s : State) (m : List (Nat × β)) :
    s.afterInput.onlyEpcFrames m = s.onlyEpcFrames m := by
  rw [State.onlyEpcFrames, State.onlyEpcFrames, State.afterInput_epcFrames]

theorem State.Sound.afterInput {s : State} (h : s.Sound) : s.afterInput.Sound where
  mem := by simpa using s.wf_landed h.mem
  epcm := by simpa using h.epcm
  locks := by simpa using h.locks
  epcmFrames := by simpa [State.afterInput_onlyEpcFrames] using h.epcmFrames
  lockFrames := by simpa [State.afterInput_onlyEpcFrames] using h.lockFrames
  cfg := by simpa using h.cfg
  afterExit := by simpa using h.afterExit

theorem State.Sound.withMem {s : State} {m : List Host.Cell} (h : s.Sound) (hm : Memory.wf m = true) :
    (s.withMem m).Sound := { h with mem := hm }

theorem State.Sound.raise {s : State} {e : Event} (h : s.Sound) (he : e ≠ .vmExit) : (s.raise e).Sound :=
  { h with afterExit := fun hexit => absurd (Option.some.inj hexit) he }

theorem State.Sound.exitVm {s : State} (h : s.Sound) (v : Vmcs) : (s.exitVm v).Sound :=
  { h with afterExit := fun _ => rfl }

theorem State.Sound.complete {s : State} (h : s.Sound) (c : Word) (z : Bool) : (s.complete c z).Sound :=
  { h with }

theorem Load.wf_context (l : Load) (c : Config) {m : List Host.Cell} (hm : Memory.wf m = true) :
    Memory.wf (l.context c m) = true := by
  unfold Load.context
  split
  · exact Memory.wf_write _ _ _ hm
  · exact hm

theorem State.Sound.commit {s : State} {l : Load} {m : List Host.Cell} (h : s.Sound) (i : Instr)
    (hm : Memory.wf m = true) (hp : s.inEpc l.pc = true) : (s.commit i l m).Sound :=
  { h with
    mem := l.wf_context s.cfg hm
    epcm := Sparse.wf_put _ _ _ _ h.epcm
    epcmFrames := State.onlyEpcFrames_put h.epcmFrames hp }

/-! ### Executions and steps -/

theorem LoadView.wf_filled (v : LoadView) {s : State} (h : Memory.wf s.mem = true) :
    Memory.wf (v.filled s) = true :=
  Memory.wf_write _ _ _ (Memory.wf_write _ _ _ (s.wf_landed h))

/-- Every way an execution ends keeps the state sound. -/
theorem Ending.sound {s t : State} {i : Instr} (h : Ending s i t) (hs : s.Sound) : t.Sound := by
  have hinput := hs.afterInput
  cases h with
  | fault e he =>
    refine hinput.raise ?_
    rcases he with rfl | ⟨a, rfl⟩ <;> simp
  | vmExit o => exact hinput.exitVm _
  | conflict => exact hinput.complete _ _
  | mismatch v => exact (hinput.withMem (v.wf_filled hs.mem)).complete _ _
  | usedSlot v => exact (hinput.withMem (v.wf_filled hs.mem)).raise (by simp)
  | success v c =>
    obtain ⟨-, -, -, hin⟩ := State.resolveEpc_some.mp c.targetResident
    exact hinput.commit i (Memory.wf_write _ _ _ (v.wf_filled hs.mem)) ((s.afterInput_inEpc _).trans hin)

/-- An action of another agent keeps the state sound. -/
theorem State.Sound.agentAct {s : State} (h : s.Sound) (a : AgentAction) : (s.agentAct a).Sound := by
  cases a with
  | writeRegular a b =>
    simp only [State.agentAct]
    split
    · exact h
    · exact { h with mem := Memory.wf_write _ _ _ h.mem }
  | writeEpc a b =>
    simp only [State.agentAct]
    split
    · exact { h with mem := Memory.wf_write _ _ _ h.mem }
    · exact h
  | setEpcm f e =>
    simp only [State.agentAct]
    split
    · next hf =>
      exact { h with
        epcm := Sparse.wf_put _ _ _ _ h.epcm
        epcmFrames := State.onlyEpcFrames_put h.epcmFrames hf }
    · exact h
  | setLock f l =>
    simp only [State.agentAct]
    split
    · next hf =>
      exact { h with
        locks := Sparse.wf_put _ _ _ _ h.locks
        lockFrames := State.onlyEpcFrames_put h.lockFrames hf }
    · exact h

theorem State.Sound.foldl_agentAct {s : State} (h : s.Sound) (acts : List AgentAction) :
    (acts.foldl State.agentAct s).Sound := by
  induction acts generalizing s with
  | nil => exact h
  | cons a acts ih => exact ih (h.agentAct a)

theorem State.Sound.acted {s : State} (h : s.Sound) : s.acted.Sound :=
  { h.foldl_agentAct s.pending with }

/-- Settles O58: soundness survives the pending actions, then the leaf or the `#GP(0)` of an `ENCLS` that names
none. -/
theorem everyStepKeepsTheStateSound : Obligations.EveryStepKeepsTheStateSound := by
  unfold Obligations.EveryStepKeepsTheStateSound
  intro s t hs h
  obtain ⟨-, ⟨i, hi⟩ | rfl⟩ := step_next h
  · exact (exec_ending hi).sound hs.acted
  · exact hs.acted.afterInput.raise (by simp)

/-- Settles O59: the launch state lists nothing, and its parameters are the suggested ones. -/
theorem launchStateIsSound : Obligations.LaunchStateIsSound := by
  unfold Obligations.LaunchStateIsSound
  refine ⟨{ mem := rfl, epcm := rfl, locks := rfl, epcmFrames := rfl, lockFrames := rfl, cfg := ?_, afterExit := ?_ },
    rfl, rfl⟩
  · decide
  · intro h; cases h

end Sys2Proof.Machine
end

section
/-! SUPPORT. RAX[63:32] on entry is no input: each operation from a state with another RAX gives what it gives from
the state, in a state with that RAX. -/

namespace Sys2Proof.Machine

/-- The state with another RAX. -/
def State.withRax (s : State) (r : Word) : State := { s with rax := r }

/-! ### What reads no RAX -/

@[simp] theorem State.withRax_epcFrames (s : State) (r : Word) : (s.withRax r).epcFrames = s.epcFrames := rfl
@[simp] theorem State.withRax_event (s : State) (r : Word) : (s.withRax r).event = s.event := rfl
@[simp] theorem State.withRax_pending (s : State) (r : Word) : (s.withRax r).pending = s.pending := rfl
@[simp] theorem State.withRax_mem (s : State) (r : Word) : (s.withRax r).mem = s.mem := rfl
@[simp] theorem State.withRax_cfg (s : State) (r : Word) : (s.withRax r).cfg = s.cfg := rfl

@[simp] theorem State.withRax_inEpc (s : State) (r p : Word) : (s.withRax r).inEpc p = s.inEpc p := rfl

@[simp] theorem State.withRax_lin (s : State) (r a : Word) (n : Nat) : (s.withRax r).lin a n = s.lin a n := rfl

@[simp] theorem State.withRax_readRegular (s : State) (r : Word) :
    (s.withRax r).readRegular = s.readRegular := rfl

@[simp] theorem State.withRax_readRegularWord (s : State) (r : Word) :
    (s.withRax r).readRegularWord = s.readRegularWord := rfl

@[simp] theorem State.withRax_landed (s : State) (r : Word) : (s.withRax r).landed = s.landed := by
  rw [State.landed, State.landed, State.input, State.input]
  rfl

theorem State.withRax_fetchFrom (s : State) (r : Word) (n : Nat) (a : Word) :
    (s.withRax r).fetchFrom n a = s.fetchFrom n a := by
  induction n generalizing a with
  | zero => rfl
  | succ n ih => rw [State.fetchFrom, State.fetchFrom, ih]; rfl

theorem State.withRax_fetch (s : State) (r : Word) : (s.withRax r).fetch = s.fetch := s.withRax_fetchFrom r _ _

theorem State.withRax_enter (s : State) (r : Word) : (s.withRax r).enter = s.enter := rfl

theorem State.withRax_enterLeaf (s : State) (r : Word) (i : Instr) :
    (s.withRax r).enterLeaf i = s.enterLeaf i := rfl

theorem State.withRax_regOperands (s : State) (r : Word) : (s.withRax r).regOperands = s.regOperands := rfl

theorem State.withRax_linkedOperands (s : State) (r lb : Word) :
    (s.withRax r).linkedOperands lb = s.linkedOperands lb := by
  simp only [State.linkedOperands, State.withRax_readRegularWord, State.withRax_lin, State.withRax_cfg]

theorem State.withRax_acquire (s : State) (r : Word) (i : Instr) (o : RegOperands) :
    (s.withRax r).acquire i o = s.acquire i o := rfl

theorem State.withRax_readHeader (s : State) (r lb lp : Word) :
    (s.withRax r).readHeader lb lp = s.readHeader lb lp := by
  simp only [State.readHeader, State.withRax_readRegularWord, State.withRax_readRegular, State.withRax_cfg]

theorem State.withRax_bindEid (s : State) (r : Word) (i : Instr) (h : MacHeader) (secs : Word) :
    (s.withRax r).bindEid i h secs = s.bindEid i h secs := rfl

theorem State.withRax_check (s : State) (r : Word) (i : Instr) : (s.withRax r).check i = s.check i := by
  simp only [State.check, State.withRax_enterLeaf, State.withRax_regOperands, State.withRax_linkedOperands,
    State.withRax_acquire, State.withRax_readHeader, State.withRax_bindEid, State.withRax_readRegular]

/-! ### What keeps RAX -/

theorem State.withRax_afterInput (s : State) (r : Word) : (s.withRax r).afterInput = s.afterInput.withRax r := by
  unfold State.afterInput
  rw [State.withRax_landed]
  generalize s.landed = m
  rfl

theorem State.withRax_agentAct (s : State) (r : Word) (a : AgentAction) :
    (s.withRax r).agentAct a = (s.agentAct a).withRax r := by
  cases a <;> rw [State.agentAct, State.agentAct, apply_ite (State.withRax · r)] <;> rfl

theorem State.withRax_acted (s : State) (r : Word) : (s.withRax r).acted = s.acted.withRax r := by
  have hfold := List.foldl_hom (State.withRax · r) (g₁ := State.agentAct) (g₂ := State.agentAct) (l := s.pending)
    (init := s) fun s a => s.withRax_agentAct r a
  rw [State.acted, State.withRax_pending, hfold]
  rfl

theorem State.withRax_withMem (s : State) (r : Word) (m : List Host.Cell) :
    (s.withRax r).withMem m = (s.withMem m).withRax r := rfl

/-- A success writes RAX, whatever it was. -/
theorem State.withRax_commit (s : State) (r : Word) (i : Instr) (l : Load) (m : List Host.Cell) :
    (s.withRax r).commit i l m = s.commit i l m := rfl

/-! ### Outcomes that RAX passes through -/

/-- Two outcomes that are one, or that are two next states with RAX as each execution found it: `a` in the first,
`b` in the second. -/
def RaxPassesThrough (a b : Word) (o o' : Host.Outcome State Fault Refusal) : Prop :=
  o' = o ∨ ∃ t, t.rax = a ∧ o = .next t ∧ o' = .next (t.withRax b)

theorem raxPassesThrough_finish (s : State) (r : Word) (k : Stop) :
    RaxPassesThrough s.rax r (s.finish k) ((s.withRax r).finish k) := by
  cases k with
  | gp => exact .inr ⟨_, s.raise_rax _, rfl, rfl⟩
  | pf a e => exact .inr ⟨_, s.raise_rax _, rfl, rfl⟩
  | vmExit v => exact .inr ⟨_, s.exitVm_rax v, rfl, rfl⟩
  | code c => exact .inl rfl
  | refuse r => exact .inl rfl

theorem Load.overwritten_withRax (l : Load) (dec : AesGcmDec) (s : State) (r : Word) :
    l.overwritten dec (s.withRax r) = l.overwritten dec s := rfl

theorem Load.decrypted_withRax (l : Load) (dec : AesGcmDec) (s : State) (r : Word) :
    l.decrypted dec (s.withRax r) = l.decrypted dec s := rfl

theorem raxPassesThrough_load (s : State) (dec : AesGcmDec) (r : Word) (i : Instr) (l : Load) :
    RaxPassesThrough s.rax r (s.load dec i l) ((s.withRax r).load dec i l) := by
  unfold State.load
  simp only [State.withRax_afterInput, State.withRax_mem, State.withRax_readRegular, State.withRax_cfg,
    Load.overwritten_withRax, Load.decrypted_withRax, State.withRax_withMem, State.withRax_commit]
  have hstop := raxPassesThrough_finish (s.afterInput.withMem (l.overwritten dec s s.afterInput.mem)) r
  rw [State.withMem_rax, State.afterInput_rax] at hstop
  split
  · exact hstop _
  · split
    · split
      · exact hstop .gp
      · exact .inl rfl
    · exact hstop _

/-- A stop leaves RAX, a completion writes it, whichever leaf runs. -/
theorem raxPassesThrough_exec (s : State) (r : Word) (i : Instr) :
    RaxPassesThrough s.rax r (exec i s) (exec i (s.withRax r)) := by
  rw [exec_eq_eld, exec_eq_eld, State.eld, State.eld, s.withRax_check]
  cases s.check i with
  | error k =>
    rw [s.withRax_afterInput]
    simpa using raxPassesThrough_finish s.afterInput r k
  | ok l => exact raxPassesThrough_load s _ r i l

theorem raxPassesThrough_unlistedLeaf (s : State) (r : Word) (eax : BitVec 32) :
    RaxPassesThrough s.rax r (s.unlistedLeaf eax) ((s.withRax r).unlistedLeaf eax) := by
  unfold State.unlistedLeaf
  rw [s.withRax_enter, s.withRax_afterInput, s.withRax_cfg]
  cases s.enter with
  | error k => simpa using raxPassesThrough_finish s.afterInput r k
  | ok u =>
    dsimp only
    split
    · simpa using raxPassesThrough_finish s.afterInput r .gp
    · exact .inl rfl

/-- Of RAX the fetch and the decoding see EAX only. -/
theorem raxPassesThrough_runEncls (s : State) {r : Word} (heax : (s.withRax r).eax = s.eax) :
    RaxPassesThrough s.rax r s.runEncls (s.withRax r).runEncls := by
  unfold State.runEncls
  rw [s.withRax_fetch, s.withRax_cfg, heax]
  cases s.fetch with
  | error e => exact .inl rfl
  | ok bytes =>
    dsimp only
    cases decode s.cfg.enclsBytes bytes s.eax with
    | ok d => exact raxPassesThrough_exec s r d.1
    | error e =>
      cases e with
      | notEncls => exact .inl rfl
      | unknownLeaf eax => exact raxPassesThrough_unlistedLeaf s r eax

theorem State.withRax_eax (s : State) (hi : BitVec 32) : (s.withRax (hi ++ s.eax)).eax = s.eax :=
  BitVec.extractLsb'_append_eq_right

theorem raxPassesThrough_step (s : State) (hi : BitVec 32) :
    RaxPassesThrough s.rax (hi ++ s.eax) (step s) (step (s.withRax (hi ++ s.eax))) := by
  unfold step
  rw [s.withRax_event, s.withRax_acted]
  cases s.event with
  | some e => exact .inl rfl
  | none =>
    have heax : (s.acted.withRax (hi ++ s.eax)).eax = s.acted.eax := by
      simpa [State.eax] using s.acted.withRax_eax hi
    simpa using raxPassesThrough_runEncls s.acted heax

/-- Settles O8: what a step answers is the same, or it is a next state that RAX passes through. -/
theorem upperHalfOfRaxIsNoInput : Obligations.UpperHalfOfRaxIsNoInput := by
  unfold Obligations.UpperHalfOfRaxIsNoInput
  intro s hi
  rw [show ({ s with rax := hi ++ s.eax } : State) = s.withRax (hi ++ s.eax) from rfl]
  rcases raxPassesThrough_step s hi with hsame | ⟨t, hrax, ht, ht'⟩
  · rw [hsame]
    cases step s with
    | next t => exact ⟨rfl, .inl rfl⟩
    | fault f => rfl
    | refused r => rfl
  · rw [ht, ht']
    exact ⟨rfl, .inr ⟨hrax, rfl⟩⟩

end Sys2Proof.Machine
end

section
/-! SUPPORT. The MACHEADER byte by byte: each of the four fields is read back at its offset, and the rest is zero. -/

namespace Sys2Proof.Machine

/-- A field covers its own bytes. -/
theorem fieldByte_in (o : Nat) {bs : List Byte} {k : Nat} (hk : k < bs.length) :
    fieldByte o bs (o + k) = some bs[k] := by
  rw [fieldByte, if_pos (by omega), Nat.add_sub_cancel_left, List.getElem?_eq_getElem hk]

/-- A field covers no other byte. -/
theorem fieldByte_out {o : Nat} {bs : List Byte} {i : Nat} (h : i < o ∨ o + bs.length ≤ i) :
    fieldByte o bs i = none := by
  unfold fieldByte
  split
  · exact List.getElem?_eq_none (by omega)
  · rfl

theorem MacHeader.bytes_toList (h : MacHeader) (l : Layout) :
    (h.bytes l).toList = (List.range 128).map (h.byteAt l) := rfl

/-- A byte string that stands in the header at an offset is the slice there. -/
theorem MacHeader.slice_bytes {h : MacHeader} {l : Layout} {o n : Nat} {bs : List Byte} (hn : bs.length = n)
    (ho : o + n ≤ 128) (hb : ∀ k (hk : k < bs.length), h.byteAt l (o + k) = bs[k]) :
    slice (h.bytes l).toList o n = bs := by
  rw [h.bytes_toList, slice]
  apply List.ext_getElem
  · rw [List.length_take, List.length_drop, List.length_map, List.length_range]
    omega
  · intro k _ hk
    simpa using hb k hk

/-- The four fields lie apart (93 U13), in arithmetic. -/
theorem Layout.headerOk_iff (l : Layout) : l.headerOk = true ↔
    (((((l.headerEid.val + 8 ≤ l.headerSecinfo ∨ l.headerSecinfo.val + 64 ≤ l.headerEid) ∧
      (l.headerEid.val + 8 ≤ l.headerRsvd ∨ l.headerRsvd.val + 40 ≤ l.headerEid)) ∧
      (l.headerEid.val + 8 ≤ l.headerLinaddr ∨ l.headerLinaddr.val + 8 ≤ l.headerEid)) ∧
      (l.headerSecinfo.val + 64 ≤ l.headerRsvd ∨ l.headerRsvd.val + 40 ≤ l.headerSecinfo)) ∧
      (l.headerSecinfo.val + 64 ≤ l.headerLinaddr ∨ l.headerLinaddr.val + 8 ≤ l.headerSecinfo)) ∧
      (l.headerRsvd.val + 40 ≤ l.headerLinaddr ∨ l.headerLinaddr.val + 8 ≤ l.headerRsvd) := by
  simp [Layout.headerOk, disjointRanges]

/-! ### The byte at an offset of each field, and elsewhere -/

section byteAt

variable {l : Layout} {h : MacHeader}

theorem MacHeader.byteAt_eid {k : Nat} (hk : k < (wordBytes h.eid).length) :
    h.byteAt l (l.headerEid + k) = (wordBytes h.eid)[k] := by
  rw [MacHeader.byteAt, fieldByte_in _ hk, Option.some_or, Option.getD_some]

theorem MacHeader.byteAt_secinfo (hl : l.headerOk = true) (hsecinfo : h.secinfo.length = 64) {k : Nat}
    (hk : k < h.secinfo.length) : h.byteAt l (l.headerSecinfo + k) = h.secinfo[k] := by
  rw [Layout.headerOk_iff] at hl
  rw [MacHeader.byteAt, fieldByte_out (o := l.headerEid) (by rw [length_wordBytes]; omega), fieldByte_in _ hk,
    Option.none_or, Option.some_or, Option.getD_some]

theorem MacHeader.byteAt_rsvd (hl : l.headerOk = true) (hsecinfo : h.secinfo.length = 64)
    (hrsvd : h.rsvd.length = 40) {k : Nat} (hk : k < h.rsvd.length) :
    h.byteAt l (l.headerRsvd + k) = h.rsvd[k] := by
  rw [Layout.headerOk_iff] at hl
  rw [MacHeader.byteAt, fieldByte_out (o := l.headerEid) (by rw [length_wordBytes]; omega),
    fieldByte_out (o := l.headerSecinfo) (by omega), fieldByte_in _ hk, Option.none_or, Option.none_or,
    Option.some_or, Option.getD_some]

theorem MacHeader.byteAt_linaddr (hl : l.headerOk = true) (hsecinfo : h.secinfo.length = 64)
    (hrsvd : h.rsvd.length = 40) {k : Nat} (hk : k < (wordBytes h.linaddr).length) :
    h.byteAt l (l.headerLinaddr + k) = (wordBytes h.linaddr)[k] := by
  have hk8 := hk
  rw [length_wordBytes] at hk8
  rw [Layout.headerOk_iff] at hl
  rw [MacHeader.byteAt, fieldByte_out (o := l.headerEid) (by rw [length_wordBytes]; omega),
    fieldByte_out (o := l.headerSecinfo) (by omega), fieldByte_out (o := l.headerRsvd) (by omega), fieldByte_in _ hk,
    Option.none_or, Option.none_or, Option.none_or, Option.getD_some]

theorem MacHeader.byteAt_outside {i : Nat}
    (hsecinfo : i < l.headerSecinfo.val ∨ l.headerSecinfo.val + h.secinfo.length ≤ i)
    (hrsvd : i < l.headerRsvd.val ∨ l.headerRsvd.val + h.rsvd.length ≤ i)
    (hlinaddr : i < l.headerLinaddr.val ∨ l.headerLinaddr.val + 8 ≤ i)
    (heid : i < l.headerEid.val ∨ l.headerEid.val + 8 ≤ i) : h.byteAt l i = 0 := by
  rw [MacHeader.byteAt, fieldByte_out (o := l.headerEid) (by rwa [length_wordBytes]), fieldByte_out hsecinfo,
    fieldByte_out hrsvd, fieldByte_out (o := l.headerLinaddr) (by rwa [length_wordBytes])]
  rfl

end byteAt

/-- Settles O32: no field that comes first in the header's byte covers a byte of a later one. -/
theorem headerBytesAreTheFourFields : Obligations.HeaderBytesAreTheFourFields := by
  unfold Obligations.HeaderBytesAreTheFourFields
  intro l h hl hsecinfo hrsvd
  refine ⟨?_, ?_, ?_, ?_, fun k hk hs hr hlin he => ?_⟩
  · exact MacHeader.slice_bytes hsecinfo (by omega) fun _ => MacHeader.byteAt_secinfo hl hsecinfo
  · exact MacHeader.slice_bytes hrsvd (by omega) fun _ => MacHeader.byteAt_rsvd hl hsecinfo hrsvd
  · rw [MacHeader.slice_bytes (length_wordBytes h.linaddr) (by omega) fun _ =>
      MacHeader.byteAt_linaddr hl hsecinfo hrsvd, leWord_wordBytes]
  · rw [MacHeader.slice_bytes (length_wordBytes h.eid) (by omega) fun _ => MacHeader.byteAt_eid, leWord_wordBytes]
  · have hbyte : h.byteAt l k = 0 :=
      MacHeader.byteAt_outside (by rwa [hsecinfo]) (by rwa [hrsvd]) hlin he
    rw [h.bytes_toList, List.getElem?_map, List.getElem?_range hk, Option.map_some, hbyte]

end Sys2Proof.Machine
end

section
/-! SUPPORT. What an execution stores in the EPC: the plain text in the target page, and nothing outside the target
page and the VA slot. -/

namespace Sys2Proof.Machine

/-- ENCLAVECONTEXT is stored for a SECS only, and only its own eight bytes. -/
theorem Load.context_other (l : Load) (c : Config) (m : List Host.Cell) (k : Nat)
    (h : l.header.pt c.layout = c.ptSecs →
      k < c.layout.secsEnclaveContext.val ∨ c.layout.secsEnclaveContext.val + 8 ≤ k) :
    Memory.byte (l.context c m) (l.pc.toNat + k) = Memory.byte m (l.pc.toNat + k) := by
  rw [Load.context]
  split
  · next hpt =>
    have hk := h hpt
    exact Memory.byte_write_out _ _ _ _ (by rw [length_wordBytes]; omega)
  · rfl

/-- A committed load leaves the plain text in the target page, apart from ENCLAVECONTEXT of a SECS. -/
theorem CanLoad.commit_page {s : State} {i : Instr} {v : LoadView} (c : CanLoad s i v) (w : Word) {k : Nat}
    (hk : k < 4096) (hcontext : (v.header s.cfg).pt s.cfg.layout = s.cfg.ptSecs →
      k < s.cfg.layout.secsEnclaveContext.val ∨ s.cfg.layout.secsEnclaveContext.val + 8 ≤ k) :
    Memory.byte (s.afterInput.commit i (v.toLoad s.cfg)
      (Memory.write (v.filled s) v.pd.toNat (wordBytes w))).mem (v.pc.toNat + k) = (v.outputs s).1[k] := by
  have hslot := c.slot_apart
  rw [State.commit_mem, ← v.toLoad_pc s.cfg, Load.context_other _ _ _ _ (by simpa using hcontext), v.toLoad_pc,
    Memory.byte_write_out _ _ _ _ (by rw [length_wordBytes]; omega), v.filled_in s k hk]

/-- Where the target is read in the frame it is written in, the text decrypted is the source page. -/
theorem CanLoad.outputs_oneFrame {s : State} {i : Instr} {v : LoadView} (c : CanLoad s i v) (h : v.rc = v.pc) :
    v.outputs s = Config.aesGcmDec s.crBasePk (counterOf (v.version s)) ((v.header s.cfg).bytes s.cfg.layout) 128
      (pageBytes v.source) 4096 := by
  rw [LoadView.outputs, c.copied_page h]

/-- Settles O43: the state a success commits holds the plain text, and the copy is what was decrypted. -/
theorem successFillsTheTargetPage : Obligations.SuccessFillsTheTargetPage := by
  unfold Obligations.SuccessFillsTheTargetPage
  intro s i v mac h
  exact ⟨_, h.ends, fun k hk hcontext => ⟨h.loads.commit_page _ hk hcontext, h.loads.outputs_oneFrame⟩⟩

/-- Outside the target page and the VA slot of a load an execution leaves what other agents' writes leave. -/
theorem Ending.byte_outside {s t : State} {i : Instr} (h : Ending s i t) {x : Nat}
    (hout : ∀ v, CanLoad s i v → ¬inPage v.pc x ∧ ¬inSlot v.pd x) :
    Memory.byte t.mem x = Memory.byte s.landed x := by
  cases h with
  | fault e => simp
  | vmExit o => simp
  | conflict => simp
  | mismatch v c => simpa using c.filled_out x (hout v c).1
  | usedSlot v c => simpa using c.filled_out x (hout v c).1
  | success v c => exact c.commit_out _ x (hout v c).1 (hout v c).2

/-- Settles O48: the page and the slot a load stores to are those its register operands resolve to, and other agents
write no byte of the EPC. -/
theorem storesStayInTargetPageAndSlot : Obligations.StoresStayInTargetPageAndSlot := by
  unfold Obligations.StoresStayInTargetPageAndSlot
  intro s t i h
  refine ⟨fun o ho x hx hpage hslot => ?_, fun k hk x hx => ?_⟩
  · rw [← s.landed_epc x hx]
    refine (exec_ending h).byte_outside fun v c => ?_
    obtain rfl := Except.ok.inj (c.regOperands.symm.trans ho)
    exact ⟨hpage, hslot⟩
  · rw [← s.landed_epc x hx]
    refine (exec_ending h).byte_outside fun v c => ?_
    cases c.regOperands.symm.trans hk

end Sys2Proof.Machine
end

section
/-! SUPPORT. Addresses and locks: alignment and the canonical test bit by bit, `lin` in each mode, the translation as
any function of page and access kind, and the tests of a lock. -/

namespace Sys2Proof.Machine

/-! ### Alignment -/

/-- A number is divisible by 2^k when its remainder has no bit, and the bits of that are its low k bits. -/
theorem alignedTo_iff_lowBits (k : Nat) (a : Word) : alignedTo k a = true ↔ ∀ j < k, a.getLsbD j = false := by
  rw [alignedTo_iff]
  constructor
  · intro h j hj
    have hbit := Nat.testBit_mod_two_pow a.toNat k j
    rw [h, Nat.zero_testBit, decide_eq_true hj, Bool.true_and] at hbit
    exact hbit.symm
  · intro h
    refine Nat.zero_of_testBit_eq_false fun j => ?_
    rw [Nat.testBit_mod_two_pow]
    by_cases hj : j < k
    · rw [show a.toNat.testBit j = false from h j hj, Bool.and_false]
    · rw [decide_eq_false hj, Bool.false_and]

/-- Settles O15, for any k. -/
theorem alignmentIsLowBitsZero : Obligations.AlignmentIsLowBitsZero := by
  unfold Obligations.AlignmentIsLowBitsZero
  exact fun k a _ => alignedTo_iff_lowBits k a

/-! ### Linear addresses -/

/-- The two words whose bits are all equal. -/
theorem eq_zero_or_allOnes_iff {n : Nat} (x : BitVec n) :
    x = 0 ∨ x = BitVec.allOnes n ↔ ∃ b, ∀ j < n, x.getLsbD j = b := by
  constructor
  · rintro (rfl | rfl)
    · exact ⟨false, by simp⟩
    · exact ⟨true, by simp⟩
  · rintro ⟨b, h⟩
    cases b with
    | false => exact .inl (BitVec.eq_of_getLsbD_eq fun j hj => by simp [h j hj])
    | true => exact .inr (BitVec.eq_of_getLsbD_eq fun j hj => by simp [h j hj, hj])

/-- An address is canonical when bits 63 to 48 are copies of bit 47 (K12). -/
theorem canonical_iff (a : Word) :
    canonical a = true ↔ ∀ k, 47 ≤ k → k < 64 → a.getLsbD k = a.getLsbD 47 := by
  have hbit : ∀ j < 17, (a.extractLsb' 47 17).getLsbD j = a.getLsbD (47 + j) := fun j hj => by
    rw [BitVec.getLsbD_extractLsb', decide_eq_true hj, Bool.true_and]
  rw [canonical, Bool.or_eq_true, beq_iff_eq, beq_iff_eq, eq_zero_or_allOnes_iff]
  constructor
  · rintro ⟨b, h⟩ k hk hk'
    have hat : ∀ j < 17, a.getLsbD (47 + j) = b := fun j hj => (hbit j hj).symm.trans (h j hj)
    have hbitk := hat (k - 47) (by omega)
    rw [Nat.add_sub_cancel' hk] at hbitk
    exact hbitk.trans (hat 0 (by omega)).symm
  · exact fun h => ⟨a.getLsbD 47, fun j hj => (hbit j hj).trans (h _ (by omega) (by omega))⟩

/-- In 64-bit mode `lin` is the canonical test, and changes nothing. -/
theorem State.lin_mode64 {s : State} (h : s.mode = .mode64) (a : Word) (size : Nat) :
    s.lin a size = if canonical a = true then .ok a else .error .gp := by
  unfold State.lin
  rw [if_pos h]
  cases canonical a <;> rfl

/-- Outside 64-bit mode `lin` is the DS limit test over the structure, and adds DS.base in 32 bits. -/
theorem State.lin_otherMode {s : State} (h : s.mode ≠ .mode64) (a : Word) {size : Nat} (hsize : 0 < size) :
    s.lin a size = if s.ds.usable = true ∧ a.toNat % 2 ^ 32 + size ≤ s.ds.limit.toNat + 1 then
      .ok ((s.ds.base + a.extractLsb' 0 32).zeroExtend 64) else .error .gp := by
  have htest : (s.ds.usable && decide ((a.extractLsb' 0 32).toNat + size - 1 ≤ s.ds.limit.toNat)) =
      decide (s.ds.usable = true ∧ a.toNat % 2 ^ 32 + size ≤ s.ds.limit.toNat + 1) := by
    rw [Bool.eq_iff_iff, BitVec.extractLsb'_toNat, Nat.shiftRight_zero, Bool.and_eq_true, decide_eq_true_eq,
      decide_eq_true_eq]
    exact and_congr_right fun _ => by omega
  unfold State.lin
  rw [if_neg h]
  dsimp only
  rw [htest]
  split
  · next hstop =>
    obtain ⟨hoff, rfl⟩ := require_error.mp hstop
    rw [if_neg (of_decide_eq_false hoff)]
  · next hpass => rw [if_pos (of_decide_eq_true (require_ok.mp hpass))]

/-- Settles O12: each mode has its test. -/
theorem linearAddressFollowsTheMode : Obligations.LinearAddressFollowsTheMode := by
  unfold Obligations.LinearAddressFollowsTheMode
  intro s a size
  refine ⟨fun hmode => ?_, fun hmode hsize => ?_⟩
  · rw [State.lin_mode64 hmode]
    exact ⟨fun h => if_pos ((canonical_iff a).mpr h),
      fun k hk hk' hne => if_neg fun h => hne ((canonical_iff a).mp h k hk hk')⟩
  · rw [State.lin_otherMode hmode a hsize]
    refine ⟨fun husable hlimit => ⟨_, if_pos ⟨husable, hlimit⟩, ?_⟩, fun hout => if_neg ?_⟩
    · rw [BitVec.toNat_setWidth, BitVec.toNat_add, BitVec.extractLsb'_toNat, Nat.shiftRight_zero]
      omega
    · rintro ⟨husable, hlimit⟩
      rcases hout with hunusable | hbeyond
      · exact Bool.false_ne_true (hunusable.symm.trans husable)
      · omega

/-! ### The translation and the EPC -/

theorem State.inEpc_iff (s : State) (p : Word) : s.inEpc p = true ↔ pageNo p ∈ s.epcFrames := by
  rw [State.inEpc, List.contains_iff_mem]

/-- A translation keeps bits 11 to 0. -/
theorem State.translate_lowBits {s : State} {a p : Word} {k : Access} (h : s.translate a k = some p) :
    p.extractLsb' 0 12 = a.extractLsb' 0 12 := by
  apply BitVec.eq_of_toNat_eq
  rw [toNat_offset, toNat_offset, State.translate_offset h]

/-- All addresses of a page are translated, for one access kind, to one frame. -/
theorem State.translate_samePage {s : State} {a b p : Word} {k : Access} (h : s.translate a k = some p)
    (hb : pageNo b = pageNo a) : s.translate b k = some (pageNo p ++ b.extractLsb' 0 12) := by
  obtain ⟨e, f, he, hf, rfl⟩ := State.translate_some.mp h
  rw [pageNo_append]
  exact State.translate_some.mpr ⟨e, f, by rw [hb]; exact he, hf, rfl⟩

/-- The state whose translation gives one page a frame or none for each access kind. -/
def State.withPage (s : State) (e : PageEntry) : State := { s with pageMap := e :: s.pageMap }

theorem State.translate_withPage_same (s : State) (e : PageEntry) {a : Word} (k : Access) (h : e.page = pageNo a) :
    (s.withPage e).translate a k = (e.frame k).map (fun f => f ++ a.extractLsb' 0 12) := by
  rw [State.translate, State.withPage, List.find?_cons_of_pos (by simpa using h)]

theorem State.translate_withPage_other (s : State) (e : PageEntry) {a : Word} (k : Access) (h : e.page ≠ pageNo a) :
    (s.withPage e).translate a k = s.translate a k := by
  rw [State.translate, State.withPage, List.find?_cons_of_neg (by simpa using h)]
  rfl

/-- Settles O14: residence is the two translations and their frames, and an entry put before the others
decides for its page. -/
theorem epcResidenceIsTranslationIntoTheEpc : Obligations.EpcResidenceIsTranslationIntoTheEpc := by
  unfold Obligations.EpcResidenceIsTranslationIntoTheEpc
  intro s a r w
  refine ⟨?_, fun k p h => ⟨State.translate_lowBits h, fun b => State.translate_samePage h⟩, fun rf wf => ?_⟩
  · rw [State.resolveEpc_some, State.inEpc_iff, State.inEpc_iff]
  · let e : PageEntry := { page := pageNo a, readFrame := rf, writeFrame := wf }
    exact ⟨e :: s.pageMap, s.translate_withPage_same e .read rfl, s.translate_withPage_same e .write rfl,
      fun b k hb => s.translate_withPage_other e k (Ne.symm hb)⟩

/-! ### Locks -/

theorem PageLock.blocksExclusive_iff (l : PageLock) :
    l.blocksExclusive = true ↔ l.exclusive = true ∨ 0 < l.shared := by
  rw [PageLock.blocksExclusive, Bool.or_eq_true, decide_eq_true_eq]

/-- Settles O28: each test is its draw or what the lock of its page blocks. -/
theorem lockRecordDecidesConflicts : Obligations.LockRecordDecidesConflicts := by
  unfold Obligations.LockRecordDecidesConflicts
  intro s p
  refine ⟨?_, ?_, ?_⟩
  · rw [State.targetConflict, Bool.or_eq_true, PageLock.blocksExclusive_iff]
  · rw [State.vaConflict, Bool.or_eq_true, PageLock.blocksShared]
  · rw [State.secsConflict, Bool.or_eq_true, PageLock.blocksShared]

end Sys2Proof.Machine
end

section
/-! SUPPORT. The encoding: what decodes to a leaf, what RAX selects, and the rows of the opcode table
(30_encoding.md R90 to R99). -/

namespace Sys2Proof

/-- EAX names a leaf exactly when it is the leaf's number. -/
theorem leafOf_eq_some_iff {eax : BitVec 32} {i : Instr} : leafOf eax = some i ↔ eax = encode i := by
  refine ⟨Laws.Encoding.leafOf_some eax i, fun h => ?_⟩
  subst h
  cases i <;> rfl

theorem decode_eq_ok_iff {enclsBytes bytes rest : List Byte} {eax : BitVec 32} {i : Instr} :
    decode enclsBytes bytes eax = .ok (i, rest) ↔ eax = encode i ∧ bytes = enclsBytes ++ rest := by
  constructor
  · intro h
    unfold decode at h
    split at h
    · next hbegins =>
      obtain ⟨tail, rfl⟩ := List.isPrefixOf_iff_prefix.mp hbegins
      split at h
      · next j hj =>
        rw [List.drop_left] at h
        cases h
        exact ⟨leafOf_eq_some_iff.mp hj, rfl⟩
      · cases h
    · cases h
  · rintro ⟨heax, rfl⟩
    exact Laws.Encoding.decode_append _ _ _ _ (leafOf_eq_some_iff.mpr heax)

/-- Settles O1: bytes that begin with ENCLS_BYTES split in one way, and the leaf table is the encoder read backwards. -/
theorem decodesExactlyTheEncodedLeaf : Obligations.DecodesExactlyTheEncodedLeaf := by
  unfold Obligations.DecodesExactlyTheEncodedLeaf
  intro enclsBytes bytes rest eax i
  exact decode_eq_ok_iff

/-- The 32 bits of a number of EAX, taken from the opcode table, are that number. -/
theorem tableSelector_toNat (eax : BitVec 32) : tableSelector 32 eax.toNat = eax := by
  rw [tableSelector, Nat.mod_eq_of_lt eax.isLt, BitVec.ofNat_toNat, BitVec.setWidth_eq]

/-- The leaf table of 30_encoding.md R93, a row per leaf. -/
theorem eq_encode_iff (eax : BitVec 32) (i : Instr) : eax = encode i ↔
    (i = .eldb ∧ eax = 0x07) ∨ (i = .eldu ∧ eax = 0x08) ∨
    (i = .eldbc ∧ eax = 0x12) ∨ (i = .elduc ∧ eax = 0x13) := by
  cases i <;> simp [encode]

theorem Instr.isBase_iff (i : Instr) : i.isBase = true ↔ i = .eldb ∨ i = .eldu := by
  cases i <;> decide

/-- IsBase on EAX, with its complement (30_encoding.md R94). -/
theorem Instr.isBase_encode (i : Instr) : (i.isBase = true ↔ encode i = 0x07 ∨ encode i = 0x08) ∧
    (i.isBase = false ↔ encode i = 0x12 ∨ encode i = 0x13) := by
  cases i <;> decide

/-- IsBlocking on EAX, with its complement (30_encoding.md R94). -/
theorem Instr.isBlocking_encode (i : Instr) : (i.isBlocking = true ↔ encode i = 0x07 ∨ encode i = 0x12) ∧
    (i.isBlocking = false ↔ encode i = 0x08 ∨ encode i = 0x13) := by
  cases i <;> decide

end Sys2Proof

namespace Sys2Proof.Machine

theorem State.eax_of_rax_append {s : State} {hi eax : BitVec 32} (h : s.rax = hi ++ eax) : s.eax = eax := by
  rw [State.eax, h]
  exact BitVec.extractLsb'_append_eq_right

/-- The feature parameter of a leaf, by its name (30_encoding.md R93). -/
theorem hasLeaf_eq (c : Config) (i : Instr) :
    hasLeaf c i = if i = .eldb ∨ i = .eldu then c.hasSgx1 else c.hasEldbcElduc := by
  simp only [hasLeaf, i.isBase_iff]

/-- Settles O2: in an admitted launch at CPL 0 the feature parameter is all that entry still asks for. -/
theorem opcodeTableWordsDecode : Obligations.OpcodeTableWordsDecode := by
  unfold Obligations.OpcodeTableWordsDecode
  refine ⟨by decide, by decide, by decide, by decide, by decide, by decide, fun s i henabled hcpl hmode => ?_⟩
  have hadmitted : s.admitted = .ok () := State.admitted_ok.mpr ⟨henabled, hmode⟩
  rw [State.enterLeaf_ok, ← hasLeaf_eq]
  exact ⟨fun ⟨_, _, hleaf⟩ => hleaf, fun hleaf => ⟨hadmitted, hcpl, hleaf⟩⟩

end Sys2Proof.Machine
end

section
/-! SUPPORT. The leaves compared: the checks of a leaf depend on it by IsBase alone, its load by IsBlocking alone
(30_encoding.md R94). -/

namespace Sys2Proof.Machine

/-! ### Up to the copy: IsBase -/

section isBase

variable {i j : Instr} (hbase : i.isBase = j.isBase)

include hbase

theorem State.enterLeaf_congr (s : State) : s.enterLeaf i = s.enterLeaf j := by
  simp only [State.enterLeaf, hasLeaf, hbase]

theorem State.conflictStop_congr (s : State) : s.conflictStop i = s.conflictStop j := by
  simp only [State.conflictStop, hbase]

theorem State.exitFields_congr (s : State) (lc pc : Word) : s.exitFields i lc pc = s.exitFields j lc pc := by
  simp only [State.exitFields, State.exitQualification, hbase]

theorem State.acquire_congr (s : State) (o : RegOperands) : s.acquire i o = s.acquire j o := by
  simp only [State.acquire, State.targetConflictStop, s.exitFields_congr hbase, s.conflictStop_congr hbase]

theorem State.bindEid_congr (s : State) (h : MacHeader) (secs : Word) : s.bindEid i h secs = s.bindEid j h secs := by
  simp only [State.bindEid, State.parentEid, s.conflictStop_congr hbase]

theorem State.check_congr (s : State) : s.check i = s.check j := by
  simp only [State.check, s.enterLeaf_congr hbase, s.acquire_congr hbase, s.bindEid_congr hbase]

end isBase

/-! ### From the copy on: IsBlocking -/

section isBlocking

variable {i j : Instr} (hblocking : i.isBlocking = j.isBlocking)

include hblocking

theorem MacHeader.entry_congr (h : MacHeader) (c : Config) : h.entry c i = h.entry c j := by
  simp only [MacHeader.entry, blockedBit, hblocking]

theorem State.commit_congr (s : State) (l : Load) (m : List Host.Cell) : s.commit i l m = s.commit j l m := by
  simp only [State.commit, l.header.entry_congr hblocking]

theorem State.load_congr (s : State) (dec : AesGcmDec) (l : Load) : s.load dec i l = s.load dec j l := by
  simp only [State.load, State.commit_congr hblocking]

end isBlocking

/-! ### A leaf is its checks and then its load -/

theorem exec_of_check_ok {s : State} {i : Instr} {l : Load} (h : s.check i = .ok l) :
    exec i s = s.load Config.aesGcmDec i l := by
  rw [exec_eq_eld, State.eld, h]

/-- Settles O3: every stage up to the copy reads IsBase alone of the leaf, every stage from it on IsBlocking
alone. -/
theorem leavesDifferByTwoPredicates : Obligations.LeavesDifferByTwoPredicates := by
  unfold Obligations.LeavesDifferByTwoPredicates
  intro i
  obtain ⟨hbase, hcoded⟩ := i.isBase_encode
  obtain ⟨hblocking, hunblocking⟩ := i.isBlocking_encode
  exact ⟨hbase, hcoded, hblocking, hunblocking, fun s => ⟨fun j h => s.check_congr h,
    fun j l h => s.load_congr h _ l, fun k => exec_of_check_error, fun l => exec_of_check_ok⟩⟩

end Sys2Proof.Machine
end

section
/-! SUPPORT. Entry: the launches that are refused, and what a leaf whose feature is absent ends in
(30_encoding.md R97, R98). -/

namespace Sys2Proof.Machine

theorem State.admitted_of_not_enabled {s : State} (h : s.cfg.enclsEnabled = false) :
    s.admitted = .error (.refuse .enclsNotEnabled) := by
  rw [State.admitted, h]
  rfl

theorem State.admitted_of_unsupportedMode {s : State} (henabled : s.cfg.enclsEnabled = true)
    (hmode : s.mode = .realAddress ∨ s.mode = .virtual8086) : s.admitted = .error (.refuse .unsupportedMode) := by
  rw [State.admitted, henabled]
  rcases hmode with hmode | hmode
  · rw [hmode]; rfl
  · rw [hmode]; rfl

theorem State.admitted_of_expandDown {s : State} (henabled : s.cfg.enclsEnabled = true)
    (hmode : s.mode = .protectedMode) (hds : s.ds.expandDown = true) :
    s.admitted = .error (.refuse .expandDownDs) := by
  rw [State.admitted, henabled, hmode, hds]
  rfl

/-- Past the launch, entry is the privilege test. -/
theorem State.enter_of_admitted {s : State} (h : s.admitted = .ok ()) : s.enter = require (s.cpl == 0) .gp := by
  rw [State.enter, h]

theorem State.enter_of_admitted_error {s : State} {k : Stop} (h : s.admitted = .error k) : s.enter = .error k := by
  rw [State.enter, h]

theorem State.enterLeaf_of_enter_error {s : State} {k : Stop} (i : Instr) (h : s.enter = .error k) :
    s.enterLeaf i = .error k := by
  rw [State.enterLeaf, h]

/-- Past entry, the feature test is left. -/
theorem State.enterLeaf_of_absent {s : State} {i : Instr} (h : s.enter = .ok ()) (habsent : hasLeaf s.cfg i = false) :
    s.enterLeaf i = .error (if s.cfg.unknownLeafGp then .gp else .refuse .featureAbsent) := by
  rw [State.enterLeaf, h, habsent]
  rfl

/-- A leaf that is not entered ends there. -/
theorem exec_of_enterLeaf_error {s : State} {i : Instr} {k : Stop} (h : s.enterLeaf i = .error k) :
    exec i s = s.afterInput.finish k :=
  exec_of_check_error (by rw [State.check, h, error_bind])

/-- The launch is tested before everything else, the privilege level included. -/
theorem exec_of_admitted_error {s : State} (i : Instr) {k : Stop} (h : s.admitted = .error k) :
    exec i s = s.afterInput.finish k :=
  exec_of_enterLeaf_error (State.enterLeaf_of_enter_error i (State.enter_of_admitted_error h))

/-- Settles O10: each of these launches is refused by the first test of every leaf. -/
theorem unadmittedLaunchIsRefused : Obligations.UnadmittedLaunchIsRefused := by
  unfold Obligations.UnadmittedLaunchIsRefused
  intro s i
  exact ⟨fun h => exec_of_admitted_error i (State.admitted_of_not_enabled h),
    fun he hm => exec_of_admitted_error i (State.admitted_of_unsupportedMode he hm),
    fun he hm hds => exec_of_admitted_error i (State.admitted_of_expandDown he hm hds)⟩

/-- Settles O11: past the privilege test the feature test stops as the switch says. -/
theorem absentFeatureIsRefusedOrTakesGp : Obligations.AbsentFeatureIsRefusedOrTakesGp := by
  unfold Obligations.AbsentFeatureIsRefusedOrTakesGp
  intro s i hadmitted hcpl habsent
  have hstop := exec_of_enterLeaf_error
    (State.enterLeaf_of_absent (State.enter_ok.mpr ⟨hadmitted, hcpl⟩) habsent)
  refine ⟨fun hswitch => ?_, fun hswitch => ?_⟩
  · rw [hstop, hswitch]; rfl
  · rw [hstop, hswitch]; rfl

end Sys2Proof.Machine
end

section
/-! SUPPORT. The step: the leaf that is decoded is the one that runs, and what an EAX that names none ends in
(30_encoding.md R92, R96). -/

namespace Sys2Proof.Machine

@[simp] theorem State.acted_eax (s : State) : s.acted.eax = s.eax := by
  rw [State.eax, State.eax, State.acted_rax]

theorem step_of_no_event {s : State} (h : s.event = none) : step s = s.acted.runEncls := by
  rw [step, h]

theorem State.runEncls_of_decode {s : State} {bytes rest : List Byte} {i : Instr} (hfetch : s.fetch = .ok bytes)
    (hdecode : decode s.cfg.enclsBytes bytes s.eax = .ok (i, rest)) : s.runEncls = exec i s := by
  simp only [State.runEncls, hfetch, hdecode]

theorem State.runEncls_of_unknownLeaf {s : State} {bytes : List Byte} {eax : BitVec 32}
    (hfetch : s.fetch = .ok bytes) (hdecode : decode s.cfg.enclsBytes bytes s.eax = .error (.unknownLeaf eax)) :
    s.runEncls = s.unlistedLeaf eax := by
  simp only [State.runEncls, hfetch, hdecode, State.undecoded]

/-- Settles O4: the actions of other agents change neither EAX nor ENCLS_BYTES, so what decodes before them
decodes after them. -/
theorem stepRunsTheDecodedLeaf : Obligations.StepRunsTheDecodedLeaf := by
  unfold Obligations.StepRunsTheDecodedLeaf
  intro s bytes rest i hevent hfetch hdecode
  have hstep : step s = exec i s.acted := by
    rw [step_of_no_event hevent]
    exact State.runEncls_of_decode hfetch (by rwa [State.acted_cfg, State.acted_eax])
  refine ⟨hstep, fun hpending => ?_⟩
  rw [hstep, s.acted_of_pending_nil hpending]

/-- Settles O13: EAX is the lower half of RAX, and it decodes to the leaf whose row of the table it is. -/
theorem eaxAloneSelectsTheLeaf : Obligations.EaxAloneSelectsTheLeaf := by
  unfold Obligations.EaxAloneSelectsTheLeaf
  intro s hi eax i rest hrax
  refine ⟨?_, State.runEncls_of_decode⟩
  rw [State.eax_of_rax_append hrax, decode_eq_ok_iff, ← eq_encode_iff]
  exact and_iff_left rfl

/-! ### An EAX that names no leaf -/

/-- At CPL 0 the switch UNKNOWN_LEAF_GP decides. -/
theorem State.unlistedLeaf_of_enter {s : State} (eax : BitVec 32) (h : s.enter = .ok ()) : s.unlistedLeaf eax =
    if s.cfg.unknownLeafGp then .next (s.afterInput.raise .gp) else .refused (.unknownLeaf eax) := by
  rw [State.unlistedLeaf, h]
  rfl

theorem State.unlistedLeaf_of_enter_error {s : State} {k : Stop} (eax : BitVec 32) (h : s.enter = .error k) :
    s.unlistedLeaf eax = s.afterInput.finish k := by
  rw [State.unlistedLeaf, h]

/-- Settles O6: the privilege test comes first, then the switch. -/
theorem unlistedLeafIsRefusedOrTakesGp : Obligations.UnlistedLeafIsRefusedOrTakesGp := by
  unfold Obligations.UnlistedLeafIsRefusedOrTakesGp
  intro s bytes hevent hpending hfetch hdecode hadmitted
  have hstep : step s = s.unlistedLeaf s.eax := by
    rw [step_of_no_event hevent, s.acted_of_pending_nil hpending, State.runEncls_of_unknownLeaf hfetch hdecode]
  refine ⟨fun hcpl hswitch => ?_, fun hcpl hswitch => ?_, fun hcpl => ?_⟩
  · rw [hstep, State.unlistedLeaf_of_enter _ (State.enter_ok.mpr ⟨hadmitted, hcpl⟩), hswitch]; rfl
  · rw [hstep, State.unlistedLeaf_of_enter _ (State.enter_ok.mpr ⟨hadmitted, hcpl⟩), hswitch]; rfl
  · have henter : s.enter = .error .gp := by
      rw [State.enter_of_admitted hadmitted, beq_eq_false_iff_ne.mpr hcpl, require_false]
    rw [hstep, State.unlistedLeaf_of_enter_error _ henter]; rfl

/-! ### A leaf placed in the launch state -/

theorem State.placeLeaf_eax (s : State) (selector : BitVec 32) : (s.placeLeaf selector).eax = selector :=
  State.eax_of_rax_append rfl

/-- The selector is placed in RAX alone, which the fetch does not read. -/
theorem State.placeLeaf_fetch (s : State) (selector : BitVec 32) :
    (s.placeLeaf selector).fetch = (s.placeLeaf 0).fetch :=
  (s.placeLeaf 0).withRax_fetch (s.placeLeaf selector).rax

/-- In the launch state nothing is mapped: the page of RIP is mapped to frame 0, and the bytes written there are
those fetched. -/
theorem reset_placeLeaf_fetch (selector : BitVec 32) :
    (State.reset.placeLeaf selector).fetch = .ok Config.suggested.enclsBytes := by
  rw [State.placeLeaf_fetch]
  decide

theorem reset_placeLeaf_cfg (selector : BitVec 32) : (State.reset.placeLeaf selector).cfg = Config.suggested := rfl

/-- Settles O7: the bytes placed are the bytes fetched, and EAX is the number of the leaf. -/
theorem launchRunsAPlacedLeafFirst : Obligations.LaunchRunsAPlacedLeafFirst := by
  unfold Obligations.LaunchRunsAPlacedLeafFirst
  intro i
  rw [State.withFetchWord, tableSelector_toNat]
  have hfetch := reset_placeLeaf_fetch (encode i)
  have heax := State.reset.placeLeaf_eax (encode i)
  refine ⟨?_, heax, hfetch⟩
  rw [step_of_no_event rfl, State.acted_of_pending_nil _ rfl]
  refine State.runEncls_of_decode (rest := []) hfetch (decode_eq_ok_iff.mpr ⟨heax, ?_⟩)
  rw [reset_placeLeaf_cfg, List.append_nil]

end Sys2Proof.Machine
end

section
/-! SUPPORT. Where the checks before the copy stop: for each stage of the flow the operands it refuses, and that an
execution whose first stop is there ends with it (40_eld_leaves.md R116 to R133, R148). -/

namespace Sys2Proof.Machine

/-! ### A stop at a stage ends the execution -/

section stages

variable {s : State} {i : Instr} {o : RegOperands} {p : LinkedOperands} {h h' : MacHeader} {k : Stop}

/-- Past S0, a stop at S1 to S4 ends the execution. -/
theorem exec_of_regOperands_error (henter : s.enterLeaf i = .ok ()) (hregs : s.regOperands = .error k) :
    exec i s = s.afterInput.finish k :=
  exec_of_check_error (by simp [State.check, henter, hregs])

/-- Past S4, a stop at S5 or S6 ends the execution. -/
theorem exec_of_linkedOperands_error (henter : s.enterLeaf i = .ok ()) (hregs : s.regOperands = .ok o)
    (hlinked : s.linkedOperands o.lb = .error k) : exec i s = s.afterInput.finish k :=
  exec_of_check_error (by simp [State.check, henter, hregs, hlinked])

/-- Past S6, a stop at S7 to S9 ends the execution. -/
theorem exec_of_acquire_error (henter : s.enterLeaf i = .ok ()) (hregs : s.regOperands = .ok o)
    (hlinked : s.linkedOperands o.lb = .ok p) (hacquire : s.acquire i o = .error k) :
    exec i s = s.afterInput.finish k :=
  exec_of_check_error (by simp [State.check, henter, hregs, hlinked, hacquire])

/-- Past S13, a stop at the read of the source page ends the execution. -/
theorem exec_of_source_error (henter : s.enterLeaf i = .ok ()) (hregs : s.regOperands = .ok o)
    (hlinked : s.linkedOperands o.lb = .ok p) (hacquire : s.acquire i o = .ok ())
    (hheader : s.readHeader o.lb p.lp = .ok h) (hbind : s.bindEid i h p.secs = .ok h')
    (hsource : s.readRegular 7 p.ls 4096 = .error k) : exec i s = s.afterInput.finish k :=
  exec_of_check_error (by simp [State.check, henter, hregs, hlinked, hacquire, hheader, hbind, hsource])

end stages

/-! ### S0 -/

/-- Past the launch, another CPL than 0 stops entry. -/
theorem State.enter_of_cpl_ne_zero {s : State} (hadmitted : s.admitted = .ok ()) (hcpl : s.cpl ≠ 0) :
    s.enter = .error .gp := by
  rw [State.enter_of_admitted hadmitted, beq_eq_false_iff_ne.mpr hcpl, require_false]

/-- Settles O9: the privilege test is the first after the launch. -/
theorem otherPrivilegeLevelsTakeGp : Obligations.OtherPrivilegeLevelsTakeGp := by
  unfold Obligations.OtherPrivilegeLevelsTakeGp
  intro s i hadmitted hcpl
  exact exec_of_enterLeaf_error
    (State.enterLeaf_of_enter_error i (State.enter_of_cpl_ne_zero hadmitted hcpl))

/-! ### S1 to S4: the register operands -/

/-- Segmentation and the canonical test give an address or stop with `#GP(0)`. -/
theorem State.lin_gp_or_ok (s : State) (a : Word) (n : Nat) : s.lin a n = .error .gp ∨ ∃ l, s.lin a n = .ok l := by
  cases h : s.lin a n with
  | error k => exact .inl (by rw [State.lin_error h])
  | ok l => exact .inr ⟨l, rfl⟩

/-- An address that paging does not translate for both access kinds into the EPC is not resident. -/
theorem State.resolveEpc_eq_none {s : State} {a : Word} (h : s.translate a .read = none ∨
    s.translate a .write = none ∨ ∃ k p, s.translate a k = some p ∧ s.inEpc p = false) :
    s.resolveEpc a = none := by
  refine Option.eq_none_iff_forall_ne_some.mpr fun c hc => ?_
  obtain ⟨hread, hwrite, hinRead, hinWrite⟩ := State.resolveEpc_some.mp hc
  rcases h with hnone | hnone | ⟨k, p, hp, hout⟩
  · cases hread.symm.trans hnone
  · cases hwrite.symm.trans hnone
  · cases k with
    | read =>
      cases hread.symm.trans hp
      exact Bool.false_ne_true (hout.symm.trans hinRead)
    | write =>
      cases hwrite.symm.trans hp
      exact Bool.false_ne_true (hout.symm.trans hinWrite)

/-- Two addresses, of which one is refused or misaligned: `#GP(0)`, whatever comes after. -/
theorem State.lin_pair_of_misaligned {s : State} {β : Type} {a b : Word} {n m k j : Nat}
    (h : ∀ la lb, s.lin a n = .ok la → s.lin b m = .ok lb → alignedTo k la = false ∨ alignedTo j lb = false)
    (rest : Word → Word → Except Stop β) :
    (do let la ← s.lin a n
        let lb ← s.lin b m
        require (alignedTo k la && alignedTo j lb) .gp
        rest la lb) = .error .gp := by
  rcases s.lin_gp_or_ok a n with ha | ⟨la, ha⟩
  · rw [ha, error_bind]
  rcases s.lin_gp_or_ok b m with hb | ⟨lb, hb⟩
  · rw [ha, hb, ok_bind, error_bind]
  · rw [ha, hb, ok_bind, ok_bind, Bool.and_eq_false_iff.mpr (h la lb ha hb), require_false, error_bind]

/-- S1: PAGEINFO or the target refused or misaligned. -/
theorem State.regOperands_of_misaligned {s : State} (h : ∀ lb lc, s.lin s.rbx 32 = .ok lb →
    s.lin s.rcx 4096 = .ok lc → alignedTo 5 lb = false ∨ alignedTo 12 lc = false) :
    s.regOperands = .error .gp :=
  State.lin_pair_of_misaligned h _

section pastS1

variable {s : State} {lb lc : Word} (hb : s.lin s.rbx 32 = .ok lb) (hc : s.lin s.rcx 4096 = .ok lc)
  (hab : alignedTo 5 lb = true) (hac : alignedTo 12 lc = true)

include hb hc hab hac

/-- S2: the target not resident, whatever RDX holds. -/
theorem State.regOperands_of_target_absent (habsent : s.resolveEpc lc = none) :
    s.regOperands = .error (s.pageFault lc) := by
  simp [State.regOperands, hb, hc, hab, hac, habsent]

/-- S3: the slot refused or misaligned, the target resident. -/
theorem State.regOperands_of_misaligned_slot {c : EpcAddress} (hresident : s.resolveEpc lc = some c)
    (hslot : ∀ ld, s.lin s.rdx 8 = .ok ld → alignedTo 3 ld = false) : s.regOperands = .error .gp := by
  rcases s.lin_gp_or_ok s.rdx 8 with hd | ⟨ld, hd⟩
  · simp [State.regOperands, hb, hc, hab, hac, hresident, hd]
  · simp [State.regOperands, hb, hc, hab, hac, hresident, hd, hslot ld hd]

/-- S4: the slot not resident. -/
theorem State.regOperands_of_slot_absent {c : EpcAddress} {ld : Word} (hresident : s.resolveEpc lc = some c)
    (hd : s.lin s.rdx 8 = .ok ld) (had : alignedTo 3 ld = true) (habsent : s.resolveEpc ld = none) :
    s.regOperands = .error (s.pageFault ld) := by
  simp [State.regOperands, hb, hc, hab, hac, hresident, hd, had, habsent]

end pastS1

/-- Settles O16: S1 stops. -/
theorem misalignedPageinfoOrTargetTakesGp : Obligations.MisalignedPageinfoOrTargetTakesGp := by
  unfold Obligations.MisalignedPageinfoOrTargetTakesGp
  intro s i henter h
  exact exec_of_regOperands_error henter (State.regOperands_of_misaligned h)

/-- Settles O17: S2 stops, before RDX is looked at. -/
theorem targetOutsideTheEpcFaults : Obligations.TargetOutsideTheEpcFaults := by
  unfold Obligations.TargetOutsideTheEpcFaults
  intro s i lb lc henter hb hc hab hac h
  exact exec_of_regOperands_error henter
    (State.regOperands_of_target_absent hb hc hab hac (State.resolveEpc_eq_none h))

/-- Settles O18: S2 comes before S3. -/
theorem misalignedSlotTakesGp : Obligations.MisalignedSlotTakesGp := by
  unfold Obligations.MisalignedSlotTakesGp
  intro s i lb lc henter hb hc hab hac hslot
  exact ⟨fun c hresident => exec_of_regOperands_error henter
      (State.regOperands_of_misaligned_slot hb hc hab hac hresident hslot),
    fun habsent => exec_of_regOperands_error henter
      (State.regOperands_of_target_absent hb hc hab hac habsent)⟩

/-- Settles O19: S4 stops at the address of the slot. -/
theorem slotOutsideTheEpcFaults : Obligations.SlotOutsideTheEpcFaults := by
  unfold Obligations.SlotOutsideTheEpcFaults
  intro s i lb lc ld c henter hb hc hab hac hresident hd had h
  exact exec_of_regOperands_error henter
    (State.regOperands_of_slot_absent hb hc hab hac hresident hd had (State.resolveEpc_eq_none h))

/-! ### Reads of regular memory -/

theorem State.readRegular_of_unmapped {s : State} {a : Word} (r n : Nat) (h : s.translate a .read = none) :
    s.readRegular r a n = .error (s.pageFault a) := by
  rw [State.readRegular, h]

theorem State.readRegular_of_inEpc {s : State} {a p : Word} (r n : Nat) (h : s.translate a .read = some p)
    (hin : s.inEpc p = true) : s.readRegular r a n = .error (.refuse (.regularOperandInEpc a)) := by
  rw [State.readRegular, h]
  exact if_pos hin

/-- S5 begins with the read of SRCPGE. -/
theorem State.linkedOperands_of_srcpge_error {s : State} {lb : Word} {k : Stop}
    (h : s.readRegular 1 (fieldAddr lb s.cfg.layout.pageinfoSrcpge) 8 = .error k) :
    s.linkedOperands lb = .error k := by
  rw [State.linkedOperands, State.readRegularWord, h]
  rfl

/-- S10 begins with the read of the PCMD. -/
theorem State.readHeader_of_pcmd_error {s : State} {lb lp : Word} {k : Stop}
    (h : s.readRegular 4 lp 128 = .error k) : s.readHeader lb lp = .error k := by
  rw [State.readHeader, h, error_bind]

/-- Settles O20: each operand's first read is a page fault at the address it reads from. -/
theorem unmappedRegularOperandFaults : Obligations.UnmappedRegularOperandFaults := by
  unfold Obligations.UnmappedRegularOperandFaults
  intro s i o henter hregs
  refine ⟨fun hpageinfo => ?_, fun p hlinked hacquire =>
    ⟨fun hpcmd => ?_, fun h h' hheader hbind hsource => ?_⟩⟩
  · exact exec_of_linkedOperands_error henter hregs
      (State.linkedOperands_of_srcpge_error (State.readRegular_of_unmapped 1 8 hpageinfo))
  · exact exec_of_readHeader_error henter hregs hlinked hacquire
      (State.readHeader_of_pcmd_error (State.readRegular_of_unmapped 4 128 hpcmd))
  · exact exec_of_source_error henter hregs hlinked hacquire hheader hbind
      (State.readRegular_of_unmapped 7 4096 hsource)

/-- Settles O22: each operand's first read is refused. -/
theorem regularOperandInTheEpcIsRefused : Obligations.RegularOperandInTheEpcIsRefused := by
  unfold Obligations.RegularOperandInTheEpcIsRefused
  intro s i o a henter hregs
  refine ⟨fun hpageinfo hin => ?_, fun p hlinked hacquire =>
    ⟨fun hpcmd hin => ?_, fun h h' hheader hbind hsource hin => ?_⟩⟩
  · exact exec_of_linkedOperands_error henter hregs
      (State.linkedOperands_of_srcpge_error (State.readRegular_of_inEpc 1 8 hpageinfo hin))
  · exact exec_of_readHeader_error henter hregs hlinked hacquire
      (State.readHeader_of_pcmd_error (State.readRegular_of_inEpc 4 128 hpcmd hin))
  · exact exec_of_source_error henter hregs hlinked hacquire hheader hbind
      (State.readRegular_of_inEpc 7 4096 hsource hin)

/-! ### S6: the linked operands -/

/-- S6, with the three pointers of PAGEINFO read: the PCMD or the source page refused or misaligned. -/
theorem State.linkedOperands_of_misaligned {s : State} {lb srcpge secs pcmd : Word}
    (hsrcpge : s.readRegularWord 1 (fieldAddr lb s.cfg.layout.pageinfoSrcpge) = .ok srcpge)
    (hsecs : s.readRegularWord 2 (fieldAddr lb s.cfg.layout.pageinfoSecs) = .ok secs)
    (hpcmd : s.readRegularWord 3 (fieldAddr lb s.cfg.layout.pageinfoSecinfo) = .ok pcmd)
    (h : ∀ lp ls, s.lin pcmd 128 = .ok lp → s.lin srcpge 4096 = .ok ls →
      alignedTo 7 lp = false ∨ alignedTo 12 ls = false) : s.linkedOperands lb = .error .gp := by
  simp only [State.linkedOperands, hsrcpge, hsecs, hpcmd, ok_bind]
  exact State.lin_pair_of_misaligned h _

/-- Settles O21: S6 tests the PCMD and the source page, and hands the SECS pointer on. -/
theorem misalignedLinkedOperandTakesGp : Obligations.MisalignedLinkedOperandTakesGp := by
  unfold Obligations.MisalignedLinkedOperandTakesGp
  intro s i o srcpge secs pcmd henter hregs hsrcpge hsecs hpcmd
  exact ⟨fun h => exec_of_linkedOperands_error henter hregs
      (State.linkedOperands_of_misaligned hsrcpge hsecs hpcmd h),
    fun lp ls hp hs hap has => State.linkedOperands_ok.mpr
      ⟨srcpge, pcmd, hsrcpge, hsecs, hpcmd, hp, hs, hap, has⟩⟩

/-! ### S12: the SECS operand -/

theorem State.parentEid_of_misaligned {s : State} (i : Instr) {secs : Word}
    (h : ∀ le, s.lin secs 4096 = .ok le → alignedTo 12 le = false) : s.parentEid i secs = .error .gp := by
  unfold State.parentEid
  rcases s.lin_gp_or_ok secs 4096 with hlin | ⟨le, hlin⟩
  · rw [hlin, error_bind]
  · rw [hlin, ok_bind, h le hlin, require_false, error_bind]

theorem State.parentEid_of_absent {s : State} (i : Instr) {secs le : Word} (hlin : s.lin secs 4096 = .ok le)
    (haligned : alignedTo 12 le = true) (habsent : s.resolveEpc le = none) :
    s.parentEid i secs = .error (s.pageFault le) := by
  simp [State.parentEid, hlin, haligned, habsent]

/-- Settles O26: for a page with a parent, S12 checks the SECS operand. -/
theorem badSecsOperandFaults : Obligations.BadSecsOperandFaults := by
  unfold Obligations.BadSecsOperandFaults
  intro s i o p h henter hregs hlinked hacquire hheader hparent
  have hstop : ∀ k, s.parentEid i p.secs = .error k → exec i s = s.afterInput.finish k := fun k hk =>
    exec_of_bindEid_error henter hregs hlinked hacquire hheader (State.bindEid_of_parentEid_error hparent hk)
  exact ⟨fun hbad => hstop _ (State.parentEid_of_misaligned i hbad),
    fun le hlin haligned habsent => hstop _ (State.parentEid_of_absent i hlin haligned habsent)⟩

end Sys2Proof.Machine
end

section
/-! SUPPORT. S7 to S13: the EPCM tests, how a lock conflict is reported, and the EID that is bound
(40_eld_leaves.md R123 to R132). -/

namespace Sys2Proof.Machine

/-! ### The EPCM tests of S9 -/

section tests

variable {s : State} {i : Instr} {o : RegOperands}

theorem State.acquire_of_targetConflict (hconflict : s.targetConflict o.pc = true) :
    s.acquire i o = .error (s.targetConflictStop i o.lc o.pc) := by
  simp [State.acquire, hconflict]

variable (htarget : s.targetConflict o.pc = false)

include htarget

theorem State.acquire_of_vaConflict (hconflict : s.vaConflict o.pd = true) :
    s.acquire i o = .error (s.conflictStop i) := by
  simp [State.acquire, htarget, hconflict]

variable (hslot : s.vaConflict o.pd = false)

include hslot

theorem State.acquire_of_target_valid (hvalid : (s.epcmAt o.pc).valid = true) :
    s.acquire i o = .error (s.pageFault o.lc) := by
  simp [State.acquire, htarget, hslot, hvalid]

theorem State.acquire_of_not_versionArray (hfree : (s.epcmAt o.pc).valid = false)
    (hentry : (s.epcmAt o.pd).valid = false ∨ (s.epcmAt o.pd).pt ≠ s.cfg.ptVa) :
    s.acquire i o = .error (s.pageFault o.ld) := by
  have htest : ((s.epcmAt o.pd).valid && (s.epcmAt o.pd).pt == s.cfg.ptVa) = false := by
    rw [Bool.and_eq_false_iff, beq_eq_false_iff_ne]
    exact hentry
  simp only [State.acquire, htarget, hslot, hfree, htest, Bool.not_false, require_true, require_false, ok_bind]

end tests

/-- Settles O27: the tests of S9 in their order. -/
theorem epcmTestsFault : Obligations.EpcmTestsFault := by
  unfold Obligations.EpcmTestsFault
  intro s i o p henter hregs hlinked htarget hslot
  exact ⟨fun hvalid => exec_of_acquire_error henter hregs hlinked
      (State.acquire_of_target_valid htarget hslot hvalid),
    fun hfree hentry => exec_of_acquire_error henter hregs hlinked
      (State.acquire_of_not_versionArray htarget hslot hfree hentry),
    fun hfree hvalid hpt => State.acquire_ok.mpr ⟨htarget, hslot, hfree, hvalid, hpt⟩⟩

/-- Addresses of one frame have one EPCM entry. -/
theorem State.epcmAt_congr (s : State) {p q : Word} (h : pageNo p = pageNo q) : s.epcmAt p = s.epcmAt q := by
  rw [State.epcmAt, State.epcmAt, frameOf, frameOf, h]

/-- Settles O57: the one page is valid, and then no free target, or not valid, and then no version array. -/
theorem slotInsideTheTargetPageFaults : Obligations.SlotInsideTheTargetPageFaults := by
  unfold Obligations.SlotInsideTheTargetPageFaults
  intro s i o p henter hregs hlinked htarget hslot hpage
  have hstop : ∀ k, s.acquire i o = .error k → exec i s = s.afterInput.finish k := fun _ =>
    exec_of_acquire_error henter hregs hlinked
  cases hvalid : (s.epcmAt o.pc).valid with
  | true => exact hstop _ (State.acquire_of_target_valid htarget hslot hvalid)
  | false =>
    exact hstop _ (State.acquire_of_not_versionArray htarget hslot hvalid
      (.inl (by rw [s.epcmAt_congr hpage, hvalid])))

/-! ### Lock conflicts -/

/-- A state whose memory is what other agents' writes leave has the EPC bytes of before. -/
theorem sameEpcBytes_of_mem {s t : State} (h : t.mem = s.landed) : SameEpcBytes s t := fun x hx => by
  rw [h, s.landed_epc x hx]

/-- A conflict reported to the leaf's own software: `#GP(0)` or the conflict code, by IsBase. -/
theorem conflictReported_finish (s : State) (i : Instr) :
    ∃ t, s.afterInput.finish (s.conflictStop i) = .next t ∧ ConflictReported s t i := by
  unfold State.conflictStop
  cases hi : i.isBase with
  | true =>
    refine ⟨_, rfl, { base := fun _ => ?_, coded := fun h => ?_, vmcs := ?_, epcm := ?_, bytes := ?_ }⟩
    · simp
    · exact absurd (hi.symm.trans h) (by simp)
    · simp
    · simp
    · exact sameEpcBytes_of_mem (by simp)
  | false =>
    refine ⟨_, rfl, { base := fun h => ?_, coded := fun _ => ?_, vmcs := ?_, epcm := ?_, bytes := ?_ }⟩
    · exact absurd (hi.symm.trans h) (by simp)
    · simp [Rflags.completed]
    · simp
    · simp
    · exact sameEpcBytes_of_mem (by simp)

/-- Settles O23: the first test of S7 stops, with the VM exit in VMX non-root operation with the extensions
enabled, else with the report to the leaf's own software. -/
theorem targetConflictIsReported : Obligations.TargetConflictIsReported := by
  unfold Obligations.TargetConflictIsReported
  intro s i o p henter hregs hlinked hconflict
  rw [exec_of_acquire_error henter hregs hlinked (State.acquire_of_targetConflict hconflict),
    State.targetConflictStop]
  by_cases hvmx : s.vmxNonRoot = true ∧ s.epcVirtExt = true
  · rw [if_pos (Bool.and_eq_true_iff.mpr hvmx)]
    refine ⟨s.afterInput.exitVm (s.exitFields i o.lc o.pc), rfl, fun _ => ?_, fun hnot => absurd hvmx hnot⟩
    simpa using ⟨State.exitFields_get i o.lc o.pc, fun k => s.exitQualification_out i (k := k)⟩
  · rw [if_neg (mt Bool.and_eq_true_iff.mp hvmx)]
    obtain ⟨t, ht, hreported⟩ := conflictReported_finish s i
    exact ⟨t, ht, fun h => absurd h hvmx, fun _ => hreported⟩

/-- Settles O24: the second test of S8 stops, in any mode. -/
theorem slotConflictIsReported : Obligations.SlotConflictIsReported := by
  unfold Obligations.SlotConflictIsReported
  intro s i o p henter hregs hlinked htarget hconflict
  rw [exec_of_acquire_error henter hregs hlinked (State.acquire_of_vaConflict htarget hconflict)]
  exact conflictReported_finish s i

/-- The last test of S12 is that of the lock. -/
theorem State.parentEid_of_secsConflict {s : State} {i : Instr} {secs le : Word} {pe : EpcAddress}
    (hlin : s.lin secs 4096 = .ok le) (haligned : alignedTo 12 le = true) (hresident : s.resolveEpc le = some pe)
    (hentry : s.cfg.checkSecsEpcm = true →
      (s.epcmAt pe.read).valid = true ∧ (s.epcmAt pe.read).pt = s.cfg.ptSecs)
    (hconflict : s.secsConflict pe.read = true) : s.parentEid i secs = .error (s.conflictStop i) := by
  have htest : (!s.cfg.checkSecsEpcm || ((s.epcmAt pe.read).valid && (s.epcmAt pe.read).pt == s.cfg.ptSecs)) =
      true := by
    cases hswitch : s.cfg.checkSecsEpcm with
    | false => rfl
    | true => simpa using hentry hswitch
  simp only [State.parentEid, hlin, haligned, hresident, htest, hconflict, ok_bind, require_true, orStop_some,
    Bool.not_true, require_false, error_bind]

theorem State.bindEid_of_noParent {s : State} {h : MacHeader} (i : Instr) (secs : Word)
    (hparent : hasParent s.cfg (h.pt s.cfg.layout) = false) : s.bindEid i h secs = .ok { h with eid := 0 } := by
  rw [State.bindEid, hparent]
  rfl

/-- Settles O25: a page with a parent has its SECS locked, and a conflict there is reported as on the VA page; a page
without one skips S12. -/
theorem secsConflictIsReported : Obligations.SecsConflictIsReported := by
  unfold Obligations.SecsConflictIsReported
  intro s i o p h henter hregs hlinked hacquire hheader
  refine ⟨fun le pe hparent hlin haligned hresident hentry hconflict => ?_, fun hparent secs =>
    State.bindEid_of_noParent i secs hparent⟩
  rw [exec_of_bindEid_error henter hregs hlinked hacquire hheader (State.bindEid_of_parentEid_error hparent
    (State.parentEid_of_secsConflict hlin haligned hresident hentry hconflict))]
  exact conflictReported_finish s i

/-! ### The EID and the counter -/

theorem hasParent_iff (c : Config) (pt : BitVec 8) :
    hasParent c pt = true ↔ pt = c.ptReg ∨ pt = c.ptTcs ∨ pt = c.ptTrim := by
  simp [hasParent, or_assoc]

/-- Settles O31: EID alone is bound, to what S13 reads for a page with a parent, else to 0. -/
theorem eidIsTheParentsOrZero : Obligations.EidIsTheParentsOrZero := by
  unfold Obligations.EidIsTheParentsOrZero
  intro s i h h' secs hbind
  obtain ⟨eid, rfl, hparent, hnone⟩ := State.bindEid_ok.mp hbind
  refine ⟨rfl, rfl, rfl, fun hpt => ?_, fun hreg htcs htrim => ?_⟩
  · obtain ⟨le, pe, hok⟩ := State.parentEid_ok.mp (hparent ((hasParent_iff _ _).mpr hpt))
    exact ⟨le, pe, hok.lin, hok.resident, hok.eid⟩
  · refine hnone (Bool.eq_false_iff.mpr fun hpt => ?_)
    rcases (hasParent_iff _ _).mp hpt with heq | heq | heq
    · exact hreg heq
    · exact htcs heq
    · exact htrim heq

/-- The counter, bit by bit: the version from bit 32 on. -/
theorem getLsbD_counterOf (v : Word) (k : Nat) :
    (counterOf v).getLsbD k = (decide (32 ≤ k) && v.getLsbD (k - 32)) := by
  rw [counterOf, BitVec.getLsbD_shiftLeft, BitVec.getLsbD_setWidth]
  by_cases hk : k < 96
  · rw [decide_eq_true (p := k < 128) (by omega), decide_eq_true (p := k - 32 < 128) (by omega)]
    by_cases h32 : 32 ≤ k
    · simp [h32]
    · simp [h32]
  · rw [BitVec.getLsbD_of_ge v (k - 32) (by omega)]
    simp

/-- Settles O33, bit by bit. -/
theorem counterHoldsTheWholeVersion : Obligations.CounterHoldsTheWholeVersion := by
  unfold Obligations.CounterHoldsTheWholeVersion
  intro v
  have hbit : ∀ {o n k : Nat}, k < n → ((counterOf v).extractLsb' o n).getLsbD k =
      (decide (32 ≤ o + k) && v.getLsbD (o + k - 32)) := fun hk => by
    rw [BitVec.getLsbD_extractLsb', getLsbD_counterOf, decide_eq_true hk, Bool.true_and]
  refine ⟨BitVec.eq_of_getLsbD_eq fun k hk => ?_, BitVec.eq_of_getLsbD_eq fun k hk => ?_,
    BitVec.eq_of_getLsbD_eq fun k hk => ?_⟩
  · rw [hbit hk, decide_eq_true (by omega), Bool.true_and, Nat.add_sub_cancel_left]
  · rw [hbit hk, decide_eq_false (by omega), Bool.false_and]
    simp
  · rw [hbit hk, BitVec.getLsbD_of_ge v _ (by omega), Bool.and_false]
    simp

end Sys2Proof.Machine
end

section
/-! SUPPORT. The load: how each of its three ends leaves the slot, the target page and the target's EPCM entry
(40_eld_leaves.md R137 to R142, R149). -/

namespace Sys2Proof.Machine

/-! ### The three ends -/

/-- The MAC differs (40_eld_leaves.md R137). -/
theorem CanLoad.ends_mismatch {s : State} {i : Instr} {v : LoadView} {mac : List Byte} (c : CanLoad s i v)
    (hread : v.storedMac s = .ok mac) (hmac : (v.outputs s).2 ≠ leMac mac) :
    exec i s = .next ((s.afterInput.withMem (v.filled s)).complete s.cfg.macCompareFail true) := by
  rw [c.ends hread, if_pos hmac]

/-- The MAC verifies and the version check stops (40_eld_leaves.md R138). -/
theorem CanLoad.ends_usedSlot {s : State} {i : Instr} {v : LoadView} {mac : List Byte} (c : CanLoad s i v)
    (hread : v.storedMac s = .ok mac) (hmac : (v.outputs s).2 = leMac mac) (hliteral : s.cfg.vaCommit = .literal)
    (hused : v.slotAtCheck s ≠ 0) : exec i s = .next ((s.afterInput.withMem (v.filled s)).raise .gp) := by
  rw [c.ends hread, if_neg (not_not.mpr hmac), if_pos ⟨hliteral, hused⟩]

/-- Settles O35: the MAC is read again in a page that was read before, so one of the three ends is reached. -/
theorem checkedLoadEndsWithoutPageFault : Obligations.CheckedLoadEndsWithoutPageFault := by
  unfold Obligations.CheckedLoadEndsWithoutPageFault
  intro s i v hevent c
  obtain ⟨mac, hread⟩ := c.mac_read
  by_cases hmac : (v.outputs s).2 = leMac mac
  · by_cases hused : s.cfg.vaCommit = .literal ∧ v.slotAtCheck s ≠ 0
    · exact ⟨_, c.ends_usedSlot hread hmac hused.1 hused.2, .inr (.inr ⟨by simp, hused⟩)⟩
    · have hsucceeds : Succeeds s i v mac :=
        { loads := c, read := hread, verified := hmac
          slotFree := fun hliteral => not_not.mp fun h => hused ⟨hliteral, h⟩ }
      exact ⟨_, hsucceeds.ends, .inl (by simp [hevent])⟩
  · exact ⟨_, c.ends_mismatch hread hmac, .inr (.inl (by simp [hevent]))⟩

/-! ### The memory of each end -/

/-- The memory the decryption leaves has, outside the target page, the EPC bytes of before. -/
theorem CanLoad.filled_epc {s : State} {i : Instr} {v : LoadView} (c : CanLoad s i v) {x : Nat}
    (hx : s.epcByte x = true) (hpage : ¬inPage v.pc x) : Memory.byte (v.filled s) x = Memory.byte s.mem x :=
  (c.filled_out x hpage).trans (s.landed_epc x hx)

/-- Settles O36: the completion with the memory the decryption leaves. -/
theorem macMismatchReturnsItsCode : Obligations.MacMismatchReturnsItsCode := by
  unfold Obligations.MacMismatchReturnsItsCode
  intro s i v mac c hread hmac
  refine ⟨_, c.ends_mismatch hread hmac, by simp, by simp, by simp [Rflags.completed], by simp, ?_, ?_,
    fun x hx hpage => ?_⟩
  · simpa using v.filled_page s
  · simpa using c.filled_slot
  · simpa using c.filled_epc hx hpage

/-- The VA slot after a committed load holds what S18 wrote: ENCLAVECONTEXT lies in the target page. -/
theorem CanLoad.commit_slot {s : State} {i : Instr} {v : LoadView} (c : CanLoad s i v) (w : Word) :
    leWord (Memory.read (s.afterInput.commit i (v.toLoad s.cfg)
      (Memory.write (v.filled s) v.pd.toNat (wordBytes w))).mem v.pd.toNat 8) = w := by
  have hread : Memory.read (s.afterInput.commit i (v.toLoad s.cfg)
      (Memory.write (v.filled s) v.pd.toNat (wordBytes w))).mem v.pd.toNat 8 =
      Memory.read (Memory.write (v.filled s) v.pd.toNat (wordBytes w)) v.pd.toNat 8 :=
    Memory.read_congr _ _ _ _ fun k hk => by
      have hapart := c.slot_apart
      rw [State.commit_mem]
      exact Load.context_out _ _ _ _ (by rw [v.toLoad_pc]; unfold inPage; omega)
  have hslot := Memory.read_write (v.filled s) v.pd.toNat (wordBytes w)
  rw [length_wordBytes] at hslot
  rw [hread, hslot, leWord_wordBytes]

/-- A success leaves in the slot what S18 writes, and reports 0. -/
theorem Succeeds.slot {s : State} {i : Instr} {v : LoadView} {mac : List Byte} (h : Succeeds s i v mac) :
    ∃ t, exec i s = .next t ∧ t.event = s.event ∧ t.rax = 0 ∧
      leWord (Memory.read t.mem v.pd.toNat 8) = v.slotWritten s :=
  ⟨_, h.ends, by simp, by simp, h.loads.commit_slot _⟩

/-- The slot is not in the frame of the target: one is valid, the other free (40_eld_leaves.md R148). -/
theorem CanLoad.slot_pageNo {s : State} {i : Instr} {v : LoadView} (c : CanLoad s i v) :
    pageNo v.pd ≠ pageNo v.pc := fun h => by
  have hvalid := c.slotValid
  rw [s.epcmAt_congr h, c.targetFree] at hvalid
  exact Bool.false_ne_true hvalid

theorem LoadView.slotWritten_literal {s : State} (v : LoadView) (h : s.cfg.vaCommit = .literal) :
    v.slotWritten s = v.version s := by
  rw [LoadView.slotWritten, h]

theorem LoadView.slotWritten_freeSlot {s : State} (v : LoadView) (h : s.cfg.vaCommit = .freeSlot) :
    v.slotWritten s = 0 := by
  rw [LoadView.slotWritten, h]

/-- Settles O37: under LITERAL the check reads the slot, and what it writes is the version. -/
theorem literalVersionCheck : Obligations.LiteralVersionCheck := by
  unfold Obligations.LiteralVersionCheck
  intro s i v mac c hread hmac hliteral
  refine ⟨fun hused => ?_, fun hfree => ?_, c.slot_read_apart, fun hframe => ?_⟩
  · refine ⟨_, c.ends_usedSlot hread hmac hliteral hused, by simp, by simp, ?_, ?_⟩
    · simpa using c.filled_slot
    · simpa using v.filled_page s
  · have hsucceeds : Succeeds s i v mac :=
      { loads := c, read := hread, verified := hmac, slotFree := fun _ => hfree }
    simpa only [v.slotWritten_literal hliteral] using hsucceeds.slot
  · rw [hframe]
    exact c.slot_pageNo

/-- Settles O38: under FREE_SLOT nothing of the version is asked, and what is written is 0. -/
theorem freeSlotVersionCommit : Obligations.FreeSlotVersionCommit := by
  unfold Obligations.FreeSlotVersionCommit
  intro s i v mac c hread hmac hfreeSlot
  have hsucceeds : Succeeds s i v mac :=
    { loads := c, read := hread, verified := hmac
      slotFree := fun hliteral => by rw [hfreeSlot] at hliteral; cases hliteral }
  simpa only [v.slotWritten_freeSlot hfreeSlot] using hsucceeds.slot

/-! ### The entry a success commits -/

/-- The three bits of RWX. -/
theorem getLsbD_flagsRwx (l : Layout) (f : Word) : (flagsRwx l f).getLsbD 0 = f.getLsbD l.flagR ∧
    (flagsRwx l f).getLsbD 1 = f.getLsbD l.flagW ∧ (flagsRwx l f).getLsbD 2 = f.getLsbD l.flagX := by
  simp only [flagsRwx, BitVec.getLsbD_append, BitVec.getLsbD_ofBool]
  simp

/-- A success leaves the header's entry at the target, RAX = 0 and ZF = 0. -/
theorem Succeeds.entry {s : State} {i : Instr} {v : LoadView} {mac : List Byte} (h : Succeeds s i v mac) :
    ∃ t, exec i s = .next t ∧ t.epcmAt v.pc = (v.header s.cfg).entry s.cfg i ∧ t.rax = 0 ∧ t.rflags.zf = false :=
  ⟨_, h.ends, v.commit_epcmAt s i _, by simp, by simp⟩

/-- Settles O39: the fields of the entry, one by one. -/
theorem successCommitsTheHeader : Obligations.SuccessCommitsTheHeader := by
  unfold Obligations.SuccessCommitsTheHeader
  intro s i v mac h
  obtain ⟨t, ht, hentry, -, -⟩ := h.entry
  refine ⟨t, ht, _, rfl, ?_⟩
  rw [hentry]
  exact ⟨rfl, getLsbD_flagsRwx _ _, rfl, rfl, rfl, rfl⟩

theorem Instr.isBlocking_iff (i : Instr) : i.isBlocking = true ↔ i = .eldb ∨ i = .eldbc := by
  cases i <;> decide

theorem blockedBit_iff (c : Config) (i : Instr) (pt : BitVec 8) :
    blockedBit c i pt = true ↔ (i = .eldb ∨ i = .eldbc) ∧ pt ≠ c.ptSecs ∧ pt ≠ c.ptVa := by
  rw [blockedBit, Bool.and_eq_true, Bool.and_eq_true, bne_iff_ne, bne_iff_ne, Instr.isBlocking_iff, and_assoc]

/-- Settles O40: BLOCKED of the entry is the rule of R140. -/
theorem blockedFollowsLeafAndPageType : Obligations.BlockedFollowsLeafAndPageType := by
  unfold Obligations.BlockedFollowsLeafAndPageType
  intro s i v mac h
  obtain ⟨t, ht, hentry, -, -⟩ := h.entry
  refine ⟨t, ht, ?_⟩
  rw [hentry]
  exact blockedBit_iff _ _ _

/-- Settles O41: every entry a success commits is valid. -/
theorem successIsReported : Obligations.SuccessIsReported := by
  unfold Obligations.SuccessIsReported
  intro s i v mac h
  obtain ⟨t, ht, hentry, hrax, hzf⟩ := h.entry
  exact ⟨t, ht, by rw [hentry]; rfl, hrax, hzf⟩

/-- Settles O42: S20 is the last write to memory, and what it writes is the translation for writing. -/
theorem secsLoadStoresItsTranslation : Obligations.SecsLoadStoresItsTranslation := by
  unfold Obligations.SecsLoadStoresItsTranslation
  intro s i v mac h hsecs
  refine ⟨_, h.ends, (State.resolveEpc_some.mp h.loads.targetResident).2.1, ?_⟩
  rw [v.commit_mem, if_pos hsecs]
  have hcontext := Memory.read_write (Memory.write (v.filled s) v.pd.toNat (wordBytes (v.slotWritten s)))
    (v.pc.toNat + s.cfg.layout.secsEnclaveContext) (wordBytes v.pc)
  rw [length_wordBytes] at hcontext
  rw [hcontext, leWord_wordBytes]

end Sys2Proof.Machine
end

section
/-! SUPPORT. What the ends of an execution have in common: the flags of a completion, the EPC and the EPCM of a stop
before the copy and of a conflict return, the bytes of valid pages (40_eld_leaves.md R113, R125, R133, R143). -/

namespace Sys2Proof.Machine

/-- Completion clears the five flags other than ZF. -/
theorem Rflags.completed_clears (f : Rflags) (zf : Bool) : (f.completed zf).cf = false ∧ (f.completed zf).pf = false ∧
    (f.completed zf).af = false ∧ (f.completed zf).of = false ∧ (f.completed zf).sf = false :=
  ⟨rfl, rfl, rfl, rfl, rfl⟩

/-- An execution that records no outcome has completed the flags. -/
theorem Ending.completed {s t : State} {i : Instr} (h : Ending s i t) (hevent : t.event = none) :
    ∃ zf, t.rflags = s.rflags.completed zf := by
  cases h with
  | fault e => simp at hevent
  | vmExit o => simp at hevent
  | usedSlot v => simp at hevent
  | conflict => exact ⟨true, by simp⟩
  | mismatch v => exact ⟨true, by simp⟩
  | success v => exact ⟨false, by simp⟩

/-- Settles O45: the completions are those of the conflict code, the MAC code and success, and ZF tells success from
the codes, which keep the EPCM. -/
theorem errorExitClearsTheFiveFlags : Obligations.ErrorExitClearsTheFiveFlags := by
  unfold Obligations.ErrorExitClearsTheFiveFlags
  refine ⟨fun s t i hevent h hnone => ?_, fun u code zf => by simp⟩
  have hend := exec_ending h
  obtain ⟨zf, hflags⟩ := hend.completed hnone
  have hepcm : t.rflags.zf = true → t.epcm = s.epcm := fun hzf =>
    (epcmChangesOnlyOnSuccessAtTheTarget s t i hevent h).1 (.inr hzf)
  obtain ⟨hcf, hpf, haf, hof, hsf⟩ := s.rflags.completed_clears zf
  rw [hflags] at hepcm ⊢
  exact ⟨hcf, hpf, haf, hof, hsf, hend.keeps.locks, hepcm⟩

/-- Every way an execution stops leaves memory and the EPCM as they were. -/
theorem State.finish_keeps {s t : State} {k : Stop} (h : s.finish k = .next t) : t.mem = s.mem ∧ t.epcm = s.epcm := by
  rcases State.finish_next h with ⟨-, rfl⟩ | ⟨a, e, -, rfl⟩ | ⟨v, -, rfl⟩ | ⟨c, -, rfl⟩
  · simp
  · simp
  · simp
  · simp

/-- Settles O49: before the copy an execution has its stop and other agents' writes only. -/
theorem stopsBeforeTheCopyStoreNothing : Obligations.StopsBeforeTheCopyStoreNothing := by
  unfold Obligations.StopsBeforeTheCopyStoreNothing
  intro s t i k hcheck h
  rw [exec_of_check_error hcheck] at h
  obtain ⟨hmem, hepcm⟩ := State.finish_keeps h
  exact ⟨sameEpcBytes_of_mem (hmem.trans s.afterInput_mem), hepcm.trans s.afterInput_epcm⟩

/-- The two error codes are distinct, and the conflict code is not the 0 of success (00_scope.md R7). -/
theorem codesOk_iff (c : Config) : c.codesOk = true ↔
    c.macCompareFail ≠ 0 ∧ c.epcPageConflict ≠ 0 ∧ c.macCompareFail ≠ c.epcPageConflict := by
  simp [Config.codesOk, and_assoc]

/-- Settles O52: of the completions only the conflict return has the conflict code in RAX. -/
theorem conflictReturnChangesNoPage : Obligations.ConflictReturnChangesNoPage := by
  unfold Obligations.ConflictReturnChangesNoPage
  intro s t i hevent hcodes h hnone hrax
  obtain ⟨-, hnonzero, hdistinct⟩ := (codesOk_iff s.cfg).mp hcodes
  cases exec_ending h with
  | fault e => simp at hnone
  | vmExit o => simp at hnone
  | usedSlot v => simp at hnone
  | conflict hi => exact ⟨hi, by simp, sameEpcBytes_of_mem (by simp), by simp⟩
  | mismatch v => exact absurd (by simpa using hrax) hdistinct
  | success v => exact absurd (by simpa using hrax.symm) hnonzero

/-- Settles O54: the target page is free and the slot's page a version array (S9), so a valid page that is none is
neither. -/
theorem validPagesKeepTheirBytes : Obligations.ValidPagesKeepTheirBytes := by
  unfold Obligations.ValidPagesKeepTheirBytes
  intro s t i h x hx hvalid hpt
  rw [← s.landed_epc x hx]
  refine (exec_ending h).byte_outside fun v c => ⟨fun hpage => ?_, fun hslot => ?_⟩
  · rw [(c.target_epc hpage).2] at hvalid
    exact Bool.false_ne_true (c.targetFree.symm.trans hvalid)
  · rw [(c.slot_epc hslot).2] at hpt
    exact hpt c.slotType

end Sys2Proof.Machine
end

section
/-! SUPPORT. The leaves compared by their outcomes: two of one IsBase differ in BLOCKED of the target's entry at most,
two of one IsBlocking not at all where no page conflicts (40_eld_leaves.md R110, R150). -/

namespace Sys2Proof.Machine

/-! ### One IsBase -/

/-- Two states that differ in the EPCM only, there in BLOCKED only, and in it at the target of `s` only. -/
structure DifferInBlocked (s t u : State) : Prop where
  others : u = { t with epcm := u.epcm }
  entries : ∀ f, Sparse.get EpcmEntry.free f u.epcm =
    { Sparse.get EpcmEntry.free f t.epcm with blocked := (Sparse.get EpcmEntry.free f u.epcm).blocked }
  elsewhere : ∀ f, (∀ o, s.regOperands = .ok o → f ≠ frameOf o.pc) →
    Sparse.get EpcmEntry.free f u.epcm = Sparse.get EpcmEntry.free f t.epcm

theorem differInBlocked_refl (s t : State) : DifferInBlocked s t t where
  others := rfl
  entries := fun _ => rfl
  elsewhere := fun _ _ => rfl

/-- What a commit for another leaf changes is the EPCM. -/
theorem State.commit_leaf (s : State) (i j : Instr) (l : Load) (m : List Host.Cell) :
    s.commit j l m = { s.commit i l m with epcm := (s.commit j l m).epcm } := rfl

/-- The entries for two leaves differ in BLOCKED. -/
theorem MacHeader.entry_leaf (h : MacHeader) (c : Config) (i j : Instr) :
    h.entry c j = { h.entry c i with blocked := (h.entry c j).blocked } := rfl

/-- The same load committed for two leaves. -/
theorem CanLoad.differInBlocked_commit {s : State} {i : Instr} {v : LoadView} (c : CanLoad s i v) (j : Instr)
    (m : List Host.Cell) : DifferInBlocked s (s.afterInput.commit i (v.toLoad s.cfg) m)
      (s.afterInput.commit j (v.toLoad s.cfg) m) where
  others := s.afterInput.commit_leaf i j _ m
  entries := fun f => by
    rw [State.commit_epcmGet, State.commit_epcmGet]
    by_cases hf : f = frameOf (v.toLoad s.cfg).pc
    · rw [if_pos hf, if_pos hf]
      exact MacHeader.entry_leaf _ _ i j
    · rw [if_neg hf, if_neg hf]
  elsewhere := fun f hf => by
    have hne := hf _ c.regOperands
    rw [State.commit_epcmGet, State.commit_epcmGet, v.toLoad_pc, if_neg hne, if_neg hne]

/-- Of the leaf the conditions of 70 R211 read IsBase alone. -/
theorem CanLoad.sibling {s : State} {i j : Instr} {v : LoadView} (c : CanLoad s i v) (hbase : i.isBase = j.isBase) :
    CanLoad s j v :=
  { c with feature := hbase ▸ c.feature }

/-- Two leaves of one IsBase end in one outcome, or in two next states that differ in BLOCKED. -/
theorem exec_sibling (s : State) {i j : Instr} (hbase : i.isBase = j.isBase) : exec j s = exec i s ∨
    ∃ t u, exec i s = .next t ∧ exec j s = .next u ∧ DifferInBlocked s t u := by
  cases hcheck : s.check i with
  | error k =>
    exact .inl ((exec_of_check_error ((s.check_congr hbase).symm.trans hcheck)).trans
      (exec_of_check_error hcheck).symm)
  | ok l =>
    obtain ⟨v, c, -⟩ := State.check_ok.mp hcheck
    obtain ⟨mac, hread⟩ := c.mac_read
    refine .inr ⟨_, _, c.ends hread, (c.sibling hbase).ends hread, ?_⟩
    split
    · exact differInBlocked_refl s _
    · split
      · exact differInBlocked_refl s _
      · exact c.differInBlocked_commit j _

/-- Settles O55: the checks are the same, and of the two loads' ends only the commits differ. -/
theorem siblingsDifferOnlyInBlocked : Obligations.SiblingsDifferOnlyInBlocked := by
  unfold Obligations.SiblingsDifferOnlyInBlocked
  intro s i j hbase
  rcases exec_sibling s hbase with hsame | ⟨t, u, ht, hu, hdiffer⟩
  · rw [hsame]
    cases exec i s with
    | next t => exact ⟨rfl, fun _ => rfl, fun _ _ => rfl⟩
    | fault f => rfl
    | refused r => rfl
  · rw [ht, hu]
    exact ⟨hdiffer.others, hdiffer.entries, hdiffer.elsewhere⟩

/-! ### One IsBlocking, and no conflict -/

theorem hasLeaf_of_features {c : Config} (i : Instr) (hbase : c.hasSgx1 = true) (hcoded : c.hasEldbcElduc = true) :
    hasLeaf c i = true := by
  rw [hasLeaf, hbase, hcoded, ite_self]

/-- With both features entry does not depend on the leaf. -/
theorem State.enterLeaf_of_features {s : State} (i j : Instr) (hbase : s.cfg.hasSgx1 = true)
    (hcoded : s.cfg.hasEldbcElduc = true) : s.enterLeaf i = s.enterLeaf j := by
  rw [State.enterLeaf, State.enterLeaf, hasLeaf_of_features i hbase hcoded, hasLeaf_of_features j hbase hcoded]

/-- Without a conflict S7 and S8 report nothing, so no report of the leaf counts. -/
theorem State.acquire_of_noConflict {s : State} (i j : Instr) {o : RegOperands}
    (htarget : s.targetConflict o.pc = false) (hslot : s.vaConflict o.pd = false) :
    s.acquire i o = s.acquire j o := by
  simp [State.acquire, htarget, hslot]

/-- Without a conflict on the SECS page the EID does not depend on the leaf. -/
theorem State.bindEid_of_noConflict {s : State} (i j : Instr) (h : MacHeader) (secs : Word)
    (hnone : ∀ p, s.secsConflict p = false) : s.bindEid i h secs = s.bindEid j h secs := by
  simp [State.bindEid, State.parentEid, hnone]

/-- With both features and no conflict the checks do not depend on the leaf. -/
theorem State.check_of_noConflict {s : State} (i j : Instr) (hbase : s.cfg.hasSgx1 = true)
    (hcoded : s.cfg.hasEldbcElduc = true)
    (hnone : ∀ p, s.targetConflict p = false ∧ s.vaConflict p = false ∧ s.secsConflict p = false) :
    s.check i = s.check j := by
  simp only [State.check, State.enterLeaf_of_features i j hbase hcoded,
    fun o => State.acquire_of_noConflict i j (o := o) (hnone _).1 (hnone _).2.1,
    fun h secs => State.bindEid_of_noConflict i j h secs fun p => (hnone p).2.2]

/-- Settles O56: the checks agree, and a load depends on IsBlocking alone. -/
theorem conflictFreeVariantsAgree : Obligations.ConflictFreeVariantsAgree := by
  unfold Obligations.ConflictFreeVariantsAgree
  intro s i j hblocking hbase hcoded hnone
  have hsame := State.check_of_noConflict i j hbase hcoded hnone
  cases hcheck : s.check i with
  | error k =>
    rw [exec_of_check_error hcheck, exec_of_check_error (hsame.symm.trans hcheck)]
  | ok l =>
    rw [exec_of_check_ok hcheck, exec_of_check_ok (hsame.symm.trans hcheck), s.load_congr hblocking]

end Sys2Proof.Machine
end

section
/-! SUPPORT. Recorded outcomes: a step after one stops, which execution ends in a VM exit, and what an execution that
records an outcome leaves as it was (60_exceptions.md R173 to R185). -/

namespace Sys2Proof.Machine

/-- Settles O5: the first thing a step looks at is the recorded outcome. -/
theorem stepAfterARecordedOutcomeStops : Obligations.StepAfterARecordedOutcomeStops := by
  unfold Obligations.StepAfterARecordedOutcomeStops
  intro s e hevent
  rw [step, hevent]

/-- An execution that records an outcome leaves RAX, the flags, RIP and the EPCM as they were. -/
theorem exec_recorded_keeps {s t : State} {i : Instr} (hnone : s.event = none) (h : exec i s = .next t)
    (hrecorded : t.event ≠ none) : t.rax = s.rax ∧ t.rflags = s.rflags ∧ t.rip = s.rip ∧ t.epcm = s.epcm := by
  obtain ⟨hrip, hrflags, hrax⟩ := (completionAloneWritesRipRaxAndFlags s t i hnone h).2 hrecorded
  exact ⟨hrax, hrflags, hrip, (epcmChangesOnlyOnSuccessAtTheTarget s t i hnone h).1 (.inl hrecorded)⟩

/-! ### The VM exit -/

/-- An execution that ends in a VM exit met a target conflict in VMX non-root operation with the extensions
enabled, and delivered the exit with that conflict's fields. -/
theorem Ending.of_vmExit {s t : State} {i : Instr} (h : Ending s i t) (hnone : s.event = none)
    (hexit : t.event = some .vmExit) :
    ∃ o, s.regOperands = .ok o ∧ s.targetConflict o.pc = true ∧ s.vmxNonRoot = true ∧ s.epcVirtExt = true ∧
      t = s.afterInput.exitVm (s.exitFields i o.lc o.pc) := by
  cases h with
  | vmExit o ho hconflict hvmx hext => exact ⟨o, ho, hconflict, hvmx, hext, rfl⟩
  | fault e he =>
    obtain rfl : e = .vmExit := by simpa using hexit
    simp at he
  | usedSlot v => simp at hexit
  | conflict => simp [hnone] at hexit
  | mismatch v => simp [hnone] at hexit
  | success v => simp [hnone] at hexit

/-- Settles O29: the conditions of the one ending that is a VM exit. -/
theorem vmExitOnlyOnTargetConflict : Obligations.VmExitOnlyOnTargetConflict := by
  unfold Obligations.VmExitOnlyOnTargetConflict
  intro s t i hnone h hexit
  obtain ⟨o, ho, hconflict, hvmx, hext, -⟩ := (exec_ending h).of_vmExit hnone hexit
  exact ⟨o, ho, hconflict, hvmx, hext⟩

/-- Settles O30: the exit records an outcome, and of memory and the VMCS it leaves what was delivered. -/
theorem vmExitLeavesTheGuestUntouched : Obligations.VmExitLeavesTheGuestUntouched := by
  unfold Obligations.VmExitLeavesTheGuestUntouched
  intro s t i hnone h hexit
  obtain ⟨hrax, hrflags, hrip, hepcm⟩ := exec_recorded_keeps hnone h (by simp [hexit])
  refine ⟨(exec_ending h).keeps, hrax, hrflags, hrip, hepcm, ?_⟩
  obtain ⟨o, -, -, -, -, rfl⟩ := (exec_ending h).of_vmExit hnone hexit
  exact ⟨sameEpcBytes_of_mem (by simp), by simp, by simp⟩

/-! ### The faults -/

/-- An execution that ends in a fault has written no EPC byte outside the target page of a load: the fault comes before
the copy, or it is the `#GP(0)` of the version check, before the slot is written. -/
theorem Ending.byte_of_fault {s t : State} {i : Instr} (h : Ending s i t) (hnone : s.event = none)
    (hfault : t.event = some .gp ∨ ∃ a e, t.event = some (.pf a e)) {x : Nat} (hx : s.epcByte x = true)
    (hout : ∀ v, CanLoad s i v → ¬inPage v.pc x) : Memory.byte t.mem x = Memory.byte s.mem x := by
  cases h with
  | fault e => simpa using s.landed_epc x hx
  | usedSlot v c => simpa using c.filled_epc hx (hout v c)
  | vmExit o => simp at hfault
  | conflict => simp [hnone] at hfault
  | mismatch v => simp [hnone] at hfault
  | success v => simp [hnone] at hfault

/-- Settles O51: a fault records an outcome and is no VM exit, and the page a load fills is the one its register
operands resolve to. -/
theorem faultsLeaveAllButTheTargetPage : Obligations.FaultsLeaveAllButTheTargetPage := by
  unfold Obligations.FaultsLeaveAllButTheTargetPage
  intro s t i hnone h hfault
  have hevent : t.event ≠ none ∧ t.event ≠ some .vmExit := by
    rcases hfault with hgp | ⟨a, e, hpf⟩
    · simp [hgp]
    · simp [hpf]
  obtain ⟨hrax, hrflags, hrip, hepcm⟩ := exec_recorded_keeps hnone h hevent.1
  obtain ⟨hkeeps, hvmx⟩ := leavesKeepOperandsAndSystemState s t i h
  obtain ⟨hvmcs, hnonRoot⟩ := hvmx hevent.2
  exact ⟨hkeeps, hrax, hrflags, hrip, hvmcs, hnonRoot, hepcm, fun x hx hout =>
    (exec_ending h).byte_of_fault hnone hfault hx fun v c => hout _ c.regOperands⟩

end Sys2Proof.Machine
end
